-- ==== Sys2Proof/Word.lean ====
section
/-! DEFINITION. Word.lean: the bit-vector types of ZSL-CORE: the command word and its fields, and a value of the number
format. -/

namespace Sys2Proof

/-- A word is 32 bits, bit 31 the most significant (R10). The command word is one (R81). -/
abbrev Word := BitVec 32

/-- A field of eight bits of the command word: `OPC`, `INST` or `REG` (R81). -/
abbrev Byte := BitVec 8

/-- The number format `FMT`, a parameter of the block (R8, U12): an IEEE 754 binary format, by the widths of its exponent
and fraction fields. Log entry 1. -/
structure FloatFormat where
  expBits  : Nat
  fracBits : Nat
  exp_ge   : 2 ≤ expBits
  frac_ge  : 1 ≤ fracBits
deriving DecidableEq, Repr

/-- The default of `FMT`: IEEE 754-2008 binary32, exponent in bits 30:23, fraction in bits 22:0 (R8, R11). -/
abbrev FloatFormat.binary32 : FloatFormat := { expBits := 8, fracBits := 23, exp_ge := by decide, frac_ge := by decide }

/-- The exponent and fraction fields together: the bits below the sign bit. -/
abbrev FloatFormat.magWidth (F : FloatFormat) : Nat := F.expBits + F.fracBits

/-- The bits of a value: the sign bit, the exponent field, the fraction field. -/
abbrev FloatFormat.width (F : FloatFormat) : Nat := F.magWidth + 1

/-- A value of the format `F`, as its interchange encoding: sign, exponent and fraction from the most significant bit
down. With binary32 it is a `Word` (R11). -/
abbrev Val (F : FloatFormat) := BitVec F.width

end Sys2Proof
end

