-- ==== Sys2Proof/Config.lean ====
section
/-! DEFINITION. Config.lean: the parameters of the block that are fixed when it is built (R8, R9), and its free values:
the words and functions no source determines, as constants without a body. -/

namespace Sys2Proof

/-- Clarke transform mode `CLARKE_MODE`, "a static configuration choice, not a runtime branch" (R8, R171). -/
inductive ClarkeMode where
  | three
  | two
deriving DecidableEq, Repr, Inhabited

/-- Kind of the two controllers inside every current controller, `CC_KIND` (R8, R190). -/
inductive CtrlKind where
  | pi
  | pid
deriving DecidableEq, Repr, Inhabited

/-- Which gain's zero test gates the PID derivative term, `D_GATE` (R8, R130). -/
inductive DGate where
  | kd
  | ki
deriving DecidableEq, Repr, Inhabited

/-- The four SVPWM algorithms the source names (R43). What the names mean is not in the source (R220). -/
inductive SvmVariant where
  | ars
  | odtv1
  | svgen
  | own
deriving DecidableEq, Repr, Inhabited

/-- One of the six sectors of the alpha-beta plane (R19, R218). -/
inductive Sector where
  | s1
  | s2
  | s3
  | s4
  | s5
  | s6
deriving DecidableEq, Repr, Inhabited

/-- The square-root backend `SQRT` (R8): the correctly rounded IEEE 754 square root, which is the default, or another
backend, of which nothing is known but that it is a function (U7). -/
inductive SqrtBackend where
  | ieee
  | other (k : Nat)
deriving DecidableEq, Repr, Inhabited

/-- The static parameters an operation consults (R9): they change what is computed, never how a word is split (R92). -/
structure Params where
  clarkeMode : ClarkeMode
  dGate      : DGate
  sqrt       : SqrtBackend
deriving DecidableEq, Repr

/-- Everything that is fixed when the hardware is built (R8, R9): the number format, the instance counts, the kind of the
embedded controllers, the algorithm of each modulator (one entry an instance, so that `N_SVM` is the list's length), and the
parameters of `Params`. -/
structure Build where
  fmt         : FloatFormat
  nPi         : Nat
  nPid        : Nat
  nLpf1       : Nat
  nLpf2       : Nat
  nCc         : Nat
  ccKind      : CtrlKind
  svmVariants : List SvmVariant
  params      : Params
deriving DecidableEq, Repr

/-- `N_SVM`, the number of modulator instances (R8). -/
def Build.nSvm (b : Build) : Nat := b.svmVariants.length

/-- The registers whose value after reset no source determines, under the spec's names `RST_*` (R252). -/
inductive RstReg where
  | piOutMin | piOutMax
  | pidOutMin | pidOutMax | pidDB0 | pidDB1 | pidDA1
  | lpf1B0 | lpf1B1 | lpf1A1
  | lpf2B0 | lpf2B1 | lpf2B2 | lpf2A1 | lpf2A2
  | ccDOutMin | ccDOutMax | ccDDB0 | ccDDB1 | ccDDA1
  | ccQOutMin | ccQOutMax | ccQDB0 | ccQDB1 | ccQDA1
deriving DecidableEq, Repr

/-- FREE VALUE. `RST_*` (R252): the word an unspecified register of one instance holds after a reset. The first number
is the draw of the reset event, so that two resets of one machine need not leave the same words; the second is the
instance. Log entry 5. -/
opaque Config.rst (F : FloatFormat) : RstReg → Nat → Nat → Val F

/-- FREE VALUE. The NaN an arithmetic primitive produces has an unspecified sign and payload (R13). The first number is
the draw of the operation, the second the place of the primitive in the operation's rule. Log entry 2. -/
opaque Config.freeNaN (F : FloatFormat) : Nat → Nat → Val F

/-- FREE VALUE. The NaN a primitive of `SVM.RUN` produces, of unspecified sign and payload (R13), the same whenever a
modulator of one algorithm runs on one vector: "running twice ... gives the same duties" (R214), and a modulator is a
memoryless function of its vector (R42). The number is the place of the primitive in R213. Log entry 2. -/
opaque Config.svmNaN (F : FloatFormat) : SvmVariant → Val F → Val F → Nat → Val F

/-- FREE VALUE. `SINCOS_DEG` (R8, R193): the angle in degrees to its sine and cosine, a total function and nothing more.
Log entry 6. -/
opaque Config.sincosDeg (F : FloatFormat) : Val F → Val F × Val F

/-- FREE VALUE. The function `SQRT` of the backend `SqrtBackend.other k` (R8, U7). Log entry 7. -/
opaque Config.sqrtOther (F : FloatFormat) : Nat → Val F → Val F

/-- FREE VALUE. `SVM_VARIANT[i]` (R8, R43) of the build that `State.reset` takes. Log entry 8. -/
opaque Config.svmVariant : Nat → SvmVariant

/-- FREE VALUE. `SVM_SECTOR[v]` away from the null vector (R218). Log entry 8. -/
opaque Config.svmSector (F : FloatFormat) : SvmVariant → Val F → Val F → Option Sector

/-- FREE VALUE. The sector `SVM_SECTOR[v]` gives the null vector, which R218 (a) says is not `none`. Log entry 8. -/
opaque Config.svmNullSector : SvmVariant → Sector

/-- FREE VALUE. `SVM_DUTY[v]` away from the null vector (R218). Log entry 8. -/
opaque Config.svmDuty (F : FloatFormat) : SvmVariant → Sector → Val F → Val F → Val F × Val F × Val F

/-- The defaults of R8: `FMT = binary32`, two PI and two PID instances, one of every other unit, `CLARKE_MODE = THREE`,
`CC_KIND = PI`, `D_GATE = KD`, the IEEE square root; the modulator's algorithm is open. Log entry 4. -/
def Build.default : Build where
  fmt := .binary32
  nPi := 2
  nPid := 2
  nLpf1 := 1
  nLpf2 := 1
  nCc := 1
  ccKind := .pi
  svmVariants := [Config.svmVariant 0]
  params := { clarkeMode := .three, dGate := .kd, sqrt := .ieee }

end Sys2Proof
end

