-- ==== Sys2Proof/Syntax.lean ====
section
/-! DEFINITION. Syntax.lean: the 31 operations of R85 as one inductive type, the names of the registers of each bank, and
the statuses a command can end with. -/

namespace Sys2Proof

/-- One operation of R85 with the fields of its command word. `inst` is `INST`, `reg` is `REG`, `flag` is `FLAG`
(R81, R84); the operand words `A0` to `A3` are no part of it, they travel beside the command (R80). -/
inductive Instr where
  | piRun (inst : Byte)
  | piReset (inst : Byte)
  | piRd (inst reg : Byte)
  | piWr (inst reg : Byte)
  | pidRun (inst : Byte)
  | pidReset (inst : Byte)
  | pidRd (inst reg : Byte)
  | pidWr (inst reg : Byte)
  | lpf1Run (inst : Byte)
  | lpf1Setic (inst : Byte)
  | lpf1Rd (inst reg : Byte)
  | lpf1Wr (inst reg : Byte)
  | lpf2Run (inst : Byte)
  | lpf2Setic (inst : Byte)
  | lpf2Rd (inst reg : Byte)
  | lpf2Wr (inst reg : Byte)
  | clarke
  | iclarke
  | park
  | ipark
  | ccRunsc (inst : Byte)
  | ccRuna (inst : Byte)
  | ccRd (inst reg : Byte)
  | ccWr (inst reg : Byte)
  | ccReset (inst : Byte)
  | svmSetvref (inst : Byte)
  | svmAllowovm (inst : Byte) (flag : Bool)
  | svmRun (inst : Byte)
  | svmGeta (inst : Byte)
  | svmGetb (inst : Byte)
  | svmGetc (inst : Byte)
deriving DecidableEq, Repr

/-- The status of a response (R233). -/
inductive Status where
  | ok
  | illegalOpcode
  | reservedField
  | badInstance
  | badRegister
  | readOnly
deriving DecidableEq, Repr

/-- The registers of a PI controller (R24). -/
inductive PiReg where
  | kP | kI | outMin | outMax | integ | spLast | pvLast | ffLast
deriving DecidableEq, Repr

/-- The registers of a PID controller (R28). -/
inductive PidReg where
  | kP | kI | kD | outMin | outMax | integ | spLast | pvLast | ffLast | dB0 | dB1 | dA1 | dX1 | dY1
deriving DecidableEq, Repr

/-- The registers of a first-order filter (R30). -/
inductive Lpf1Reg where
  | b0 | b1 | a1 | x1 | y1
deriving DecidableEq, Repr

/-- The registers of a second-order filter (R31). -/
inductive Lpf2Reg where
  | b0 | b1 | b2 | a1 | a2 | x1 | x2 | y1 | y2
deriving DecidableEq, Repr

/-- The registers of a current controller whose embedded controllers have the registers `ρ` (R33). -/
inductive CcReg (ρ : Type) where
  | d (r : ρ)
  | q (r : ρ)
  | idRef
  | iqRef
  | vAlpha
  | vBeta
deriving DecidableEq, Repr

end Sys2Proof
end

