-- ==== Sys2Proof/WellFormed.lean ====
section
/-! DEFINITION. WellFormed.lean: which instance and register fields a build of the block has (R86 steps 3 to 5, R89, R90),
written from the numbers of R90. Every term of `Instr` can be encoded; whether it names an instance and a register that
exist depends on the build. -/

namespace Sys2Proof

/-- R90: "PI `0x00`, `0x01`, `0x03`-`0x08`". -/
def piRegNums : List Nat := [0x00, 0x01, 0x03, 0x04, 0x05, 0x06, 0x07, 0x08]

/-- R90: "PID `0x00`-`0x0D`". -/
def pidRegNums : List Nat :=
  [0x00, 0x01, 0x02, 0x03, 0x04, 0x05, 0x06, 0x07, 0x08, 0x09, 0x0A, 0x0B, 0x0C, 0x0D]

/-- R90: "LPF1 `0x00`-`0x04`". -/
def lpf1RegNums : List Nat := [0x00, 0x01, 0x02, 0x03, 0x04]

/-- R90: "LPF2 `0x00`-`0x08`". -/
def lpf2RegNums : List Nat := [0x00, 0x01, 0x02, 0x03, 0x04, 0x05, 0x06, 0x07, 0x08]

/-- R90, the CC bank, which depends on `CC_KIND`. -/
def ccRegNums : CtrlKind → List Nat
  | .pi =>
    [0x00, 0x01, 0x03, 0x04, 0x05, 0x06, 0x07, 0x08, 0x20, 0x21, 0x23, 0x24, 0x25, 0x26, 0x27, 0x28,
      0x40, 0x41, 0x42, 0x43]
  | .pid =>
    [0x00, 0x01, 0x02, 0x03, 0x04, 0x05, 0x06, 0x07, 0x08, 0x09, 0x0A, 0x0B, 0x0C, 0x0D,
      0x20, 0x21, 0x22, 0x23, 0x24, 0x25, 0x26, 0x27, 0x28, 0x29, 0x2A, 0x2B, 0x2C, 0x2D,
      0x40, 0x41, 0x42, 0x43]

/-- R90: the read-only registers of a controller, `0x05`-`0x08`, `0x0C`, `0x0D`. -/
def ctrlReadOnlyNums : List Nat := [0x05, 0x06, 0x07, 0x08, 0x0C, 0x0D]

/-- R90: the read-only registers of the CC bank: a controller's at the offsets `0x00` and `0x20`, and `0x42`, `0x43`. -/
def ccReadOnlyNums : List Nat :=
  [0x05, 0x06, 0x07, 0x08, 0x0C, 0x0D, 0x25, 0x26, 0x27, 0x28, 0x2C, 0x2D, 0x42, 0x43]

/-- R89: `INST` is below the instance count of the operation's bank; a transform has no instance. -/
def Instr.instanceOk (b : Build) : Instr → Bool
  | .piRun i | .piReset i | .piRd i _ | .piWr i _ => i.toNat < b.nPi
  | .pidRun i | .pidReset i | .pidRd i _ | .pidWr i _ => i.toNat < b.nPid
  | .lpf1Run i | .lpf1Setic i | .lpf1Rd i _ | .lpf1Wr i _ => i.toNat < b.nLpf1
  | .lpf2Run i | .lpf2Setic i | .lpf2Rd i _ | .lpf2Wr i _ => i.toNat < b.nLpf2
  | .clarke | .iclarke | .park | .ipark => true
  | .ccRunsc i | .ccRuna i | .ccRd i _ | .ccWr i _ | .ccReset i => i.toNat < b.nCc
  | .svmSetvref i | .svmAllowovm i _ | .svmRun i | .svmGeta i | .svmGetb i | .svmGetc i => i.toNat < b.nSvm

/-- R90: in format R, `REG` is a number to which the bank's table gives a register. -/
def Instr.registerOk (b : Build) : Instr → Bool
  | .piRd _ r | .piWr _ r => piRegNums.contains r.toNat
  | .pidRd _ r | .pidWr _ r => pidRegNums.contains r.toNat
  | .lpf1Rd _ r | .lpf1Wr _ r => lpf1RegNums.contains r.toNat
  | .lpf2Rd _ r | .lpf2Wr _ r => lpf2RegNums.contains r.toNat
  | .ccRd _ r | .ccWr _ r => (ccRegNums b.ccKind).contains r.toNat
  | .piRun _ | .piReset _ | .pidRun _ | .pidReset _ | .lpf1Run _ | .lpf1Setic _ | .lpf2Run _ | .lpf2Setic _
  | .clarke | .iclarke | .park | .ipark | .ccRunsc _ | .ccRuna _ | .ccReset _
  | .svmSetvref _ | .svmAllowovm _ _ | .svmRun _ | .svmGeta _ | .svmGetb _ | .svmGetc _ => true

/-- R90: a `WR` does not name a read-only register. The filters have none (R154, R159). -/
def Instr.writableOk : Instr → Bool
  | .piWr _ r | .pidWr _ r => !ctrlReadOnlyNums.contains r.toNat
  | .ccWr _ r => !ccReadOnlyNums.contains r.toNat
  | .piRun _ | .piReset _ | .piRd _ _ | .pidRun _ | .pidReset _ | .pidRd _ _
  | .lpf1Run _ | .lpf1Setic _ | .lpf1Rd _ _ | .lpf1Wr _ _ | .lpf2Run _ | .lpf2Setic _ | .lpf2Rd _ _ | .lpf2Wr _ _
  | .clarke | .iclarke | .park | .ipark | .ccRunsc _ | .ccRuna _ | .ccRd _ _ | .ccReset _
  | .svmSetvref _ | .svmAllowovm _ _ | .svmRun _ | .svmGeta _ | .svmGetb _ | .svmGetc _ => true

/-- Steps 3 to 6 of R86 in their order: the status of a command that has passed steps 1 and 2. -/
def Instr.verdict (b : Build) (i : Instr) : Status :=
  if !i.instanceOk b then .badInstance
  else if !i.registerOk b then .badRegister
  else if !i.writableOk then .readOnly
  else .ok

/-- The operation is one the build performs: its instance exists, its register exists, and a `WR` names one that may be
written. -/
def Instr.wellFormed (b : Build) (i : Instr) : Bool :=
  i.instanceOk b && i.registerOk b && i.writableOk

end Sys2Proof
end

