-- ==== Sys2Proof/Decode.lean ====
section
/-! DEFINITION. Decode.lean: the command word and the operation it selects (R81 to R88), total on all 2^32 words and
rejecting by name, and after it the encoder. The checks of R89 and R90, which depend on the build and come after these,
are made by the operations themselves (Machine/Ops.lean, Machine/Operands.lean). -/

namespace Sys2Proof

/-- The status code `ST` of a response (R233). -/
def Status.code : Status → Nat
  | .ok => 0
  | .illegalOpcode => 1
  | .reservedField => 2
  | .badInstance => 3
  | .badRegister => 4
  | .readOnly => 5

/-- `OPC = CMD[7:0]` (R81). -/
def opcField (w : Word) : Byte := w.extractLsb' 0 8

/-- `INST = CMD[15:8]` (R81). -/
def instField (w : Word) : Byte := w.extractLsb' 8 8

/-- `REG = CMD[23:16]` (R81). -/
def regField (w : Word) : Byte := w.extractLsb' 16 8

/-- `FLAG = CMD[16]` (R84). -/
def flagField (w : Word) : Bool := w.getLsbD 16

/-- The four formats of R82. -/
inductive Format where
  | n
  | i
  | r
  | f
deriving DecidableEq, Repr

/-- The must-be-zero bits of a format (R82, R88). -/
def Format.mbz : Format → Word
  | .n => 0xFFFFFF00#32
  | .i => 0xFFFF0000#32
  | .r => 0xFF000000#32
  | .f => 0xFFFE0000#32

/-- Step 2 of R86: with a must-be-zero bit of the format set the command is rejected, otherwise it selects `i`. -/
def Format.select (m : Format) (w : Word) (i : Instr) : Except Status Instr :=
  if w &&& m.mbz = 0#32 then .ok i else .error .reservedField

/-- Steps 1 and 2 of R86: the operation of R85 a command word selects. -/
def decode (w : Word) : Except Status Instr :=
  match opcField w with
  | 0x10#8 => Format.i.select w (.piRun (instField w))
  | 0x11#8 => Format.i.select w (.piReset (instField w))
  | 0x12#8 => Format.r.select w (.piRd (instField w) (regField w))
  | 0x13#8 => Format.r.select w (.piWr (instField w) (regField w))
  | 0x20#8 => Format.i.select w (.pidRun (instField w))
  | 0x21#8 => Format.i.select w (.pidReset (instField w))
  | 0x22#8 => Format.r.select w (.pidRd (instField w) (regField w))
  | 0x23#8 => Format.r.select w (.pidWr (instField w) (regField w))
  | 0x30#8 => Format.i.select w (.lpf1Run (instField w))
  | 0x31#8 => Format.i.select w (.lpf1Setic (instField w))
  | 0x32#8 => Format.r.select w (.lpf1Rd (instField w) (regField w))
  | 0x33#8 => Format.r.select w (.lpf1Wr (instField w) (regField w))
  | 0x40#8 => Format.i.select w (.lpf2Run (instField w))
  | 0x41#8 => Format.i.select w (.lpf2Setic (instField w))
  | 0x42#8 => Format.r.select w (.lpf2Rd (instField w) (regField w))
  | 0x43#8 => Format.r.select w (.lpf2Wr (instField w) (regField w))
  | 0x50#8 => Format.n.select w .clarke
  | 0x51#8 => Format.n.select w .iclarke
  | 0x52#8 => Format.n.select w .park
  | 0x53#8 => Format.n.select w .ipark
  | 0x60#8 => Format.i.select w (.ccRunsc (instField w))
  | 0x61#8 => Format.i.select w (.ccRuna (instField w))
  | 0x62#8 => Format.r.select w (.ccRd (instField w) (regField w))
  | 0x63#8 => Format.r.select w (.ccWr (instField w) (regField w))
  | 0x64#8 => Format.i.select w (.ccReset (instField w))
  | 0x70#8 => Format.i.select w (.svmSetvref (instField w))
  | 0x71#8 => Format.f.select w (.svmAllowovm (instField w) (flagField w))
  | 0x72#8 => Format.i.select w (.svmRun (instField w))
  | 0x73#8 => Format.i.select w (.svmGeta (instField w))
  | 0x74#8 => Format.i.select w (.svmGetb (instField w))
  | 0x75#8 => Format.i.select w (.svmGetc (instField w))
  | _ => .error .illegalOpcode

/-- The command word of R81 from its fields, `MBZ` zero. -/
def command (reg inst opc : Byte) : Word := 0#8 ++ reg ++ inst ++ opc

/-- The command word of an operation (R81, R85). -/
def encode : Instr → Word
  | .piRun i => command 0 i 0x10
  | .piReset i => command 0 i 0x11
  | .piRd i r => command r i 0x12
  | .piWr i r => command r i 0x13
  | .pidRun i => command 0 i 0x20
  | .pidReset i => command 0 i 0x21
  | .pidRd i r => command r i 0x22
  | .pidWr i r => command r i 0x23
  | .lpf1Run i => command 0 i 0x30
  | .lpf1Setic i => command 0 i 0x31
  | .lpf1Rd i r => command r i 0x32
  | .lpf1Wr i r => command r i 0x33
  | .lpf2Run i => command 0 i 0x40
  | .lpf2Setic i => command 0 i 0x41
  | .lpf2Rd i r => command r i 0x42
  | .lpf2Wr i r => command r i 0x43
  | .clarke => command 0 0 0x50
  | .iclarke => command 0 0 0x51
  | .park => command 0 0 0x52
  | .ipark => command 0 0 0x53
  | .ccRunsc i => command 0 i 0x60
  | .ccRuna i => command 0 i 0x61
  | .ccRd i r => command r i 0x62
  | .ccWr i r => command r i 0x63
  | .ccReset i => command 0 i 0x64
  | .svmSetvref i => command 0 i 0x70
  | .svmAllowovm i f => command (if f then 1 else 0) i 0x71
  | .svmRun i => command 0 i 0x72
  | .svmGeta i => command 0 i 0x73
  | .svmGetb i => command 0 i 0x74
  | .svmGetc i => command 0 i 0x75

/-- The command word whose bits are the low `nbits` bits of `w`, the others zero. A command is one word (R92), and no byte
order is defined or needed (R63). -/
def tableWord (nbits w : Nat) : Word := BitVec.ofNat 32 (w % 2 ^ nbits)

/-- The operation the decoder reads from an opcode-table word. -/
def decodeTableWord (nbits w : Nat) : Option Instr :=
  match decode (tableWord nbits w) with
  | .ok i => some i
  | .error _ => none

end Sys2Proof
end

