-- ==== Sys2Proof/Machine/Ieee.lean ====
section
/-! DEFINITION. Machine/Ieee.lean: the arithmetic primitives of R12 on the values of a number format `F` (R8, R11), computed
exactly on natural numbers and rounded once, and the constants of R16. Every finite value of `F` is a whole multiple of the
smallest subnormal number, its unit here; with binary32 the unit is `2^-149`. -/

namespace Sys2Proof.Machine

variable {F : FloatFormat}

/-- The unit of `F` is `2^-unitExp`: the exponent of the smallest normal number is `2 - 2^(expBits - 1)`, and `fracBits`
bits stand below it. -/
def unitExp (F : FloatFormat) : Nat := 2 ^ (F.expBits - 1) + F.fracBits - 2

/-- The bits of `+inf`: exponent all ones, fraction zero. -/
def infBits (F : FloatFormat) : Nat := (2 ^ F.expBits - 1) * 2 ^ F.fracBits

/-- The sign bit, the most significant one (R11). -/
def signBit (a : Val F) : Bool := a.msb

/-- The exponent and fraction fields as one number. -/
def magBits (a : Val F) : Nat := a.toNat % 2 ^ F.magWidth

/-- A NaN has exponent all ones and a fraction that is not zero. -/
def isNaN (a : Val F) : Bool := infBits F < magBits a

def isInf (a : Val F) : Bool := magBits a == infBits F

def isZero (a : Val F) : Bool := magBits a == 0

def isFinite (a : Val F) : Bool := magBits a < infBits F

/-- The magnitude that the exponent and fraction fields `b` denote, in units: the fraction of a subnormal number, else the
significand with its leading one, shifted by the exponent less one. -/
def unitsOf (F : FloatFormat) (b : Nat) : Nat :=
  if b / 2 ^ F.fracBits = 0 then b % 2 ^ F.fracBits
  else (2 ^ F.fracBits + b % 2 ^ F.fracBits) * 2 ^ (b / 2 ^ F.fracBits - 1)

/-- The value in units. For an infinity it is the value of the exponent one above the largest, which puts it beyond every
finite value; it is used of an infinity in comparisons only. -/
def intOf (a : Val F) : Int := if signBit a then -(unitsOf F (magBits a) : Int) else unitsOf F (magBits a)

/-- The quotient `num / den` rounded to a whole number, to nearest, ties to even. -/
def roundDiv (num den : Nat) : Nat :=
  let q := num / den
  let r := num % den
  if den < 2 * r ∨ (2 * r = den ∧ q % 2 = 1) then q + 1 else q

/-- The exponent and fraction fields of the number of `F` nearest to `num / den` units, ties to even (R12): `fracBits + 1`
significant bits are kept, fewer below the normal range, and past the largest finite number it is infinity. -/
def roundMag (F : FloatFormat) (num den : Nat) : Nat :=
  let k := (num / den).log2 - F.fracBits
  min (k * 2 ^ F.fracBits + roundDiv num (den * 2 ^ k)) (infBits F)

/-- The value with a sign and the exponent and fraction fields `b`. -/
def pack (neg : Bool) (b : Nat) : Val F := BitVec.ofNat F.width (if neg then 2 ^ F.magWidth + b else b)

/-- `+0.0` (R16). -/
abbrev zeroF : Val F := 0#F.width

/-- A NaN: the one with the highest fraction bit alone. -/
def quietNaN : Val F := pack false (infBits F + 2 ^ (F.fracBits - 1))

/-- The NaN an arithmetic primitive produces: any NaN (R13). `ν` is the free value drawn for it; one that is no NaN counts for
the quiet NaN, so that every NaN is the answer for some draw. Log entry 2. -/
def someNaN (ν : Val F) : Val F := if isNaN ν then ν else quietNaN

/-- `fneg(a)` flips the sign bit (R14). -/
def fneg (a : Val F) : Val F := pack (!signBit a) (magBits a)

/-- `fadd(a, b)` (R12). An exact sum of zero is `+0.0`, but for two zeros with the sign bit set. -/
def fadd (ν a b : Val F) : Val F :=
  if isNaN a || isNaN b then someNaN ν
  else if isInf a then (if isInf b && (signBit a != signBit b) then someNaN ν else a)
  else if isInf b then b
  else
    let x := intOf a + intOf b
    if x = 0 then pack (signBit a && signBit b) 0
    else pack (decide (x < 0)) (roundMag F x.natAbs 1)

/-- `fsub(a, b)` (R12). -/
def fsub (ν a b : Val F) : Val F := fadd ν a (fneg b)

/-- `fmul(a, b)` (R12). -/
def fmul (ν a b : Val F) : Val F :=
  let neg := signBit a != signBit b
  if isNaN a || isNaN b then someNaN ν
  else if isInf a || isInf b then (if isZero a || isZero b then someNaN ν else pack neg (infBits F))
  else pack neg (roundMag F (unitsOf F (magBits a) * unitsOf F (magBits b)) (2 ^ unitExp F))

/-- `fdiv(a, b)` (R12). -/
def fdiv (ν a b : Val F) : Val F :=
  let neg := signBit a != signBit b
  if isNaN a || isNaN b then someNaN ν
  else if isInf a then (if isInf b then someNaN ν else pack neg (infBits F))
  else if isInf b then pack neg 0
  else if isZero b then (if isZero a then someNaN ν else pack neg (infBits F))
  else pack neg (roundMag F (unitsOf F (magBits a) * 2 ^ unitExp F) (unitsOf F (magBits b)))

/-- The whole square root of `n`, one bit a round from bit `k - 1` down; `r` is what the higher bits gave. -/
def isqrtBits (n : Nat) : Nat → Nat → Nat
  | 0, r => r
  | k + 1, r => isqrtBits n k (if (r + 2 ^ k) * (r + 2 ^ k) ≤ n then r + 2 ^ k else r)

/-- The whole square root of a number. -/
def isqrt (n : Nat) : Nat := isqrtBits n (n.log2 / 2 + 1) 0

/-- The exponent and fraction fields of the number of `F` nearest to `sqrt n` units: the whole root of `4 * n`, which is that of
`n` to half a unit, and one bit that says whether anything is left decide the rounding. -/
def rootMag (F : FloatFormat) (n : Nat) : Nat :=
  let r := isqrt (4 * n)
  roundMag F (2 * r + (if r * r = 4 * n then 0 else 1)) 4

/-- The correctly rounded IEEE 754 square root, the default of `SQRT` (R8). The root of `m` units is `sqrt (m * 2^unitExp)`
units. -/
def fsqrt (ν a : Val F) : Val F :=
  if isNaN a then someNaN ν
  else if isZero a then a
  else if signBit a then someNaN ν
  else if isInf a then a
  else pack false (rootMag F (unitsOf F (magBits a) * 2 ^ unitExp F))

/-- The square root of the block's backend (R8, U7). -/
def fsqrtOf (backend : SqrtBackend) (ν a : Val F) : Val F :=
  match backend with
  | .ieee => fsqrt ν a
  | .other k => Config.sqrtOther F k a

/-- The value of `F` nearest to `num / den` (R16). -/
def nearestTo (num den : Nat) : Val F := pack false (roundMag F (num * 2 ^ unitExp F) den)

/-- `C_2_3` (R16). -/
def c23 : Val F := nearestTo 2 3
/-- `C_1_3` (R16). -/
def c13 : Val F := nearestTo 1 3
/-- `C_SQRT3` (R16): `sqrt 3` is `sqrt (3 * 4^unitExp)` units. -/
def cSqrt3 : Val F := pack false (rootMag F (3 * 4 ^ unitExp F))
/-- `C_SQRT3_2` (R16): half of `sqrt 3`, in units. -/
def cSqrt32 : Val F := pack false (rootMag F (3 * 4 ^ (unitExp F - 1)))
/-- `C_HALF` (R16). -/
def halfF : Val F := nearestTo 1 2
/-- `C_NEG_HALF` (R16). -/
def cNegHalf : Val F := fneg halfF
/-- `C_TWO` (R16). -/
def cTwo : Val F := nearestTo 2 1
/-- `C_ONE` (R16). -/
def cOne : Val F := nearestTo 1 1

end Sys2Proof.Machine
end

