-- ==== Sys2Proof/Machine/State.lean ====
section
/-! DEFINITION. Machine/State.lean: the state of ZSL-CORE as plain data (R20, R24 to R44), the transaction port (R80), and the
state after reset (R250 to R252). -/

namespace Sys2Proof.Machine

variable {F : FloatFormat}

/-- The registers of a PI controller (R24). -/
structure PiRegs (F : FloatFormat) where
  kP     : Val F
  kI     : Val F
  outMin : Val F
  outMax : Val F
  integ  : Val F
  spLast : Val F
  pvLast : Val F
  ffLast : Val F
deriving DecidableEq, Repr

/-- The registers of a PID controller (R28): a PI's, the gain `kD`, and the embedded first-order filter. -/
structure PidRegs (F : FloatFormat) where
  kP     : Val F
  kI     : Val F
  kD     : Val F
  outMin : Val F
  outMax : Val F
  integ  : Val F
  spLast : Val F
  pvLast : Val F
  ffLast : Val F
  dB0    : Val F
  dB1    : Val F
  dA1    : Val F
  dX1    : Val F
  dY1    : Val F
deriving DecidableEq, Repr

/-- The registers of a first-order filter (R30); `a_0` is "implicitly 1" and has none. -/
structure Lpf1Regs (F : FloatFormat) where
  b0 : Val F
  b1 : Val F
  a1 : Val F
  x1 : Val F
  y1 : Val F
deriving DecidableEq, Repr

/-- The registers of a second-order filter (R31). -/
structure Lpf2Regs (F : FloatFormat) where
  b0 : Val F
  b1 : Val F
  b2 : Val F
  a1 : Val F
  a2 : Val F
  x1 : Val F
  x2 : Val F
  y1 : Val F
  y2 : Val F
deriving DecidableEq, Repr

/-- The registers of a current controller whose two embedded controllers have the registers `κ` (R33). -/
structure CcRegs (F : FloatFormat) (κ : Type) where
  d      : κ
  q      : κ
  idRef  : Val F
  iqRef  : Val F
  vAlpha : Val F
  vBeta  : Val F
deriving DecidableEq, Repr

/-- The bank of current controllers. Every embedded controller of a build is of the one kind `CC_KIND` (R190), which is the
constructor here. -/
inductive CcBank (F : FloatFormat) where
  | pi (l : List (CcRegs F (PiRegs F)))
  | pid (l : List (CcRegs F (PidRegs F)))
deriving DecidableEq, Repr

/-- A modulator (R40), with its algorithm `SVM_VARIANT[i]`, which is fixed when the block is built and is no register
(R43). -/
structure SvmRegs (F : FloatFormat) where
  variant : SvmVariant
  va      : Val F
  vb      : Val F
  ovm     : Bool
  dA      : Val F
  dB      : Val F
  dC      : Val F
deriving DecidableEq, Repr

/-- The six register banks, which are exactly the state of ZSL-CORE (R20). An instance count `N_*` is the length of its
bank. -/
structure Banks (F : FloatFormat) where
  pi   : List (PiRegs F)
  pid  : List (PidRegs F)
  lpf1 : List (Lpf1Regs F)
  lpf2 : List (Lpf2Regs F)
  cc   : CcBank F
  svm  : List (SvmRegs F)
deriving DecidableEq, Repr

/-- The four operand words of a request (R80). -/
structure Args (F : FloatFormat) where
  a0 : Val F
  a1 : Val F
  a2 : Val F
  a3 : Val F
deriving DecidableEq, Repr

/-- A request of the host (R80): the command word and the operand words. -/
structure Request (F : FloatFormat) where
  cmd  : Word
  args : Args F
deriving DecidableEq, Repr

/-- What the outside can do to the block: present a command, or reset it (R2, R250). -/
inductive Input (F : FloatFormat) where
  | command (r : Request F)
  | reset
deriving DecidableEq, Repr

/-- A response of the block (R80): the status, and exactly the result words the operation's rule names. -/
structure Response (F : FloatFormat) where
  status  : Status
  results : List (Val F)
deriving DecidableEq, Repr

/-- The machine of one number format. `banks` is the state the spec gives the block. `params` is fixed when the block is built
and no step changes it (R9). The rest is the transaction port and the model's own: `inbox` is what the host has presented and
the block has not taken yet, oldest first; `args` the operand words of the command taken last; `resp` the response to it;
`draws` counts the draws of free values. -/
structure Block (F : FloatFormat) where
  banks  : Banks F
  params : Params
  draws  : Nat
  inbox  : List (Input F)
  args   : Args F
  resp   : Option (Response F)
deriving DecidableEq, Repr

/-- The machine: its number format `FMT`, which is fixed when the block is built (R8), and the machine of that format. -/
structure State where
  fmt   : FloatFormat
  block : Block fmt
deriving DecidableEq, Repr

/-- The reasons the machine can stop with a fault. There are none: "No operation ..., once decoded, can fail, fault, trap, hang or
refuse" (R230), and a command that does not decode is answered with a status (R232). -/
inductive Fault : Type
deriving DecidableEq, Repr

/-- The reasons the model can decline to run an operation. -/
inductive Refusal where
  /-- Raised by `exec` for an operation that has no meaning yet. No arm raises it in this model. Safe: nothing can be
  proved of a state that is not reached. -/
  | notModelled (mnemonic : String)
deriving DecidableEq, Repr

/-- The answer of a step or of an operation. -/
abbrev Outcome := Host.Outcome State Fault Refusal

/-- A PI controller after reset (R251): every register `+0.0` but the limits. -/
def PiRegs.fresh (lo hi : Val F) : PiRegs F :=
  { kP := zeroF, kI := zeroF, outMin := lo, outMax := hi, integ := zeroF,
    spLast := zeroF, pvLast := zeroF, ffLast := zeroF }

/-- A PID controller after reset (R251): every register `+0.0` but the limits and the filter coefficients. -/
def PidRegs.fresh (lo hi b0 b1 a1 : Val F) : PidRegs F :=
  { kP := zeroF, kI := zeroF, kD := zeroF, outMin := lo, outMax := hi, integ := zeroF,
    spLast := zeroF, pvLast := zeroF, ffLast := zeroF,
    dB0 := b0, dB1 := b1, dA1 := a1, dX1 := zeroF, dY1 := zeroF }

/-- Instance `i` of the PI bank after the reset of draw `n` (R251, R252). -/
def PiRegs.reset (n i : Nat) : PiRegs F :=
  .fresh (Config.rst F .piOutMin n i) (Config.rst F .piOutMax n i)

/-- Instance `i` of the PID bank after the reset of draw `n`. -/
def PidRegs.reset (n i : Nat) : PidRegs F :=
  .fresh (Config.rst F .pidOutMin n i) (Config.rst F .pidOutMax n i)
    (Config.rst F .pidDB0 n i) (Config.rst F .pidDB1 n i) (Config.rst F .pidDA1 n i)

/-- Instance `i` of the LPF1 bank after the reset of draw `n`. -/
def Lpf1Regs.reset (n i : Nat) : Lpf1Regs F :=
  { b0 := Config.rst F .lpf1B0 n i, b1 := Config.rst F .lpf1B1 n i, a1 := Config.rst F .lpf1A1 n i,
    x1 := zeroF, y1 := zeroF }

/-- Instance `i` of the LPF2 bank after the reset of draw `n`. -/
def Lpf2Regs.reset (n i : Nat) : Lpf2Regs F :=
  { b0 := Config.rst F .lpf2B0 n i, b1 := Config.rst F .lpf2B1 n i, b2 := Config.rst F .lpf2B2 n i,
    a1 := Config.rst F .lpf2A1 n i, a2 := Config.rst F .lpf2A2 n i,
    x1 := zeroF, x2 := zeroF, y1 := zeroF, y2 := zeroF }

/-- A current controller after reset, given its embedded controllers (R251). -/
def CcRegs.fresh {κ : Type} (d q : κ) : CcRegs F κ :=
  { d := d, q := q, idRef := zeroF, iqRef := zeroF, vAlpha := zeroF, vBeta := zeroF }

/-- Instance `j` of the CC bank of kind `PI` after the reset of draw `n`. -/
def CcRegs.resetPi (n j : Nat) : CcRegs F (PiRegs F) :=
  .fresh (.fresh (Config.rst F .ccDOutMin n j) (Config.rst F .ccDOutMax n j))
    (.fresh (Config.rst F .ccQOutMin n j) (Config.rst F .ccQOutMax n j))

/-- Instance `j` of the CC bank of kind `PID` after the reset of draw `n`. -/
def CcRegs.resetPid (n j : Nat) : CcRegs F (PidRegs F) :=
  .fresh
    (.fresh (Config.rst F .ccDOutMin n j) (Config.rst F .ccDOutMax n j)
      (Config.rst F .ccDDB0 n j) (Config.rst F .ccDDB1 n j) (Config.rst F .ccDDA1 n j))
    (.fresh (Config.rst F .ccQOutMin n j) (Config.rst F .ccQOutMax n j)
      (Config.rst F .ccQDB0 n j) (Config.rst F .ccQDB1 n j) (Config.rst F .ccQDA1 n j))

/-- The CC bank of `k` instances after the reset of draw `n`. -/
def CcBank.reset (n : Nat) (kind : CtrlKind) (k : Nat) : CcBank F :=
  match kind with
  | .pi => .pi ((List.range k).map (CcRegs.resetPi n))
  | .pid => .pid ((List.range k).map (CcRegs.resetPid n))

/-- A modulator after reset (R251): the null vector, overmodulation disallowed, all duties `0.5`. -/
def SvmRegs.reset (v : SvmVariant) : SvmRegs F :=
  { variant := v, va := zeroF, vb := zeroF, ovm := false, dA := halfF, dB := halfF, dC := halfF }

/-- The six banks of the build `b` after the reset of draw `n` (R250, R251). -/
def Banks.reset (F : FloatFormat) (n : Nat) (b : Build) : Banks F :=
  { pi := (List.range b.nPi).map (PiRegs.reset n)
    pid := (List.range b.nPid).map (PidRegs.reset n)
    lpf1 := (List.range b.nLpf1).map (Lpf1Regs.reset n)
    lpf2 := (List.range b.nLpf2).map (Lpf2Regs.reset n)
    cc := CcBank.reset n b.ccKind b.nCc
    svm := b.svmVariants.map SvmRegs.reset }

/-- The machine of the build `b` right after power-on reset: every register as R251 says, nothing presented by the host,
no response given. The reset is draw 0 of the free values. -/
def State.resetOf (b : Build) : State :=
  { fmt := b.fmt
    block :=
      { banks := Banks.reset b.fmt 0 b
        params := b.params
        draws := 1
        inbox := []
        args := { a0 := zeroF, a1 := zeroF, a2 := zeroF, a3 := zeroF }
        resp := none } }

/-- The machine right after reset, of the build with R8's defaults. -/
def State.reset : State := State.resetOf Build.default

/-- The number of current controllers, `N_CC`. -/
def CcBank.count : CcBank F → Nat
  | .pi l => l.length
  | .pid l => l.length

/-- The kind of the embedded controllers, `CC_KIND`. -/
def CcBank.kind : CcBank F → CtrlKind
  | .pi _ => .pi
  | .pid _ => .pid

/-- Everything about a machine that was fixed when it was built (R8, R9). -/
def Block.build (s : Block F) : Build :=
  { fmt := F
    nPi := s.banks.pi.length
    nPid := s.banks.pid.length
    nLpf1 := s.banks.lpf1.length
    nLpf2 := s.banks.lpf2.length
    nCc := s.banks.cc.count
    ccKind := s.banks.cc.kind
    svmVariants := s.banks.svm.map SvmRegs.variant
    params := s.params }

/-- The same of a machine with its format. -/
def State.build (s : State) : Build := s.block.build

end Sys2Proof.Machine
end

