-- ==== Sys2Proof/Machine/Flags.lean ====
section
/-! DEFINITION. Machine/Flags.lean: the comparisons of R14, the clamp of R15, and the block's one flag (R44). No arithmetic
event is recorded anywhere. -/

namespace Sys2Proof.Machine

variable {F : FloatFormat}

/-- `flt(a, b)`: IEEE `a < b`, false when either is a NaN (R14). -/
def flt (a b : Val F) : Bool := !isNaN a && !isNaN b && decide (intOf a < intOf b)

/-- `fgt(a, b)`: IEEE `a > b` (R14). -/
def fgt (a b : Val F) : Bool := !isNaN a && !isNaN b && decide (intOf b < intOf a)

/-- `feq(a, b)`: IEEE `a = b`; the two zeros are equal (R14). -/
def feq (a b : Val F) : Bool := !isNaN a && !isNaN b && decide (intOf a = intOf b)

/-- `clamp(v, lo, hi)` (R15): one of its arguments unchanged, the lower bound tested first. Log entry 3. -/
def clamp (v lo hi : Val F) : Val F :=
  if flt v lo then lo else if fgt v hi then hi else v

/-- `ovm <- FLAG` (R212), the only write of the block's only flag. -/
def SvmRegs.setOvm (m : SvmRegs F) (flag : Bool) : SvmRegs F := { m with ovm := flag }

end Sys2Proof.Machine
end

