-- ==== Sys2Proof/Machine/Operands.lean ====
section
/-! DEFINITION. Machine/Operands.lean: the register operand of format R: the number of a register in its bank (R24, R28, R30,
R31, R33, R90), and `RegRead` and `RegWrite` on one instance (R62). A write to a read-only register has no result: the
operations answer it with `READ_ONLY`. -/

namespace Sys2Proof.Machine

variable {F : FloatFormat}

/-- The register of a PI controller with number `r` (R24). -/
def piRegOf (r : Byte) : Option PiReg :=
  match r with
  | 0x00#8 => some .kP
  | 0x01#8 => some .kI
  | 0x03#8 => some .outMin
  | 0x04#8 => some .outMax
  | 0x05#8 => some .integ
  | 0x06#8 => some .spLast
  | 0x07#8 => some .pvLast
  | 0x08#8 => some .ffLast
  | _ => none

/-- The register of a PID controller with number `r` (R28). -/
def pidRegOf (r : Byte) : Option PidReg :=
  match r with
  | 0x00#8 => some .kP
  | 0x01#8 => some .kI
  | 0x02#8 => some .kD
  | 0x03#8 => some .outMin
  | 0x04#8 => some .outMax
  | 0x05#8 => some .integ
  | 0x06#8 => some .spLast
  | 0x07#8 => some .pvLast
  | 0x08#8 => some .ffLast
  | 0x09#8 => some .dB0
  | 0x0A#8 => some .dB1
  | 0x0B#8 => some .dA1
  | 0x0C#8 => some .dX1
  | 0x0D#8 => some .dY1
  | _ => none

/-- The register of a first-order filter with number `r` (R30). -/
def lpf1RegOf (r : Byte) : Option Lpf1Reg :=
  match r with
  | 0x00#8 => some .b0
  | 0x01#8 => some .b1
  | 0x02#8 => some .a1
  | 0x03#8 => some .x1
  | 0x04#8 => some .y1
  | _ => none

/-- The register of a second-order filter with number `r` (R31). -/
def lpf2RegOf (r : Byte) : Option Lpf2Reg :=
  match r with
  | 0x00#8 => some .b0
  | 0x01#8 => some .b1
  | 0x02#8 => some .b2
  | 0x03#8 => some .a1
  | 0x04#8 => some .a2
  | 0x05#8 => some .x1
  | 0x06#8 => some .x2
  | 0x07#8 => some .y1
  | 0x08#8 => some .y2
  | _ => none

/-- The register of a current controller with number `r` (R33), given the numbers of its embedded controllers: the d
controller at `0x00`, the q controller at `0x20`, the references and outputs at `0x40` to `0x43`. -/
def ccRegOf {ρ : Type} (ctrlRegOf : Byte → Option ρ) (r : Byte) : Option (CcReg ρ) :=
  if r.toNat < 0x20 then (ctrlRegOf r).map .d
  else if r.toNat < 0x40 then (ctrlRegOf (r - 0x20#8)).map .q
  else match r with
    | 0x40#8 => some .idRef
    | 0x41#8 => some .iqRef
    | 0x42#8 => some .vAlpha
    | 0x43#8 => some .vBeta
    | _ => none

/-- `RegRead` on a PI controller. -/
def PiRegs.read (c : PiRegs F) : PiReg → Val F
  | .kP => c.kP
  | .kI => c.kI
  | .outMin => c.outMin
  | .outMax => c.outMax
  | .integ => c.integ
  | .spLast => c.spLast
  | .pvLast => c.pvLast
  | .ffLast => c.ffLast

/-- `RegWrite` on a PI controller: gains and limits are `RW`, the rest `RO` (R24, R26). -/
def PiRegs.write (c : PiRegs F) (r : PiReg) (v : Val F) : Option (PiRegs F) :=
  match r with
  | .kP => some { c with kP := v }
  | .kI => some { c with kI := v }
  | .outMin => some { c with outMin := v }
  | .outMax => some { c with outMax := v }
  | .integ | .spLast | .pvLast | .ffLast => none

/-- `RegRead` on a PID controller. -/
def PidRegs.read (c : PidRegs F) : PidReg → Val F
  | .kP => c.kP
  | .kI => c.kI
  | .kD => c.kD
  | .outMin => c.outMin
  | .outMax => c.outMax
  | .integ => c.integ
  | .spLast => c.spLast
  | .pvLast => c.pvLast
  | .ffLast => c.ffLast
  | .dB0 => c.dB0
  | .dB1 => c.dB1
  | .dA1 => c.dA1
  | .dX1 => c.dX1
  | .dY1 => c.dY1

/-- `RegWrite` on a PID controller: gains, limits and filter coefficients are `RW`, the rest `RO` (R28, R29). -/
def PidRegs.write (c : PidRegs F) (r : PidReg) (v : Val F) : Option (PidRegs F) :=
  match r with
  | .kP => some { c with kP := v }
  | .kI => some { c with kI := v }
  | .kD => some { c with kD := v }
  | .outMin => some { c with outMin := v }
  | .outMax => some { c with outMax := v }
  | .dB0 => some { c with dB0 := v }
  | .dB1 => some { c with dB1 := v }
  | .dA1 => some { c with dA1 := v }
  | .integ | .spLast | .pvLast | .ffLast | .dX1 | .dY1 => none

/-- `RegRead` on a first-order filter. -/
def Lpf1Regs.read (f : Lpf1Regs F) : Lpf1Reg → Val F
  | .b0 => f.b0
  | .b1 => f.b1
  | .a1 => f.a1
  | .x1 => f.x1
  | .y1 => f.y1

/-- `RegWrite` on a first-order filter: every register is `RW` (R30). -/
def Lpf1Regs.write (f : Lpf1Regs F) (r : Lpf1Reg) (v : Val F) : Option (Lpf1Regs F) :=
  match r with
  | .b0 => some { f with b0 := v }
  | .b1 => some { f with b1 := v }
  | .a1 => some { f with a1 := v }
  | .x1 => some { f with x1 := v }
  | .y1 => some { f with y1 := v }

/-- `RegRead` on a second-order filter. -/
def Lpf2Regs.read (f : Lpf2Regs F) : Lpf2Reg → Val F
  | .b0 => f.b0
  | .b1 => f.b1
  | .b2 => f.b2
  | .a1 => f.a1
  | .a2 => f.a2
  | .x1 => f.x1
  | .x2 => f.x2
  | .y1 => f.y1
  | .y2 => f.y2

/-- `RegWrite` on a second-order filter: every register is `RW` (R31). -/
def Lpf2Regs.write (f : Lpf2Regs F) (r : Lpf2Reg) (v : Val F) : Option (Lpf2Regs F) :=
  match r with
  | .b0 => some { f with b0 := v }
  | .b1 => some { f with b1 := v }
  | .b2 => some { f with b2 := v }
  | .a1 => some { f with a1 := v }
  | .a2 => some { f with a2 := v }
  | .x1 => some { f with x1 := v }
  | .x2 => some { f with x2 := v }
  | .y1 => some { f with y1 := v }
  | .y2 => some { f with y2 := v }

/-- `RegRead` on a current controller, given that of its embedded controllers (R33). -/
def CcRegs.read {κ ρ : Type} (ctrlRead : κ → ρ → Val F) (cc : CcRegs F κ) : CcReg ρ → Val F
  | .d r => ctrlRead cc.d r
  | .q r => ctrlRead cc.q r
  | .idRef => cc.idRef
  | .iqRef => cc.iqRef
  | .vAlpha => cc.vAlpha
  | .vBeta => cc.vBeta

/-- `RegWrite` on a current controller, given that of its embedded controllers: the references are `RW`, the last output
pair is `RO` (R33). -/
def CcRegs.write {κ ρ : Type} (ctrlWrite : κ → ρ → Val F → Option κ) (cc : CcRegs F κ) (r : CcReg ρ) (v : Val F) :
    Option (CcRegs F κ) :=
  match r with
  | .d r => (ctrlWrite cc.d r v).map fun c => { cc with d := c }
  | .q r => (ctrlWrite cc.q r v).map fun c => { cc with q := c }
  | .idRef => some { cc with idRef := v }
  | .iqRef => some { cc with iqRef := v }
  | .vAlpha | .vBeta => none

end Sys2Proof.Machine
end

