-- ==== Sys2Proof/Machine/Ops.lean ====
section
/-! DEFINITION. Machine/Ops.lean: the shared operations over the state: the response (R80, R232), the choice of an instance
(R89), the write of one instance, reading and writing a numbered register (R62, R90), the draws of free values, taking a request,
and the reset event (R250). The block has no exception and no return from one (R230, R236, R237). -/

namespace Sys2Proof.Machine

variable {F : FloatFormat}

/-- The operation is done: status `OK` and the result words its rule names (R80). -/
def Block.reply (s : Block F) (rs : List (Val F)) : Outcome :=
  .next ⟨F, { s with resp := some { status := .ok, results := rs } }⟩

/-- `reject <Status>` (R17, R232): the status, no result word, and no state of the block changes. -/
def Block.reject (s : Block F) (st : Status) : Outcome :=
  .next ⟨F, { s with resp := some { status := st, results := [] } }⟩

/-- R89: the operation continues with instance `i` of the bank, or is rejected with `BAD_INSTANCE`. -/
def withInst {α : Type} (bank : List α) (i : Byte) (s : Block F) (k : α → Outcome) : Outcome :=
  match bank[i.toNat]? with
  | some c => k c
  | none => s.reject .badInstance

/-- R90: an `RD` answers the word of the register `r` names, or is rejected with `BAD_REGISTER`. -/
def readReg {ρ : Type} (regOf : Byte → Option ρ) (r : Byte) (read : ρ → Val F) (s : Block F) : Outcome :=
  match regOf r with
  | some reg => s.reply [read reg]
  | none => s.reject .badRegister

/-- R90: a `WR` stores `A0` in the register `r` names, or is rejected with `BAD_REGISTER` or `READ_ONLY`. -/
def writeReg {α ρ : Type} (regOf : Byte → Option ρ) (r : Byte) (write : ρ → Val F → Option α) (put : α → Block F)
    (s : Block F) : Outcome :=
  match regOf r with
  | some reg =>
    match write reg s.args.a0 with
    | some c => (put c).reply []
    | none => s.reject .readOnly
  | none => s.reject .badRegister

/-- Instance `i` of the PI bank becomes `c`. -/
def Block.setPi (s : Block F) (i : Byte) (c : PiRegs F) : Block F :=
  { s with banks := { s.banks with pi := s.banks.pi.set i.toNat c } }

/-- Instance `i` of the PID bank becomes `c`. -/
def Block.setPid (s : Block F) (i : Byte) (c : PidRegs F) : Block F :=
  { s with banks := { s.banks with pid := s.banks.pid.set i.toNat c } }

/-- Instance `i` of the LPF1 bank becomes `f`. -/
def Block.setLpf1 (s : Block F) (i : Byte) (f : Lpf1Regs F) : Block F :=
  { s with banks := { s.banks with lpf1 := s.banks.lpf1.set i.toNat f } }

/-- Instance `i` of the LPF2 bank becomes `f`. -/
def Block.setLpf2 (s : Block F) (i : Byte) (f : Lpf2Regs F) : Block F :=
  { s with banks := { s.banks with lpf2 := s.banks.lpf2.set i.toNat f } }

/-- The CC bank becomes `b`. -/
def Block.setCc (s : Block F) (b : CcBank F) : Block F :=
  { s with banks := { s.banks with cc := b } }

/-- Instance `i` of the SVM bank becomes `m`. -/
def Block.setSvm (s : Block F) (i : Byte) (m : SvmRegs F) : Block F :=
  { s with banks := { s.banks with svm := s.banks.svm.set i.toNat m } }

/-- The NaNs the primitives of this operation produce, should they produce one, by their place in the operation's rule
(R13). -/
def Block.nans (s : Block F) : Nat → Val F := Config.freeNaN F s.draws

/-- The NaNs of a part of an operation's rule whose first primitive stands at place `k`. -/
def nansFrom (ν : Nat → Val F) (k : Nat) : Nat → Val F := fun j => ν (k + j)

/-- The draw of free values this operation used is spent. -/
def Block.drawn (s : Block F) : Block F := { s with draws := s.draws + 1 }

/-- The block takes a request (R80): it leaves the inbox, whose remainder is `rest`, and its operand words stand at the
port. -/
def Block.take (s : Block F) (r : Request F) (rest : List (Input F)) : Block F :=
  { s with inbox := rest, args := r.args }

/-- The reset event (R250): every register of every instance takes its reset value at once; what was fixed when the block
was built stays. -/
def Block.resetEvent (s : Block F) (rest : List (Input F)) : Block F :=
  { s with banks := Banks.reset F s.draws s.build, draws := s.draws + 1, inbox := rest, resp := none }

/-- The inbox with the command word `w` as the very next thing the block takes. The operand words are those of the request it
takes the place of, or else `a`. -/
def withCommand (w : Word) (a : Args F) : List (Input F) → List (Input F)
  | .command r :: rest => .command { r with cmd := w } :: rest
  | .reset :: rest => .command { cmd := w, args := a } :: rest
  | [] => [.command { cmd := w, args := a }]

end Sys2Proof.Machine
end

