-- ==== Sys2Proof/Machine/Lpf.lean ====
section
/-! DEFINITION. Machine/Lpf.lean: the first-order and second-order IIR low-pass filters (42_lpf.md). -/

namespace Sys2Proof.Machine

variable {F : FloatFormat}

/-- The output of the first-order step of R150, in its order of operations. The PID's derivative filter is the same
step (R131). -/
def iir1 (ν : Nat → Val F) (b0 b1 a1 x1 y1 x : Val F) : Val F :=
  let sb := fadd (ν 2) (fmul (ν 0) b0 x) (fmul (ν 1) b1 x1)
  let sa := fmul (ν 3) a1 y1
  fsub (ν 4) sb sa

/-- `Lpf1Step` (R150). -/
def lpf1Step (ν : Nat → Val F) (f : Lpf1Regs F) (x : Val F) : Lpf1Regs F × Val F :=
  let y := iir1 ν f.b0 f.b1 f.a1 f.x1 f.y1 x
  ({ f with x1 := x, y1 := y }, y)

/-- `Lpf2Step` (R155), with the two-sample shift: `x2` takes the old `x1`, `y2` the old `y1`. -/
def lpf2Step (ν : Nat → Val F) (f : Lpf2Regs F) (x : Val F) : Lpf2Regs F × Val F :=
  let sb := fadd (ν 4) (fadd (ν 2) (fmul (ν 0) f.b0 x) (fmul (ν 1) f.b1 f.x1)) (fmul (ν 3) f.b2 f.x2)
  let sa := fadd (ν 7) (fmul (ν 5) f.a1 f.y1) (fmul (ν 6) f.a2 f.y2)
  let y := fsub (ν 8) sb sa
  ({ f with x2 := f.x1, x1 := x, y2 := f.y1, y1 := y }, y)

/-- `LPF1.RUN` (R151). -/
def execLpf1Run (i : Byte) : State → Outcome
  | ⟨_, s⟩ =>
    withInst s.banks.lpf1 i s fun f =>
      let r := lpf1Step s.nans f s.args.a0
      (s.setLpf1 i r.1).drawn.reply [r.2]

/-- `LPF1.SETIC` (R152). -/
def execLpf1Setic (i : Byte) : State → Outcome
  | ⟨_, s⟩ =>
    withInst s.banks.lpf1 i s fun f =>
      (s.setLpf1 i { f with x1 := s.args.a0, y1 := s.args.a1 }).reply []

/-- `LPF1.RD` (R153). -/
def execLpf1Rd (i r : Byte) : State → Outcome
  | ⟨_, s⟩ => withInst s.banks.lpf1 i s fun f => readReg lpf1RegOf r f.read s

/-- `LPF1.WR` (R154). -/
def execLpf1Wr (i r : Byte) : State → Outcome
  | ⟨_, s⟩ => withInst s.banks.lpf1 i s fun f => writeReg lpf1RegOf r f.write (s.setLpf1 i) s

/-- `LPF2.RUN` (R156). -/
def execLpf2Run (i : Byte) : State → Outcome
  | ⟨_, s⟩ =>
    withInst s.banks.lpf2 i s fun f =>
      let r := lpf2Step s.nans f s.args.a0
      (s.setLpf2 i r.1).drawn.reply [r.2]

/-- `LPF2.SETIC` (R157). -/
def execLpf2Setic (i : Byte) : State → Outcome
  | ⟨_, s⟩ =>
    withInst s.banks.lpf2 i s fun f =>
      (s.setLpf2 i { f with x1 := s.args.a0, x2 := s.args.a1, y1 := s.args.a2, y2 := s.args.a3 }).reply []

/-- `LPF2.RD` (R158). -/
def execLpf2Rd (i r : Byte) : State → Outcome
  | ⟨_, s⟩ => withInst s.banks.lpf2 i s fun f => readReg lpf2RegOf r f.read s

/-- `LPF2.WR` (R159). -/
def execLpf2Wr (i r : Byte) : State → Outcome
  | ⟨_, s⟩ => withInst s.banks.lpf2 i s fun f => writeReg lpf2RegOf r f.write (s.setLpf2 i) s

end Sys2Proof.Machine
end

