-- ==== Sys2Proof/Machine/Pi.lean ====
section
/-! DEFINITION. Machine/Pi.lean: the PI controller with anti-windup (40_pi.md). -/

namespace Sys2Proof.Machine

variable {F : FloatFormat}

/-- The integral stage of R110, which R131 shares: with `kI` zero the term is `+0.0` and the integrator keeps its value,
else `kI × e` is accumulated and the integrator clamped. Answers the integrator and the term. -/
def integralStage (ν : Nat → Val F) (kI integ lo hi e : Val F) : Val F × Val F :=
  if feq kI zeroF then (integ, zeroF)
  else
    let g := clamp (fadd (ν 1) integ (fmul (ν 0) kI e)) lo hi
    (g, g)

/-- `PiRun` (R110): the updated registers and the output. -/
def piRun (ν : Nat → Val F) (c : PiRegs F) (sp pv ff : Val F) : PiRegs F × Val F :=
  let e := fsub (ν 0) sp pv
  let p := fmul (ν 1) c.kP e
  let g := integralStage (nansFrom ν 2) c.kI c.integ c.outMin c.outMax e
  let u := fadd (ν 5) (fadd (ν 4) p g.2) ff
  ({ c with integ := g.1, spLast := sp, pvLast := pv, ffLast := ff }, clamp u c.outMin c.outMax)

/-- `PiReset` (R112). -/
def piReset (c : PiRegs F) : PiRegs F :=
  { c with integ := zeroF, spLast := zeroF, pvLast := zeroF, ffLast := zeroF }

/-- `PI.RUN` (R111). -/
def execPiRun (i : Byte) : State → Outcome
  | ⟨_, s⟩ =>
    withInst s.banks.pi i s fun c =>
      let r := piRun s.nans c s.args.a0 s.args.a1 s.args.a2
      (s.setPi i r.1).drawn.reply [r.2]

/-- `PI.RESET` (R113). -/
def execPiReset (i : Byte) : State → Outcome
  | ⟨_, s⟩ => withInst s.banks.pi i s fun c => (s.setPi i (piReset c)).reply []

/-- `PI.RD` (R114). -/
def execPiRd (i r : Byte) : State → Outcome
  | ⟨_, s⟩ => withInst s.banks.pi i s fun c => readReg piRegOf r c.read s

/-- `PI.WR` (R115). -/
def execPiWr (i r : Byte) : State → Outcome
  | ⟨_, s⟩ => withInst s.banks.pi i s fun c => writeReg piRegOf r c.write (s.setPi i) s

end Sys2Proof.Machine
end

