-- ==== Sys2Proof/Machine/Pid.lean ====
section
/-! DEFINITION. Machine/Pid.lean: the PID controller with the derivative filter (41_pid.md). -/

namespace Sys2Proof.Machine

variable {F : FloatFormat}

/-- `DGateClosed` (R130): which gain's zero test turns the derivative term off is the parameter `D_GATE`. -/
def dGateClosed (gate : DGate) (c : PidRegs F) : Bool :=
  match gate with
  | .kd => feq c.kD zeroF
  | .ki => feq c.kI zeroF

/-- The derivative stage of R131: with the gate closed the term is `+0.0` and the filter is not stepped, else `kD × e`
goes through the first-order step. Answers the filter's memory `dX1`, `dY1` and the term. -/
def derivStage (gate : DGate) (ν : Nat → Val F) (c : PidRegs F) (e : Val F) : Val F × Val F × Val F :=
  if dGateClosed gate c then (c.dX1, c.dY1, zeroF)
  else
    let x := fmul (ν 0) c.kD e
    let d := iir1 (nansFrom ν 1) c.dB0 c.dB1 c.dA1 c.dX1 c.dY1 x
    (x, d, d)

/-- `PidRun` (R131): the updated registers and the output. -/
def pidRun (gate : DGate) (ν : Nat → Val F) (c : PidRegs F) (sp pv ff : Val F) : PidRegs F × Val F :=
  let e := fsub (ν 0) sp pv
  let p := fmul (ν 1) c.kP e
  let g := integralStage (nansFrom ν 2) c.kI c.integ c.outMin c.outMax e
  let d := derivStage gate (nansFrom ν 4) c e
  let u := fadd (ν 12) (fadd (ν 11) (fadd (ν 10) p g.2) d.2.2) ff
  ({ c with integ := g.1, dX1 := d.1, dY1 := d.2.1, spLast := sp, pvLast := pv, ffLast := ff },
    clamp u c.outMin c.outMax)

/-- `PidReset` (R134): the filter memory is cleared with the rest, the coefficients stay. -/
def pidReset (c : PidRegs F) : PidRegs F :=
  { c with integ := zeroF, spLast := zeroF, pvLast := zeroF, ffLast := zeroF, dX1 := zeroF, dY1 := zeroF }

/-- `PID.RUN` (R133). -/
def execPidRun (i : Byte) : State → Outcome
  | ⟨_, s⟩ =>
    withInst s.banks.pid i s fun c =>
      let r := pidRun s.params.dGate s.nans c s.args.a0 s.args.a1 s.args.a2
      (s.setPid i r.1).drawn.reply [r.2]

/-- `PID.RESET` (R135). -/
def execPidReset (i : Byte) : State → Outcome
  | ⟨_, s⟩ => withInst s.banks.pid i s fun c => (s.setPid i (pidReset c)).reply []

/-- `PID.RD` (R136). -/
def execPidRd (i r : Byte) : State → Outcome
  | ⟨_, s⟩ => withInst s.banks.pid i s fun c => readReg pidRegOf r c.read s

/-- `PID.WR` (R137). -/
def execPidWr (i r : Byte) : State → Outcome
  | ⟨_, s⟩ => withInst s.banks.pid i s fun c => writeReg pidRegOf r c.write (s.setPid i) s

end Sys2Proof.Machine
end

