-- ==== Sys2Proof/Machine/Transforms.lean ====
section
/-! DEFINITION. Machine/Transforms.lean: the Clarke and Park transforms and their inverses (43_transforms.md). Pure functions
of the operand words: no register is read or written (R170). -/

namespace Sys2Proof.Machine

variable {F : FloatFormat}

/-- The Clarke transform (R171) in the two modes of `CLARKE_MODE`; in `TWO` mode `iC` is not read. -/
def clarkeOf (mode : ClarkeMode) (ν : Nat → Val F) (iA iB iC : Val F) : Val F × Val F :=
  match mode with
  | .three =>
    (fsub (ν 3) (fmul (ν 0) c23 iA) (fmul (ν 2) c13 (fadd (ν 1) iB iC)),
      fdiv (ν 5) (fsub (ν 4) iB iC) cSqrt3)
  | .two =>
    (iA, fadd (ν 3) (fdiv (ν 0) iA cSqrt3) (fdiv (ν 2) (fmul (ν 1) cTwo iB) cSqrt3))

/-- The inverse Clarke transform (R172). -/
def iclarkeOf (ν : Nat → Val F) (alpha beta : Val F) : Val F × Val F × Val F :=
  let h := fmul (ν 0) cNegHalf alpha
  let k := fmul (ν 1) cSqrt32 beta
  (alpha, fadd (ν 2) h k, fsub (ν 3) h k)

/-- The Park transform (R173), in the sign convention the spec takes from general knowledge. Log entry 11. -/
def parkOf (ν : Nat → Val F) (alpha beta s c : Val F) : Val F × Val F :=
  (fadd (ν 2) (fmul (ν 0) alpha c) (fmul (ν 1) beta s),
    fsub (ν 5) (fmul (ν 3) beta c) (fmul (ν 4) alpha s))

/-- `InvPark` (R174), in the same convention. -/
def invPark (ν : Nat → Val F) (d q s c : Val F) : Val F × Val F :=
  (fsub (ν 2) (fmul (ν 0) d c) (fmul (ν 1) q s),
    fadd (ν 5) (fmul (ν 3) d s) (fmul (ν 4) q c))

/-- `CLARKE` (R171). -/
def execClarke : State → Outcome
  | ⟨_, s⟩ =>
    let r := clarkeOf s.params.clarkeMode s.nans s.args.a0 s.args.a1 s.args.a2
    s.drawn.reply [r.1, r.2]

/-- `ICLARKE` (R172). -/
def execIclarke : State → Outcome
  | ⟨_, s⟩ =>
    let r := iclarkeOf s.nans s.args.a0 s.args.a1
    s.drawn.reply [r.1, r.2.1, r.2.2]

/-- `PARK` (R173). -/
def execPark : State → Outcome
  | ⟨_, s⟩ =>
    let r := parkOf s.nans s.args.a0 s.args.a1 s.args.a2 s.args.a3
    s.drawn.reply [r.1, r.2]

/-- `IPARK` (R174). -/
def execIpark : State → Outcome
  | ⟨_, s⟩ =>
    let r := invPark s.nans s.args.a0 s.args.a1 s.args.a2 s.args.a3
    s.drawn.reply [r.1, r.2]

end Sys2Proof.Machine
end

