-- ==== Sys2Proof/Machine/CurrentController.lean ====
section
/-! DEFINITION. Machine/CurrentController.lean: the two-axis current controller (44_current_controller.md). -/

namespace Sys2Proof.Machine

variable {F : FloatFormat}

/-- What the current controller uses of its embedded controllers (R190): their control law `CtrlRun`, their reset
`CtrlReset`, and their registers. -/
structure Ctrl (F : FloatFormat) (κ ρ : Type) where
  run   : (Nat → Val F) → κ → Val F → Val F → Val F → κ × Val F
  reset : κ → κ
  regOf : Byte → Option ρ
  read  : κ → ρ → Val F
  write : κ → ρ → Val F → Option κ

/-- The embedded controllers with `CC_KIND = PI` (R190). -/
def piCtrl : Ctrl F (PiRegs F) PiReg where
  run := piRun
  reset := piReset
  regOf := piRegOf
  read := PiRegs.read
  write := PiRegs.write

/-- The embedded controllers with `CC_KIND = PID` (R190), under the build's `D_GATE`. -/
def pidCtrl (gate : DGate) : Ctrl F (PidRegs F) PidReg where
  run := pidRun gate
  reset := pidReset
  regOf := pidRegOf
  read := PidRegs.read
  write := PidRegs.write

/-- `CcRun` (R191): each axis runs on its reference and its measurement with feedforward `+0.0`; the inverse Park
transform of the two outputs is stored and answered. -/
def ccRun {κ ρ : Type} (L : Ctrl F κ ρ) (ν : Nat → Val F) (cc : CcRegs F κ) (id iq s c : Val F) :
    CcRegs F κ × Val F × Val F :=
  let d := L.run ν cc.d cc.idRef id zeroF
  let q := L.run (nansFrom ν 16) cc.q cc.iqRef iq zeroF
  let v := invPark (nansFrom ν 32) d.2 q.2 s c
  ({ cc with d := d.1, q := q.1, vAlpha := v.1, vBeta := v.2 }, v.1, v.2)

/-- The reset of both embedded controllers (R196). -/
def ccReset {κ ρ : Type} (L : Ctrl F κ ρ) (cc : CcRegs F κ) : CcRegs F κ :=
  { cc with d := L.reset cc.d, q := L.reset cc.q }

/-- A tick of instance `j` of a bank of one kind with the sine and cosine `sc` (R191). -/
def ccTick {κ ρ : Type} (L : Ctrl F κ ρ) (wrap : List (CcRegs F κ) → CcBank F) (l : List (CcRegs F κ)) (j : Byte)
    (sc : Val F × Val F) (s : Block F) : Outcome :=
  withInst l j s fun cc =>
    let r := ccRun L s.nans cc s.args.a0 s.args.a1 sc.1 sc.2
    (s.setCc (wrap (l.set j.toNat r.1))).drawn.reply [r.2.1, r.2.2]

/-- A tick of instance `j`, whatever the kind. -/
def ccTickOf (j : Byte) (sc : Val F × Val F) (s : Block F) : Outcome :=
  match s.banks.cc with
  | .pi l => ccTick piCtrl .pi l j sc s
  | .pid l => ccTick (pidCtrl s.params.dGate) .pid l j sc s

/-- Reading a register of instance `j` of a bank of one kind (R194). -/
def ccRead {κ ρ : Type} (L : Ctrl F κ ρ) (l : List (CcRegs F κ)) (j r : Byte) (s : Block F) : Outcome :=
  withInst l j s fun cc => readReg (ccRegOf L.regOf) r (cc.read L.read) s

/-- Writing a register of instance `j` of a bank of one kind (R195). -/
def ccWrite {κ ρ : Type} (L : Ctrl F κ ρ) (wrap : List (CcRegs F κ) → CcBank F) (l : List (CcRegs F κ)) (j r : Byte)
    (s : Block F) : Outcome :=
  withInst l j s fun cc =>
    writeReg (ccRegOf L.regOf) r (cc.write L.write) (fun c => s.setCc (wrap (l.set j.toNat c))) s

/-- Resetting both controllers of instance `j` of a bank of one kind (R196). -/
def ccClear {κ ρ : Type} (L : Ctrl F κ ρ) (wrap : List (CcRegs F κ) → CcBank F) (l : List (CcRegs F κ)) (j : Byte)
    (s : Block F) : Outcome :=
  withInst l j s fun cc => (s.setCc (wrap (l.set j.toNat (ccReset L cc)))).reply []

/-- `CC.RUNSC` (R192): the sine and cosine are the operands `A2`, `A3`. -/
def execCcRunsc (j : Byte) : State → Outcome
  | ⟨_, s⟩ => ccTickOf j (s.args.a2, s.args.a3) s

/-- `CC.RUNA` (R193): the sine and cosine are the backend's for the angle `A2`. -/
def execCcRuna (j : Byte) : State → Outcome
  | ⟨_, s⟩ => ccTickOf j (Config.sincosDeg _ s.args.a2) s

/-- `CC.RD` (R194). -/
def execCcRd (j r : Byte) : State → Outcome
  | ⟨_, s⟩ =>
    match s.banks.cc with
    | .pi l => ccRead piCtrl l j r s
    | .pid l => ccRead (pidCtrl s.params.dGate) l j r s

/-- `CC.WR` (R195). -/
def execCcWr (j r : Byte) : State → Outcome
  | ⟨_, s⟩ =>
    match s.banks.cc with
    | .pi l => ccWrite piCtrl .pi l j r s
    | .pid l => ccWrite (pidCtrl s.params.dGate) .pid l j r s

/-- `CC.RESET` (R196). -/
def execCcReset (j : Byte) : State → Outcome
  | ⟨_, s⟩ =>
    match s.banks.cc with
    | .pi l => ccClear piCtrl .pi l j s
    | .pid l => ccClear (pidCtrl s.params.dGate) .pid l j s

end Sys2Proof.Machine
end

