-- ==== Sys2Proof/Machine/Svpwm.lean ====
section
/-! DEFINITION. Machine/Svpwm.lean: the space-vector PWM duty calculator (45_svpwm.md). The sector tests and duty formulas of
the four algorithms are in no source; they are free functions held to R218 (a), which the source requires of every one. -/

namespace Sys2Proof.Machine

variable {F : FloatFormat}

/-- `SvmLimit` (R213), step (1) of `run`: with overmodulation disallowed a vector longer than `√3/2` is scaled back to
it. -/
def svmLimit (backend : SqrtBackend) (ν : Nat → Val F) (ovm : Bool) (a b : Val F) : Val F × Val F :=
  if ovm then (a, b)
  else
    let m := fsqrtOf backend (ν 3) (fadd (ν 2) (fmul (ν 0) a a) (fmul (ν 1) b b))
    if fgt m cSqrt32 then
      let k := fdiv (ν 4) cSqrt32 m
      (fmul (ν 5) a k, fmul (ν 6) b k)
    else (a, b)

/-- The null vector: both components a zero of either sign (R218 (a)). -/
def isNullVector (a b : Val F) : Bool := isZero a && isZero b

/-- `SVM_SECTOR[v]` (R218): not `none` at the null vector. Log entry 8. -/
def svmSector (v : SvmVariant) (a b : Val F) : Option Sector :=
  if isNullVector a b then some (Config.svmNullSector v) else Config.svmSector F v a b

/-- `SVM_DUTY[v]` (R218): `(0.5, 0.5, 0.5)` at the null vector. Log entry 8. -/
def svmDuty (v : SvmVariant) (sec : Sector) (a b : Val F) : Val F × Val F × Val F :=
  if isNullVector a b then (halfF, halfF, halfF) else Config.svmDuty F v sec a b

/-- Steps (2) and (3) of `run` (R214) for a sector test and duty formulas: the unclamped duties, all `+0.0` where no sector is
recognised (R219). -/
def svmRawDuties (sector : Val F → Val F → Option Sector) (duty : Sector → Val F → Val F → Val F × Val F × Val F)
    (v : Val F × Val F) : Val F × Val F × Val F :=
  match sector v.1 v.2 with
  | none => (zeroF, zeroF, zeroF)
  | some sec => duty sec v.1 v.2

/-- Step (4) of `run` (R214): "clamp every duty fraction to `[0, 1]`". -/
def clampDuty (t : Val F) : Val F := clamp t zeroF cOne

/-- `SVM.RUN` on one modulator (R214). Its NaNs depend on the algorithm and the vector alone, so that two runs with the same
vector store the same duties. Log entry 2. -/
def svmRun (backend : SqrtBackend) (m : SvmRegs F) : SvmRegs F :=
  let ν := Config.svmNaN F m.variant m.va m.vb
  let t := svmRawDuties (svmSector m.variant) (svmDuty m.variant) (svmLimit backend ν m.ovm m.va m.vb)
  { m with dA := clampDuty t.1, dB := clampDuty t.2.1, dC := clampDuty t.2.2 }

/-- `SVM.SETVREF` (R211). -/
def execSvmSetvref (i : Byte) : State → Outcome
  | ⟨_, s⟩ => withInst s.banks.svm i s fun m => (s.setSvm i { m with va := s.args.a0, vb := s.args.a1 }).reply []

/-- `SVM.ALLOWOVM` (R212). -/
def execSvmAllowovm (i : Byte) (flag : Bool) : State → Outcome
  | ⟨_, s⟩ => withInst s.banks.svm i s fun m => (s.setSvm i (m.setOvm flag)).reply []

/-- `SVM.RUN` (R214). -/
def execSvmRun (i : Byte) : State → Outcome
  | ⟨_, s⟩ => withInst s.banks.svm i s fun m => (s.setSvm i (svmRun s.params.sqrt m)).reply []

/-- `SVM.GETA` (R215). -/
def execSvmGeta (i : Byte) : State → Outcome
  | ⟨_, s⟩ => withInst s.banks.svm i s fun m => s.reply [m.dA]

/-- `SVM.GETB` (R216). -/
def execSvmGetb (i : Byte) : State → Outcome
  | ⟨_, s⟩ => withInst s.banks.svm i s fun m => s.reply [m.dB]

/-- `SVM.GETC` (R217). -/
def execSvmGetc (i : Byte) : State → Outcome
  | ⟨_, s⟩ => withInst s.banks.svm i s fun m => s.reply [m.dC]

end Sys2Proof.Machine
end

