-- ==== Sys2Proof/Machine/Dispatch.lean ====
section
/-! DEFINITION. Machine/Dispatch.lean: one arm for each operation of R85. -/

namespace Sys2Proof.Machine

def exec (i : Instr) (s : State) : Host.Outcome State Fault Refusal :=
  match i with
  | .piRun i1 => Sys2Proof.Machine.execPiRun i1 s
  | .piReset i1 => Sys2Proof.Machine.execPiReset i1 s
  | .piRd i1 r1 => Sys2Proof.Machine.execPiRd i1 r1 s
  | .piWr i1 r1 => Sys2Proof.Machine.execPiWr i1 r1 s
  | .pidRun i1 => Sys2Proof.Machine.execPidRun i1 s
  | .pidReset i1 => Sys2Proof.Machine.execPidReset i1 s
  | .pidRd i1 r1 => Sys2Proof.Machine.execPidRd i1 r1 s
  | .pidWr i1 r1 => Sys2Proof.Machine.execPidWr i1 r1 s
  | .lpf1Run i1 => Sys2Proof.Machine.execLpf1Run i1 s
  | .lpf1Setic i1 => Sys2Proof.Machine.execLpf1Setic i1 s
  | .lpf1Rd i1 r1 => Sys2Proof.Machine.execLpf1Rd i1 r1 s
  | .lpf1Wr i1 r1 => Sys2Proof.Machine.execLpf1Wr i1 r1 s
  | .lpf2Run i1 => Sys2Proof.Machine.execLpf2Run i1 s
  | .lpf2Setic i1 => Sys2Proof.Machine.execLpf2Setic i1 s
  | .lpf2Rd i1 r1 => Sys2Proof.Machine.execLpf2Rd i1 r1 s
  | .lpf2Wr i1 r1 => Sys2Proof.Machine.execLpf2Wr i1 r1 s
  | .clarke => Sys2Proof.Machine.execClarke s
  | .iclarke => Sys2Proof.Machine.execIclarke s
  | .park => Sys2Proof.Machine.execPark s
  | .ipark => Sys2Proof.Machine.execIpark s
  | .ccRunsc i1 => Sys2Proof.Machine.execCcRunsc i1 s
  | .ccRuna i1 => Sys2Proof.Machine.execCcRuna i1 s
  | .ccRd i1 r1 => Sys2Proof.Machine.execCcRd i1 r1 s
  | .ccWr i1 r1 => Sys2Proof.Machine.execCcWr i1 r1 s
  | .ccReset i1 => Sys2Proof.Machine.execCcReset i1 s
  | .svmSetvref i1 => Sys2Proof.Machine.execSvmSetvref i1 s
  | .svmAllowovm i1 f1 => Sys2Proof.Machine.execSvmAllowovm i1 f1 s
  | .svmRun i1 => Sys2Proof.Machine.execSvmRun i1 s
  | .svmGeta i1 => Sys2Proof.Machine.execSvmGeta i1 s
  | .svmGetb i1 => Sys2Proof.Machine.execSvmGetb i1 s
  | .svmGetc i1 => Sys2Proof.Machine.execSvmGetc i1 s

end Sys2Proof.Machine
end

