-- ==== Sys2Proof/Machine/Step.lean ====
section
/-! DEFINITION. Machine/Step.lean: one step of the machine. ZSL-CORE has no program counter and fetches nothing (R22): a step
takes the oldest thing the host has presented. -/

namespace Sys2Proof.Machine

/-- One step. With nothing presented the block is idle and all state is retained (R239). A command is decoded; it is
answered with a status where the decoder rejects it (R232), else its operation is performed from start to finish (R7). -/
def step (s : State) : Host.Outcome State Fault Refusal :=
  match s with
  | ⟨F, b⟩ =>
    match b.inbox with
    | [] => .next ⟨F, b⟩
    | .reset :: rest => .next ⟨F, b.resetEvent rest⟩
    | .command r :: rest =>
      match decode r.cmd with
      | .error st => (b.take r rest).reject st
      | .ok i => exec i ⟨F, b.take r rest⟩

/-- `s` with the command word of an opcode-table row presented as the very next thing the block takes. The operand words are
those of the request it takes the place of, or those that stand at the port. Log entry 10. -/
def State.withFetchWord (s : State) (nbits w : Nat) : State :=
  { s with block := { s.block with inbox := withCommand (tableWord nbits w) s.block.args s.block.inbox } }

end Sys2Proof.Machine
end

