-- ==== Sys2Proof/Safety.lean ====
section
/-! DEFINITION. Safety.lean: the terms the statements use: valid limits, the invariant of the machine, what it means to be at
reset, which instance an operation names, the spec's opcode table and status rule as numbers, the register tables, what a
controller's run and a list of operations lead to, and the number of a format nearest to a real. -/

namespace Sys2Proof.Machine

variable {F : FloatFormat}

/-- `outMin ≤ outMax`, neither a NaN: the precondition of R25 that U1 makes a premise of every claim about a controller's
result. -/
def limitsOk (lo hi : Val F) : Bool := !isNaN lo && !isNaN hi && decide (intOf lo ≤ intOf hi)

/-- `lo ≤ v ≤ hi` as numbers, none of them a NaN. -/
def within (v lo hi : Val F) : Bool := limitsOk lo v && limitsOk v hi

/-- A duty in `[0, 1]`, or a NaN, which passes the clamp (R41). -/
def dutyOk (d : Val F) : Bool := isNaN d || within d zeroF cOne

/-- R41 for one modulator. -/
def SvmRegs.dutiesOk (m : SvmRegs F) : Bool := dutyOk m.dA && dutyOk m.dB && dutyOk m.dC

/-- R191: the embedded controllers' `ffLast` registers hold `+0.0`. -/
def CcBank.ffZero : CcBank F → Bool
  | .pi l => l.all fun cc => cc.d.ffLast == zeroF && cc.q.ffLast == zeroF
  | .pid l => l.all fun cc => cc.d.ffLast == zeroF && cc.q.ffLast == zeroF

/-- R80, R232: a response with a status other than `OK` has no result word; none has more than three. -/
def Response.ok (p : Response F) : Bool := (p.status == .ok || p.results.isEmpty) && decide (p.results.length ≤ 3)

/-- R8: every instance count is in `0..256`. -/
def countsOk (b : Build) : Bool :=
  decide (b.nPi ≤ 256) && decide (b.nPid ≤ 256) && decide (b.nLpf1 ≤ 256) && decide (b.nLpf2 ≤ 256) &&
    decide (b.nCc ≤ 256) && decide (b.nSvm ≤ 256)

/-- The invariant of the machine. -/
def Block.inv (s : Block F) : Bool :=
  s.banks.svm.all SvmRegs.dutiesOk && s.banks.cc.ffZero && s.resp.all Response.ok && countsOk s.build

/-- The invariant of a machine with its format. -/
def State.inv (s : State) : Bool := s.block.inv

/-- R251 for a PI controller: every register but the limits, which are unspecified. -/
def PiRegs.atReset (c : PiRegs F) : Prop :=
  c.kP = zeroF ∧ c.kI = zeroF ∧ c.integ = zeroF ∧ c.spLast = zeroF ∧ c.pvLast = zeroF ∧ c.ffLast = zeroF

/-- R251 for a PID controller: every register but the limits and the filter coefficients. -/
def PidRegs.atReset (c : PidRegs F) : Prop :=
  c.kP = zeroF ∧ c.kI = zeroF ∧ c.kD = zeroF ∧ c.integ = zeroF ∧ c.spLast = zeroF ∧ c.pvLast = zeroF ∧
    c.ffLast = zeroF ∧ c.dX1 = zeroF ∧ c.dY1 = zeroF

/-- R251 for a current controller. -/
def CcRegs.atReset {κ : Type} (ctrl : κ → Prop) (cc : CcRegs F κ) : Prop :=
  ctrl cc.d ∧ ctrl cc.q ∧ cc.idRef = zeroF ∧ cc.iqRef = zeroF ∧ cc.vAlpha = zeroF ∧ cc.vBeta = zeroF

/-- R251 for the CC bank. -/
def CcBank.atReset : CcBank F → Prop
  | .pi l => ∀ cc ∈ l, cc.atReset PiRegs.atReset
  | .pid l => ∀ cc ∈ l, cc.atReset PidRegs.atReset

/-- R251 for a modulator. -/
def SvmRegs.atReset (m : SvmRegs F) : Prop :=
  m.va = zeroF ∧ m.vb = zeroF ∧ m.ovm = false ∧ m.dA = halfF ∧ m.dB = halfF ∧ m.dC = halfF

/-- R251 for every instance of every bank. -/
def Banks.atReset (b : Banks F) : Prop :=
  (∀ c ∈ b.pi, c.atReset) ∧ (∀ c ∈ b.pid, c.atReset) ∧
    (∀ f ∈ b.lpf1, f.x1 = zeroF ∧ f.y1 = zeroF) ∧
    (∀ f ∈ b.lpf2, f.x1 = zeroF ∧ f.x2 = zeroF ∧ f.y1 = zeroF ∧ f.y2 = zeroF) ∧
    b.cc.atReset ∧ ∀ m ∈ b.svm, m.atReset

/-- The six banks by name (R20). -/
inductive Bank where
  | pi
  | pid
  | lpf1
  | lpf2
  | cc
  | svm
deriving DecidableEq, Repr

/-- The bank and instance an operation names; a transform names none (R170). -/
def names : Instr → Option (Bank × Nat)
  | .piRun i | .piReset i | .piRd i _ | .piWr i _ => some (.pi, i.toNat)
  | .pidRun i | .pidReset i | .pidRd i _ | .pidWr i _ => some (.pid, i.toNat)
  | .lpf1Run i | .lpf1Setic i | .lpf1Rd i _ | .lpf1Wr i _ => some (.lpf1, i.toNat)
  | .lpf2Run i | .lpf2Setic i | .lpf2Rd i _ | .lpf2Wr i _ => some (.lpf2, i.toNat)
  | .clarke | .iclarke | .park | .ipark => none
  | .ccRunsc i | .ccRuna i | .ccRd i _ | .ccWr i _ | .ccReset i => some (.cc, i.toNat)
  | .svmSetvref i | .svmAllowovm i _ | .svmRun i | .svmGeta i | .svmGetb i | .svmGetc i => some (.svm, i.toNat)

/-- Instance `k` of the CC bank is the same in two banks. -/
def CcBank.sameAt (k : Nat) : CcBank F → CcBank F → Prop
  | .pi l, .pi l' => l'[k]? = l[k]?
  | .pid l, .pid l' => l'[k]? = l[k]?
  | .pi _, .pid _ => False
  | .pid _, .pi _ => False

/-- Instance `k` of a bank is the same in two machines. -/
def sameInstance (s t : Block F) (k : Nat) : Bank → Prop
  | .pi => t.banks.pi[k]? = s.banks.pi[k]?
  | .pid => t.banks.pid[k]? = s.banks.pid[k]?
  | .lpf1 => t.banks.lpf1[k]? = s.banks.lpf1[k]?
  | .lpf2 => t.banks.lpf2[k]? = s.banks.lpf2[k]?
  | .cc => s.banks.cc.sameAt k t.banks.cc
  | .svm => t.banks.svm[k]? = s.banks.svm[k]?

/-- The register table of R24: number and word. -/
def PiRegs.table (c : PiRegs F) : List (Nat × Val F) :=
  [(0x00, c.kP), (0x01, c.kI), (0x03, c.outMin), (0x04, c.outMax), (0x05, c.integ), (0x06, c.spLast),
    (0x07, c.pvLast), (0x08, c.ffLast)]

/-- The `RW` rows of R24: number, and the controller with the word `v` in that register and every other as it was. -/
def PiRegs.writeTable (c : PiRegs F) (v : Val F) : List (Nat × PiRegs F) :=
  [(0x00, { c with kP := v }), (0x01, { c with kI := v }), (0x03, { c with outMin := v }),
    (0x04, { c with outMax := v })]

/-- The register table of R28. -/
def PidRegs.table (c : PidRegs F) : List (Nat × Val F) :=
  [(0x00, c.kP), (0x01, c.kI), (0x02, c.kD), (0x03, c.outMin), (0x04, c.outMax), (0x05, c.integ), (0x06, c.spLast),
    (0x07, c.pvLast), (0x08, c.ffLast), (0x09, c.dB0), (0x0A, c.dB1), (0x0B, c.dA1), (0x0C, c.dX1), (0x0D, c.dY1)]

/-- The `RW` rows of R28. -/
def PidRegs.writeTable (c : PidRegs F) (v : Val F) : List (Nat × PidRegs F) :=
  [(0x00, { c with kP := v }), (0x01, { c with kI := v }), (0x02, { c with kD := v }), (0x03, { c with outMin := v }),
    (0x04, { c with outMax := v }), (0x09, { c with dB0 := v }), (0x0A, { c with dB1 := v }), (0x0B, { c with dA1 := v })]

/-- The register table of R30. -/
def Lpf1Regs.table (f : Lpf1Regs F) : List (Nat × Val F) :=
  [(0x00, f.b0), (0x01, f.b1), (0x02, f.a1), (0x03, f.x1), (0x04, f.y1)]

/-- The rows of R30, all `RW`. -/
def Lpf1Regs.writeTable (f : Lpf1Regs F) (v : Val F) : List (Nat × Lpf1Regs F) :=
  [(0x00, { f with b0 := v }), (0x01, { f with b1 := v }), (0x02, { f with a1 := v }), (0x03, { f with x1 := v }),
    (0x04, { f with y1 := v })]

/-- The register table of R31. -/
def Lpf2Regs.table (f : Lpf2Regs F) : List (Nat × Val F) :=
  [(0x00, f.b0), (0x01, f.b1), (0x02, f.b2), (0x03, f.a1), (0x04, f.a2), (0x05, f.x1), (0x06, f.x2), (0x07, f.y1),
    (0x08, f.y2)]

/-- The rows of R31, all `RW`. -/
def Lpf2Regs.writeTable (f : Lpf2Regs F) (v : Val F) : List (Nat × Lpf2Regs F) :=
  [(0x00, { f with b0 := v }), (0x01, { f with b1 := v }), (0x02, { f with b2 := v }), (0x03, { f with a1 := v }),
    (0x04, { f with a2 := v }), (0x05, { f with x1 := v }), (0x06, { f with x2 := v }), (0x07, { f with y1 := v }),
    (0x08, { f with y2 := v })]

/-- The register table of R33, given those of the two embedded controllers: d at `0x00`, q at `0x20`. -/
def CcRegs.table {κ : Type} (ctrlTable : κ → List (Nat × Val F)) (cc : CcRegs F κ) : List (Nat × Val F) :=
  ctrlTable cc.d ++ (ctrlTable cc.q).map (fun p => (p.1 + 0x20, p.2)) ++
    [(0x40, cc.idRef), (0x41, cc.iqRef), (0x42, cc.vAlpha), (0x43, cc.vBeta)]

/-- The `RW` rows of R33. -/
def CcRegs.writeTable {κ : Type} (ctrlWrites : κ → Val F → List (Nat × κ)) (cc : CcRegs F κ) (v : Val F) :
    List (Nat × CcRegs F κ) :=
  (ctrlWrites cc.d v).map (fun p => (p.1, { cc with d := p.2 })) ++
    (ctrlWrites cc.q v).map (fun p => (p.1 + 0x20, { cc with q := p.2 })) ++
    [(0x40, { cc with idRef := v }), (0x41, { cc with iqRef := v })]

/-- What U1 leaves of a run of a PI controller from `c` to `c'` with the output `out`, whatever its limits: the gains and limits
as they were, the operands remembered, the integrator unchanged with `kI` zero, else the result of a literal clamp, and the
output such a result; and, where the limits are valid, the control law of R110. -/
def PiRegs.ranTo (c c' : PiRegs F) (sp pv ff out : Val F) : Prop :=
  ∃ (t u : Val F) (ν : Nat → Val F),
    c' = { c with
      integ := if feq c.kI zeroF then c.integ else clamp t c.outMin c.outMax
      spLast := sp
      pvLast := pv
      ffLast := ff } ∧
    out = clamp u c.outMin c.outMax ∧ (limitsOk c.outMin c.outMax = true → (c', out) = piRun ν c sp pv ff)

/-- The same of a PID controller (R131). Its filter memory does not depend on the limits: it is that of the derivative stage. -/
def PidRegs.ranTo (c : PidRegs F) (gate : DGate) (c' : PidRegs F) (sp pv ff out : Val F) : Prop :=
  ∃ (t u : Val F) (ν : Nat → Val F),
    let x := fmul (ν 4) c.kD (fsub (ν 0) sp pv)
    let y := fsub (ν 9) (fadd (ν 7) (fmul (ν 5) c.dB0 x) (fmul (ν 6) c.dB1 c.dX1)) (fmul (ν 8) c.dA1 c.dY1)
    c' = { c with
      integ := if feq c.kI zeroF then c.integ else clamp t c.outMin c.outMax
      spLast := sp
      pvLast := pv
      ffLast := ff
      dX1 := if dGateClosed gate c then c.dX1 else x
      dY1 := if dGateClosed gate c then c.dY1 else y } ∧
    out = clamp u c.outMin c.outMax ∧ (limitsOk c.outMin c.outMax = true → (c', out) = pidRun gate ν c sp pv ff)

/-- The operations of a list, each on its operand words, lead from `s` to `t`. -/
def performs : List (Instr × Args F) → Block F → Block F → Prop
  | [], s, t => t = s
  | p :: ops, s, t => ∃ m, exec p.1 ⟨F, { s with args := p.2 }⟩ = .next ⟨F, m⟩ ∧ performs ops m t

/-- The machine after an operation that was done with the result words `rs` and changed no register. -/
def Block.answered (s : Block F) (rs : List (Val F)) : Block F := { s with resp := some { status := .ok, results := rs } }

/-- The machine after a command that was rejected with `st`: the response apart, nothing changed. -/
def Block.refusedWith (s : Block F) (st : Status) : Block F := { s with resp := some { status := st, results := [] } }

/-- The columns `match` and `mask` of the spec's opcode table, in its order. -/
def specRows : List (Nat × Nat) :=
  [(0x10, 0xFFFF00FF), (0x11, 0xFFFF00FF), (0x12, 0xFF0000FF), (0x13, 0xFF0000FF),
    (0x20, 0xFFFF00FF), (0x21, 0xFFFF00FF), (0x22, 0xFF0000FF), (0x23, 0xFF0000FF)] ++
  [(0x30, 0xFFFF00FF), (0x31, 0xFFFF00FF), (0x32, 0xFF0000FF), (0x33, 0xFF0000FF),
    (0x40, 0xFFFF00FF), (0x41, 0xFFFF00FF), (0x42, 0xFF0000FF), (0x43, 0xFF0000FF)] ++
  [(0x50, 0xFFFFFFFF), (0x51, 0xFFFFFFFF), (0x52, 0xFFFFFFFF), (0x53, 0xFFFFFFFF),
    (0x60, 0xFFFF00FF), (0x61, 0xFFFF00FF), (0x62, 0xFF0000FF), (0x63, 0xFF0000FF), (0x64, 0xFFFF00FF)] ++
  [(0x70, 0xFFFF00FF), (0x71, 0xFFFE00FF), (0x72, 0xFFFF00FF), (0x73, 0xFFFF00FF), (0x74, 0xFFFF00FF),
    (0x75, 0xFFFF00FF)]

/-- The row of the opcode table a command word's low byte names. -/
def specRow (w : Word) : Option (Nat × Nat) := specRows.find? fun row => row.1 == w.toNat % 256

/-- The instance count of a unit, which is `OPC[7:4]` (R83, R89). -/
def specCount (b : Build) : Nat → Nat
  | 1 => b.nPi
  | 2 => b.nPid
  | 3 => b.nLpf1
  | 4 => b.nLpf2
  | 6 => b.nCc
  | _ => b.nSvm

/-- The register numbers of a unit's bank (R90). -/
def specRegNums (b : Build) : Nat → List Nat
  | 1 => piRegNums
  | 2 => pidRegNums
  | 3 => lpf1RegNums
  | 4 => lpf2RegNums
  | _ => ccRegNums b.ccKind

/-- The read-only register numbers of a unit's bank (R90). -/
def specReadOnlyNums : Nat → List Nat
  | 1 => ctrlReadOnlyNums
  | 2 => ctrlReadOnlyNums
  | 6 => ccReadOnlyNums
  | _ => []

/-- R86 and R234 on the bits of a command word: the first of the five checks that fails decides the status. The units `0x1` to
`0x4` and `0x6` have registers, and in each of them function `2` is `RD` and function `3` is `WR` (R85). -/
def specStatus (b : Build) (w : Word) : Status :=
  match specRow w with
  | none => .illegalOpcode
  | some row =>
    let opc := w.toNat % 256
    let inst := w.toNat / 2 ^ 8 % 256
    let reg := w.toNat / 2 ^ 16 % 256
    let unit := opc / 16
    let hasRegs := unit ∈ [1, 2, 3, 4, 6]
    if w &&& BitVec.ofNat 32 row.2 ≠ BitVec.ofNat 32 row.1 then .reservedField
    else if unit ≠ 5 ∧ specCount b unit ≤ inst then .badInstance
    else if hasRegs ∧ opc % 16 ∈ [2, 3] ∧ reg ∉ specRegNums b unit then .badRegister
    else if hasRegs ∧ opc % 16 = 3 ∧ reg ∈ specReadOnlyNums unit then .readOnly
    else .ok

/-- `b` is the exponent and fraction fields of the magnitude of `F` nearest to `x` units, ties to even (R12). The fields of
infinity stand for the value one step past the largest finite number, which is where IEEE 754 lets rounding to nearest reach
infinity. -/
def IsNearest (F : FloatFormat) (x : ℝ) (b : Nat) : Prop :=
  b ≤ infBits F ∧ ∀ b' ≤ infBits F, b' ≠ b →
    |(unitsOf F b : ℝ) - x| < |(unitsOf F b' : ℝ) - x| ∨
      (|(unitsOf F b : ℝ) - x| = |(unitsOf F b' : ℝ) - x| ∧ b % 2 = 0)

end Sys2Proof.Machine
end

