-- ==== Sys2Proof/Certificates/Slice0/Obligations.lean ====
section
/-! DEFINITION. Certificates/Slice0/Obligations.lean: the statements for the provers. Where a statement says "some NaNs" it
quantifies over `ν`: the NaN each arithmetic primitive would produce has an unspecified sign and payload (R13), and the
operation takes them from free values: those of its draw, and in `SVM.RUN` those of its algorithm and vector (log entry 2).
`draws` is the model's own counter of the draws. `F` is the number format `FMT`, a parameter (R8, log entry 1). -/

open Sys2Proof Sys2Proof.Machine

/-! ## Encoding -/

/-- Decoding the word of an operation gives the operation back, with every `INST`, `REG` and `FLAG` (R81, R82, R84, R85). -/
def Obligations.DecodeOfEncodeIsTheInstr : Prop :=
  ∀ i : Instr, decode (encode i) = .ok i

/-- A word that decodes is the encoding of what it decodes to: no operation has a second spelling, no bit is ignored. -/
def Obligations.EncodeOfDecodeIsTheWord : Prop :=
  ∀ (w : Word) (i : Instr), decode w = .ok i → encode i = w

/-- R87. A command whose low byte is none of the 31 opcodes is answered `ILLEGAL_OPCODE`, whatever its other bits. -/
def Obligations.UnlistedOpcodeIsAnsweredIllegalOpcode : Prop :=
  ∀ (F : FloatFormat) (s : Block F) (r : Request F) (rest : List (Input F)), s.inbox = .command r :: rest →
    (∀ row ∈ specRows, r.cmd.toNat % 256 ≠ row.1) →
    step ⟨F, s⟩ = .next ⟨F, { s with inbox := rest, args := r.args, resp := some { status := .illegalOpcode, results := [] } }⟩

/-- R88. A command whose low byte is an opcode and which has a must-be-zero bit of that opcode's format set is answered
`RESERVED_FIELD`; one with none set decodes to an operation. -/
def Obligations.MustBeZeroBitIsAnsweredReservedField : Prop :=
  ∀ (F : FloatFormat) (s : Block F) (r : Request F) (rest : List (Input F)), s.inbox = .command r :: rest →
    ∀ row ∈ specRows, r.cmd.toNat % 256 = row.1 →
      (r.cmd &&& BitVec.ofNat 32 row.2 ≠ BitVec.ofNat 32 row.1 →
        step ⟨F, s⟩ =
          .next ⟨F, { s with inbox := rest, args := r.args, resp := some { status := .reservedField, results := [] } }⟩) ∧
      (r.cmd &&& BitVec.ofNat 32 row.2 = BitVec.ofNat 32 row.1 → ∃ i, decode r.cmd = .ok i)

/-- R96, the worked encodings: the nine words that name an operation, and the four that the spec says are rejected with the
default build of R8. -/
def Obligations.WorkedCommandWordsDecode : Prop :=
  decode 0x00000010#32 = .ok (.piRun 0) ∧ decode 0x00040113#32 = .ok (.piWr 1 4) ∧
  decode 0x00050022#32 = .ok (.pidRd 0 5) ∧ decode 0x00000041#32 = .ok (.lpf2Setic 0) ∧
  decode 0x00000052#32 = .ok .park ∧ decode 0x00250062#32 = .ok (.ccRd 0 0x25) ∧
  decode 0x00010071#32 = .ok (.svmAllowovm 0 true) ∧ decode 0x00000375#32 = .ok (.svmGetc 3) ∧
  decode 0x00000000#32 = .error .illegalOpcode ∧ decode 0x01000010#32 = .error .reservedField ∧
  decode 0x00050013#32 = .ok (.piWr 0 5) ∧ (Instr.piWr 0 5).verdict Build.default = .readOnly ∧
  decode 0x00020012#32 = .ok (.piRd 0 2) ∧ (Instr.piRd 0 2).verdict Build.default = .badRegister

/-! ## The step -/

/-- A step takes the oldest thing the host has presented: nothing, and the machine stays as it is; the reset event; or a
command, whose operation is performed on its operand words when it decodes. The model's own choices in it: that what the
host presents waits in an inbox which is taken oldest first (log entries 9 and 10), and that the reset event is an entry of
the inbox, taken in its turn, with the inputs behind it kept (log entry 13; R250 does not specify how reset is delivered).
-/
def Obligations.StepTakesTheOldestInput : Prop :=
  ∀ (F : FloatFormat) (s : Block F) (rest : List (Input F)),
    (s.inbox = [] → step ⟨F, s⟩ = .next ⟨F, s⟩) ∧
    (s.inbox = .reset :: rest → step ⟨F, s⟩ = .next ⟨F, s.resetEvent rest⟩) ∧
    ∀ (r : Request F) (i : Instr), s.inbox = .command r :: rest → decode r.cmd = .ok i →
      step ⟨F, s⟩ = exec i ⟨F, { s with inbox := rest, args := r.args }⟩

/-- Every step and every operation answers a next state: there is no fault, trap, wait or hang (R230, R281). -/
def Obligations.StepAlwaysAnswersANextState : Prop :=
  ∀ (F : FloatFormat) (s : Block F),
    (∃ t, step ⟨F, s⟩ = .next ⟨F, t⟩) ∧ ∀ i : Instr, ∃ t, exec i ⟨F, s⟩ = .next ⟨F, t⟩

/-- R230. An operation whose instance and register exist, and whose register may be written if it is a `WR`, completes with
`ST = OK`, in every state and on every operand. -/
def Obligations.WellFormedOperationCompletesOk : Prop :=
  ∀ (i : Instr) (F : FloatFormat) (s : Block F), i.wellFormed s.build = true →
    ∃ t rs, exec i ⟨F, s⟩ = .next ⟨F, t⟩ ∧ t.resp = some { status := .ok, results := rs }

/-- R86, R234. Of the five checks on the command word the first that fails decides the status, and if none fails it is
`OK`. -/
def Obligations.StatusIsDecidedByTheOrderedChecks : Prop :=
  ∀ (F : FloatFormat) (s : Block F) (r : Request F) (rest : List (Input F)), s.inbox = .command r :: rest →
    ∃ t rs, step ⟨F, s⟩ = .next ⟨F, t⟩ ∧ t.resp = some { status := specStatus s.build r.cmd, results := rs }

/-- R232. A rejected command changes no register, draws nothing and returns no result word; and the status depends on the
command word and the static parameters alone. -/
def Obligations.RejectedCommandChangesNothing : Prop :=
  (∀ (F : FloatFormat) (s t : Block F) (r : Request F) (rest : List (Input F)) (p : Response F),
    s.inbox = .command r :: rest → step ⟨F, s⟩ = .next ⟨F, t⟩ →
    t.resp = some p → p.status ≠ .ok →
    t = { s with inbox := rest, args := r.args, resp := some { status := p.status, results := [] } }) ∧
  (∀ (F : FloatFormat) (s s' t t' : Block F) (r r' : Request F) (rest rest' : List (Input F)) (p p' : Response F),
    s.inbox = .command r :: rest → s'.inbox = .command r' :: rest' → r.cmd = r'.cmd → s.build = s'.build →
    step ⟨F, s⟩ = .next ⟨F, t⟩ → step ⟨F, s'⟩ = .next ⟨F, t'⟩ → t.resp = some p → t'.resp = some p' → p.status = p'.status)

/-- R21. Operands and results are not registers: what a command does depends on no earlier operand word and no earlier
response. -/
def Obligations.OldOperandsAndResultsAreNotRead : Prop :=
  ∀ (F : FloatFormat) (s : Block F) (a : Args F) (p : Option (Response F)) (r : Request F) (rest : List (Input F)),
    s.inbox = .command r :: rest →
    step ⟨F, { s with args := a, resp := p }⟩ = step ⟨F, s⟩

/-- R20. An operation changes registers of the instance it names only, and a transform changes none. -/
def Obligations.OperationTouchesOnlyItsInstance : Prop :=
  ∀ (i : Instr) (F : FloatFormat) (s t : Block F) (b : Bank) (k : Nat), exec i ⟨F, s⟩ = .next ⟨F, t⟩ →
    names i ≠ some (b, k) → sameInstance s t k b

/-- R9. Nothing that is fixed when the block is built changes in any step, the reset event among them. -/
def Obligations.NothingFixedAtBuildChanges : Prop :=
  ∀ s t : State, step s = .next t → t.build = s.build

/-! ## Reset and the invariant -/

/-- R251. After power-on reset of any build, and after the reset event in any state, every register of every instance holds
its reset value; of the registers whose value is unspecified nothing is said. The event keeps what was fixed when the block
was built. The model's own choice in it: that the event is an entry of the inbox and that what the host has presented behind
it is kept, `t.inbox = rest` (log entry 13; R250 does not specify how reset is delivered). -/
def Obligations.ResetPutsEveryRegisterAtItsResetValue : Prop :=
  (∀ b : Build, (State.resetOf b).block.banks.atReset ∧ (State.resetOf b).build = b) ∧
  ∀ (F : FloatFormat) (s : Block F) (rest : List (Input F)), s.inbox = .reset :: rest →
    ∃ t, step ⟨F, s⟩ = .next ⟨F, t⟩ ∧ t.banks.atReset ∧ t.build = s.build ∧ t.inbox = rest

/-- R253. After its `RESET` operation a controller is a freshly reset one with the gains, limits and filter coefficients it
had. -/
def Obligations.ControllerResetEqualsFresh : Prop :=
  (∀ (F : FloatFormat) (s t : Block F) (i : Byte) (c : PiRegs F) (n k : Nat), s.banks.pi[i.toNat]? = some c →
    exec (.piReset i) ⟨F, s⟩ = .next ⟨F, t⟩ →
    t.banks.pi[i.toNat]? =
      some { PiRegs.reset n k with kP := c.kP, kI := c.kI, outMin := c.outMin, outMax := c.outMax }) ∧
  (∀ (F : FloatFormat) (s t : Block F) (i : Byte) (c : PidRegs F) (n k : Nat), s.banks.pid[i.toNat]? = some c →
    exec (.pidReset i) ⟨F, s⟩ = .next ⟨F, t⟩ →
    t.banks.pid[i.toNat]? =
      some { PidRegs.reset n k with
        kP := c.kP, kI := c.kI, kD := c.kD, outMin := c.outMin, outMax := c.outMax
        dB0 := c.dB0, dB1 := c.dB1, dA1 := c.dA1 }) ∧
  (∀ (F : FloatFormat) (s t : Block F) (j : Byte) (l : List (CcRegs F (PiRegs F))) (cc : CcRegs F (PiRegs F)),
    s.banks.cc = .pi l →
    l[j.toNat]? = some cc → exec (.ccReset j) ⟨F, s⟩ = .next ⟨F, t⟩ →
    ∃ l' cc', t.banks.cc = .pi l' ∧ l'[j.toNat]? = some cc' ∧
      cc'.d = { PiRegs.fresh cc.d.outMin cc.d.outMax with kP := cc.d.kP, kI := cc.d.kI } ∧
      cc'.q = { PiRegs.fresh cc.q.outMin cc.q.outMax with kP := cc.q.kP, kI := cc.q.kI }) ∧
  (∀ (F : FloatFormat) (s t : Block F) (j : Byte) (l : List (CcRegs F (PidRegs F))) (cc : CcRegs F (PidRegs F)),
    s.banks.cc = .pid l →
    l[j.toNat]? = some cc → exec (.ccReset j) ⟨F, s⟩ = .next ⟨F, t⟩ →
    ∃ l' cc', t.banks.cc = .pid l' ∧ l'[j.toNat]? = some cc' ∧
      cc'.d = { PidRegs.fresh cc.d.outMin cc.d.outMax cc.d.dB0 cc.d.dB1 cc.d.dA1 with
        kP := cc.d.kP, kI := cc.d.kI, kD := cc.d.kD } ∧
      cc'.q = { PidRegs.fresh cc.q.outMin cc.q.outMax cc.q.dB0 cc.q.dB1 cc.q.dA1 with
        kP := cc.q.kP, kI := cc.q.kI, kD := cc.q.kD })

/-- The invariant holds right after reset, of the default build and of every build with at most 256 instances a unit. -/
def Obligations.InvariantHoldsAtReset : Prop :=
  State.reset.inv = true ∧ ∀ b : Build, countsOk b = true → (State.resetOf b).inv = true

/-- From every state that meets the invariant, a step gives a state that meets it: every duty is in `[0, 1]` or a NaN
(R41), the embedded controllers' `ffLast` hold `+0.0` (R191), a response with a status other than `OK` has no result
(R232), and the instance counts stay in range (R8). -/
def Obligations.EveryStepKeepsTheInvariant : Prop :=
  ∀ s t : State, s.inv = true → step s = .next t → t.inv = true

/-! ## PI controller -/

/-- R110, R111. `PI.RUN` with valid limits (U1): for some NaNs, the integrator, the remembered inputs and the output are
those of the control law, and nothing else changes. -/
def Obligations.PiRunFollowsTheControlLaw : Prop :=
  ∀ (F : FloatFormat) (s : Block F) (i : Byte) (c : PiRegs F), s.banks.pi[i.toNat]? = some c →
    limitsOk c.outMin c.outMax = true →
    ∃ ν : Nat → Val F,
      let e := fsub (ν 0) s.args.a0 s.args.a1
      let p := fmul (ν 1) c.kP e
      let g := if feq c.kI zeroF then c.integ
        else clamp (fadd (ν 3) c.integ (fmul (ν 2) c.kI e)) c.outMin c.outMax
      let term := if feq c.kI zeroF then zeroF else g
      let u := fadd (ν 5) (fadd (ν 4) p term) s.args.a2
      exec (.piRun i) ⟨F, s⟩ = .next
        ⟨F, { s with
          banks := { s.banks with
            pi := s.banks.pi.set i.toNat
              { c with integ := g, spLast := s.args.a0, pvLast := s.args.a1, ffLast := s.args.a2 } }
          draws := s.draws + 1
          resp := some { status := .ok, results := [clamp u c.outMin c.outMax] } }⟩

/-- U1, D32. Where the limits are not valid (`outMin > outMax`, or one a NaN) a controller's `RUN` still completes: one
output word, the gains, limits and coefficients as they were, the operands remembered, the filter memory that of the
derivative stage, the integrator unchanged with `kI` zero, else the result of a literal clamp. So does a tick of a current
controller one of whose axes has such limits: on each axis what is said here of a `RUN` holds, an axis whose own limits are
valid runs its control law whatever the other axis's limits are (R190), and the inverse Park transform of the two outputs
(in the convention of log entry 11) is stored and answered. That the result under violated limits is the literal clamp of
R15 is the choice of log entry 3. -/
def Obligations.ControllerRunsCompleteUnderViolatedLimits : Prop :=
  (∀ (F : FloatFormat) (s : Block F) (i : Byte) (c : PiRegs F), s.banks.pi[i.toNat]? = some c →
    limitsOk c.outMin c.outMax = false →
    ∃ (c' : PiRegs F) (out : Val F), c.ranTo c' s.args.a0 s.args.a1 s.args.a2 out ∧
      exec (.piRun i) ⟨F, s⟩ = .next
        ⟨F, { s with
          banks := { s.banks with pi := s.banks.pi.set i.toNat c' }
          draws := s.draws + 1
          resp := some { status := .ok, results := [out] } }⟩) ∧
  (∀ (F : FloatFormat) (s : Block F) (i : Byte) (c : PidRegs F), s.banks.pid[i.toNat]? = some c →
    limitsOk c.outMin c.outMax = false →
    ∃ (c' : PidRegs F) (out : Val F), c.ranTo s.params.dGate c' s.args.a0 s.args.a1 s.args.a2 out ∧
      exec (.pidRun i) ⟨F, s⟩ = .next
        ⟨F, { s with
          banks := { s.banks with pid := s.banks.pid.set i.toNat c' }
          draws := s.draws + 1
          resp := some { status := .ok, results := [out] } }⟩) ∧
  (∀ (F : FloatFormat) (s : Block F) (j : Byte) (l : List (CcRegs F (PiRegs F))) (cc : CcRegs F (PiRegs F)),
    s.banks.cc = .pi l → l[j.toNat]? = some cc →
    limitsOk cc.d.outMin cc.d.outMax = false ∨ limitsOk cc.q.outMin cc.q.outMax = false →
    ∃ (d q : PiRegs F) (vd vq : Val F) (ν : Nat → Val F),
      let va := fsub (ν 2) (fmul (ν 0) vd s.args.a3) (fmul (ν 1) vq s.args.a2)
      let vb := fadd (ν 5) (fmul (ν 3) vd s.args.a2) (fmul (ν 4) vq s.args.a3)
      cc.d.ranTo d cc.idRef s.args.a0 zeroF vd ∧ cc.q.ranTo q cc.iqRef s.args.a1 zeroF vq ∧
      exec (.ccRunsc j) ⟨F, s⟩ = .next
        ⟨F, { s with
          banks := { s.banks with
            cc := .pi (l.set j.toNat { cc with d := d, q := q, vAlpha := va, vBeta := vb }) }
          draws := s.draws + 1
          resp := some { status := .ok, results := [va, vb] } }⟩) ∧
  (∀ (F : FloatFormat) (s : Block F) (j : Byte) (l : List (CcRegs F (PidRegs F))) (cc : CcRegs F (PidRegs F)),
    s.banks.cc = .pid l → l[j.toNat]? = some cc →
    limitsOk cc.d.outMin cc.d.outMax = false ∨ limitsOk cc.q.outMin cc.q.outMax = false →
    ∃ (d q : PidRegs F) (vd vq : Val F) (ν : Nat → Val F),
      let va := fsub (ν 2) (fmul (ν 0) vd s.args.a3) (fmul (ν 1) vq s.args.a2)
      let vb := fadd (ν 5) (fmul (ν 3) vd s.args.a2) (fmul (ν 4) vq s.args.a3)
      cc.d.ranTo s.params.dGate d cc.idRef s.args.a0 zeroF vd ∧ cc.q.ranTo s.params.dGate q cc.iqRef s.args.a1 zeroF vq ∧
      exec (.ccRunsc j) ⟨F, s⟩ = .next
        ⟨F, { s with
          banks := { s.banks with
            cc := .pid (l.set j.toNat { cc with d := d, q := q, vAlpha := va, vBeta := vb }) }
          draws := s.draws + 1
          resp := some { status := .ok, results := [va, vb] } }⟩)

/-- R116, for `PI.RUN` and (R138) `PID.RUN`. Right after a run with integral action on, valid limits and an integrator that
is no NaN, the integrator is within the limits. -/
def Obligations.AntiWindupAfterEveryIntegratingRun : Prop :=
  (∀ (F : FloatFormat) (s t : Block F) (i : Byte) (c c' : PiRegs F), s.banks.pi[i.toNat]? = some c →
    feq c.kI zeroF = false →
    limitsOk c.outMin c.outMax = true → exec (.piRun i) ⟨F, s⟩ = .next ⟨F, t⟩ → t.banks.pi[i.toNat]? = some c' →
    isNaN c'.integ = false → within c'.integ c'.outMin c'.outMax = true) ∧
  (∀ (F : FloatFormat) (s t : Block F) (i : Byte) (c c' : PidRegs F), s.banks.pid[i.toNat]? = some c →
    feq c.kI zeroF = false →
    limitsOk c.outMin c.outMax = true → exec (.pidRun i) ⟨F, s⟩ = .next ⟨F, t⟩ → t.banks.pid[i.toNat]? = some c' →
    isNaN c'.integ = false → within c'.integ c'.outMin c'.outMax = true)

/-- R118. With `kI` zero, of either sign, the PI output is the clamped proportional term plus feedforward, and the
integrator keeps its value. -/
def Obligations.PiWithZeroIntegralGainIsProportional : Prop :=
  ∀ (F : FloatFormat) (s : Block F) (i : Byte) (c : PiRegs F), s.banks.pi[i.toNat]? = some c → feq c.kI zeroF = true →
    limitsOk c.outMin c.outMax = true →
    ∃ (t : Block F) (c' : PiRegs F) (ν : Nat → Val F),
      exec (.piRun i) ⟨F, s⟩ = .next ⟨F, t⟩ ∧ t.banks.pi[i.toNat]? = some c' ∧ c'.integ = c.integ ∧
      t.resp = some ⟨.ok,
        [clamp (fadd (ν 3) (fadd (ν 2) (fmul (ν 1) c.kP (fsub (ν 0) s.args.a0 s.args.a1)) zeroF) s.args.a2)
          c.outMin c.outMax]⟩

/-- R117. With no error (`sp = pv`, finite), finite gains and a zero integral term (integral action off, or a zero
integrator that the limits let stand), the PI output equals the clamped feedforward, up to the sign of a zero. -/
def Obligations.PiWithZeroErrorAnswersTheFeedforward : Prop :=
  ∀ (F : FloatFormat) (s : Block F) (i : Byte) (c : PiRegs F), s.banks.pi[i.toNat]? = some c →
    limitsOk c.outMin c.outMax = true →
    s.args.a0 = s.args.a1 → isFinite s.args.a0 = true → isFinite c.kP = true → isFinite c.kI = true →
    isNaN s.args.a2 = false →
    (feq c.kI zeroF = true ∨ (isZero c.integ = true ∧ within zeroF c.outMin c.outMax = true)) →
    ∃ t out, exec (.piRun i) ⟨F, s⟩ = .next ⟨F, t⟩ ∧ t.resp = some { status := .ok, results := [out] } ∧
      feq out (clamp s.args.a2 c.outMin c.outMax) = true

/-- R111 (c), with valid limits (U1). A NaN in the setpoint, the process variable, the feedforward or `kP` makes the PI
output a NaN; with integral action on, a NaN in the setpoint, the process variable or the integrator leaves the integrator a
NaN. -/
def Obligations.NaNReachesThePiOutputAndStays : Prop :=
  ∀ (F : FloatFormat) (s : Block F) (i : Byte) (c : PiRegs F), s.banks.pi[i.toNat]? = some c →
    limitsOk c.outMin c.outMax = true →
    ∃ (t : Block F) (c' : PiRegs F) (out : Val F),
      exec (.piRun i) ⟨F, s⟩ = .next ⟨F, t⟩ ∧ t.banks.pi[i.toNat]? = some c' ∧
      t.resp = some { status := .ok, results := [out] } ∧
      (isNaN s.args.a0 = true ∨ isNaN s.args.a1 = true ∨ isNaN s.args.a2 = true ∨ isNaN c.kP = true →
        isNaN out = true) ∧
      (feq c.kI zeroF = false → isNaN s.args.a0 = true ∨ isNaN s.args.a1 = true ∨ isNaN c.integ = true →
        isNaN c'.integ = true)

/-- R112, R113. `PI.RESET` zeroes the integrator and the remembered inputs and changes nothing else. -/
def Obligations.PiResetClearsTheController : Prop :=
  ∀ (F : FloatFormat) (s : Block F) (i : Byte) (c : PiRegs F), s.banks.pi[i.toNat]? = some c →
    exec (.piReset i) ⟨F, s⟩ = .next
      ⟨F, { s with
        banks := { s.banks with
          pi := s.banks.pi.set i.toNat
            { c with integ := zeroF, spLast := zeroF, pvLast := zeroF, ffLast := zeroF } }
        resp := some { status := .ok, results := [] } }⟩

/-- R114, R115. `PI.RD` answers the word of the register with the number of R24 and changes nothing; `PI.WR` stores `A0`
in a gain or limit and changes nothing else; other numbers are answered `BAD_REGISTER`, a write to `0x05`-`0x08`
`READ_ONLY`. -/
def Obligations.PiRegistersReadAndWrite : Prop :=
  ∀ (F : FloatFormat) (s : Block F) (i r : Byte) (c : PiRegs F), s.banks.pi[i.toNat]? = some c →
    (∀ v, (r.toNat, v) ∈ c.table → exec (.piRd i r) ⟨F, s⟩ = .next ⟨F, s.answered [v]⟩) ∧
    (r.toNat = 0x02 ∨ 0x09 ≤ r.toNat → exec (.piRd i r) ⟨F, s⟩ = .next ⟨F, s.refusedWith .badRegister⟩ ∧
      exec (.piWr i r) ⟨F, s⟩ = .next ⟨F, s.refusedWith .badRegister⟩) ∧
    (∀ c', (r.toNat, c') ∈ c.writeTable s.args.a0 →
      exec (.piWr i r) ⟨F, s⟩ = .next
        ⟨F, { s with
          banks := { s.banks with pi := s.banks.pi.set i.toNat c' }
          resp := some { status := .ok, results := [] } }⟩) ∧
    (0x05 ≤ r.toNat → r.toNat ≤ 0x08 → exec (.piWr i r) ⟨F, s⟩ = .next ⟨F, s.refusedWith .readOnly⟩)

/-! ## PID controller -/

/-- R130, R131, R133. `PID.RUN` with valid limits (U1), under either derivative gate: for some NaNs, the integrator, the
filter memory, the remembered inputs and the output are those of the control law, and nothing else changes. -/
def Obligations.PidRunFollowsTheControlLaw : Prop :=
  ∀ (F : FloatFormat) (s : Block F) (i : Byte) (c : PidRegs F), s.banks.pid[i.toNat]? = some c →
    limitsOk c.outMin c.outMax = true →
    ∃ ν : Nat → Val F,
      let closed := match s.params.dGate with
        | .kd => feq c.kD zeroF
        | .ki => feq c.kI zeroF
      let e := fsub (ν 0) s.args.a0 s.args.a1
      let p := fmul (ν 1) c.kP e
      let g := if feq c.kI zeroF then c.integ
        else clamp (fadd (ν 3) c.integ (fmul (ν 2) c.kI e)) c.outMin c.outMax
      let term := if feq c.kI zeroF then zeroF else g
      let x := fmul (ν 4) c.kD e
      let y := fsub (ν 9) (fadd (ν 7) (fmul (ν 5) c.dB0 x) (fmul (ν 6) c.dB1 c.dX1)) (fmul (ν 8) c.dA1 c.dY1)
      let d := if closed then zeroF else y
      let u := fadd (ν 12) (fadd (ν 11) (fadd (ν 10) p term) d) s.args.a2
      exec (.pidRun i) ⟨F, s⟩ = .next
        ⟨F, { s with
          banks := { s.banks with
            pid := s.banks.pid.set i.toNat
              { c with
                integ := g, spLast := s.args.a0, pvLast := s.args.a1, ffLast := s.args.a2
                dX1 := if closed then c.dX1 else x
                dY1 := if closed then c.dY1 else y } }
          draws := s.draws + 1
          resp := some { status := .ok, results := [clamp u c.outMin c.outMax] } }⟩

/-- R139. With `kI` zero: under `D_GATE = KI` the response is proportional only; under `D_GATE = KD` it is proportional plus
derivative. Under both the integrator does not drift. -/
def Obligations.PidWithZeroIntegralGainUnderEitherGate : Prop :=
  ∀ (F : FloatFormat) (s : Block F) (i : Byte) (c : PidRegs F), s.banks.pid[i.toNat]? = some c → feq c.kI zeroF = true →
    limitsOk c.outMin c.outMax = true →
    ∃ (t : Block F) (c' : PidRegs F) (ν : Nat → Val F) (d : Val F),
      exec (.pidRun i) ⟨F, s⟩ = .next ⟨F, t⟩ ∧ t.banks.pid[i.toNat]? = some c' ∧ c'.integ = c.integ ∧
      t.resp = some ⟨.ok,
        [clamp
          (fadd (ν 4) (fadd (ν 3) (fadd (ν 2) (fmul (ν 1) c.kP (fsub (ν 0) s.args.a0 s.args.a1)) zeroF) d) s.args.a2)
          c.outMin c.outMax]⟩ ∧
      (s.params.dGate = .ki → d = zeroF ∧ c'.dX1 = c.dX1 ∧ c'.dY1 = c.dY1) ∧
      (s.params.dGate = .kd → feq c.kD zeroF = false → c'.dY1 = d)

/-- R134, R135. `PID.RESET` zeroes the integrator, the remembered inputs and the filter memory and changes nothing else. -/
def Obligations.PidResetClearsTheController : Prop :=
  ∀ (F : FloatFormat) (s : Block F) (i : Byte) (c : PidRegs F), s.banks.pid[i.toNat]? = some c →
    exec (.pidReset i) ⟨F, s⟩ = .next
      ⟨F, { s with
        banks := { s.banks with
          pid := s.banks.pid.set i.toNat
            { c with
              integ := zeroF, spLast := zeroF, pvLast := zeroF, ffLast := zeroF, dX1 := zeroF, dY1 := zeroF } }
        resp := some { status := .ok, results := [] } }⟩

/-- R136, R137. `PID.RD` and `PID.WR` by the numbers of R28. -/
def Obligations.PidRegistersReadAndWrite : Prop :=
  ∀ (F : FloatFormat) (s : Block F) (i r : Byte) (c : PidRegs F), s.banks.pid[i.toNat]? = some c →
    (∀ v, (r.toNat, v) ∈ c.table → exec (.pidRd i r) ⟨F, s⟩ = .next ⟨F, s.answered [v]⟩) ∧
    (0x0E ≤ r.toNat → exec (.pidRd i r) ⟨F, s⟩ = .next ⟨F, s.refusedWith .badRegister⟩ ∧
      exec (.pidWr i r) ⟨F, s⟩ = .next ⟨F, s.refusedWith .badRegister⟩) ∧
    (∀ c', (r.toNat, c') ∈ c.writeTable s.args.a0 →
      exec (.pidWr i r) ⟨F, s⟩ = .next
        ⟨F, { s with
          banks := { s.banks with pid := s.banks.pid.set i.toNat c' }
          resp := some { status := .ok, results := [] } }⟩) ∧
    (r.toNat ∈ [0x05, 0x06, 0x07, 0x08, 0x0C, 0x0D] → exec (.pidWr i r) ⟨F, s⟩ = .next ⟨F, s.refusedWith .readOnly⟩)

/-! ## Filters -/

/-- R150, R151. `LPF1.RUN`: for some NaNs, the output is `(b0·x + b1·x1) − a1·y1` from the old memory, which then holds the
input and the output; nothing else changes. -/
def Obligations.Lpf1RunFiltersOneSample : Prop :=
  ∀ (F : FloatFormat) (s : Block F) (i : Byte) (f : Lpf1Regs F), s.banks.lpf1[i.toNat]? = some f →
    ∃ ν : Nat → Val F,
      let y := fsub (ν 4) (fadd (ν 2) (fmul (ν 0) f.b0 s.args.a0) (fmul (ν 1) f.b1 f.x1)) (fmul (ν 3) f.a1 f.y1)
      exec (.lpf1Run i) ⟨F, s⟩ = .next
        ⟨F, { s with
          banks := { s.banks with lpf1 := s.banks.lpf1.set i.toNat { f with x1 := s.args.a0, y1 := y } }
          draws := s.draws + 1
          resp := some { status := .ok, results := [y] } }⟩

/-- R153, R154. `LPF1.RD` and `LPF1.WR` by the numbers of R30. -/
def Obligations.Lpf1RegistersReadAndWrite : Prop :=
  ∀ (F : FloatFormat) (s : Block F) (i r : Byte) (f : Lpf1Regs F), s.banks.lpf1[i.toNat]? = some f →
    (∀ v, (r.toNat, v) ∈ f.table → exec (.lpf1Rd i r) ⟨F, s⟩ = .next ⟨F, s.answered [v]⟩) ∧
    (0x05 ≤ r.toNat → exec (.lpf1Rd i r) ⟨F, s⟩ = .next ⟨F, s.refusedWith .badRegister⟩ ∧
      exec (.lpf1Wr i r) ⟨F, s⟩ = .next ⟨F, s.refusedWith .badRegister⟩) ∧
    (∀ f', (r.toNat, f') ∈ f.writeTable s.args.a0 →
      exec (.lpf1Wr i r) ⟨F, s⟩ = .next
        ⟨F, { s with
          banks := { s.banks with lpf1 := s.banks.lpf1.set i.toNat f' }
          resp := some { status := .ok, results := [] } }⟩)

/-- R155, R156. `LPF2.RUN`: for some NaNs, the output of the second-order formula from the old memory, and the correct
two-sample shift; nothing else changes. -/
def Obligations.Lpf2RunFiltersOneSampleAndShifts : Prop :=
  ∀ (F : FloatFormat) (s : Block F) (i : Byte) (f : Lpf2Regs F), s.banks.lpf2[i.toNat]? = some f →
    ∃ ν : Nat → Val F,
      let sb := fadd (ν 4) (fadd (ν 2) (fmul (ν 0) f.b0 s.args.a0) (fmul (ν 1) f.b1 f.x1)) (fmul (ν 3) f.b2 f.x2)
      let sa := fadd (ν 7) (fmul (ν 5) f.a1 f.y1) (fmul (ν 6) f.a2 f.y2)
      let y := fsub (ν 8) sb sa
      exec (.lpf2Run i) ⟨F, s⟩ = .next
        ⟨F, { s with
          banks := { s.banks with
            lpf2 := s.banks.lpf2.set i.toNat { f with x1 := s.args.a0, x2 := f.x1, y1 := y, y2 := f.y1 } }
          draws := s.draws + 1
          resp := some { status := .ok, results := [y] } }⟩

/-- R152, R157. `LPF1.SETIC` and `LPF2.SETIC` seed the delay line and change nothing else. -/
def Obligations.SeticSeedsTheDelayLine : Prop :=
  (∀ (F : FloatFormat) (s : Block F) (i : Byte) (f : Lpf1Regs F), s.banks.lpf1[i.toNat]? = some f →
    exec (.lpf1Setic i) ⟨F, s⟩ = .next
      ⟨F, { s with
        banks := { s.banks with lpf1 := s.banks.lpf1.set i.toNat { f with x1 := s.args.a0, y1 := s.args.a1 } }
        resp := some { status := .ok, results := [] } }⟩) ∧
  (∀ (F : FloatFormat) (s : Block F) (i : Byte) (f : Lpf2Regs F), s.banks.lpf2[i.toNat]? = some f →
    exec (.lpf2Setic i) ⟨F, s⟩ = .next
      ⟨F, { s with
        banks := { s.banks with
          lpf2 := s.banks.lpf2.set i.toNat
            { f with x1 := s.args.a0, x2 := s.args.a1, y1 := s.args.a2, y2 := s.args.a3 } }
        resp := some { status := .ok, results := [] } }⟩)

/-- R158, R159. `LPF2.RD` and `LPF2.WR` by the numbers of R31. -/
def Obligations.Lpf2RegistersReadAndWrite : Prop :=
  ∀ (F : FloatFormat) (s : Block F) (i r : Byte) (f : Lpf2Regs F), s.banks.lpf2[i.toNat]? = some f →
    (∀ v, (r.toNat, v) ∈ f.table → exec (.lpf2Rd i r) ⟨F, s⟩ = .next ⟨F, s.answered [v]⟩) ∧
    (0x09 ≤ r.toNat → exec (.lpf2Rd i r) ⟨F, s⟩ = .next ⟨F, s.refusedWith .badRegister⟩ ∧
      exec (.lpf2Wr i r) ⟨F, s⟩ = .next ⟨F, s.refusedWith .badRegister⟩) ∧
    (∀ f', (r.toNat, f') ∈ f.writeTable s.args.a0 →
      exec (.lpf2Wr i r) ⟨F, s⟩ = .next
        ⟨F, { s with
          banks := { s.banks with lpf2 := s.banks.lpf2.set i.toNat f' }
          resp := some { status := .ok, results := [] } }⟩)

/-- R32. A coefficient of a stand-alone filter changes in a step only by its bank's `WR` to that instance, or by reset. -/
def Obligations.FilterCoefficientsChangeOnlyByWr : Prop :=
  ∀ (i : Instr) (F : FloatFormat) (s t : Block F) (k : Nat), exec i ⟨F, s⟩ = .next ⟨F, t⟩ →
    (∀ f f', s.banks.lpf1[k]? = some f → t.banks.lpf1[k]? = some f' →
      (f'.b0, f'.b1, f'.a1) ≠ (f.b0, f.b1, f.a1) → ∃ x r : Byte, i = .lpf1Wr x r ∧ x.toNat = k) ∧
    (∀ f f', s.banks.lpf2[k]? = some f → t.banks.lpf2[k]? = some f' →
      (f'.b0, f'.b1, f'.b2, f'.a1, f'.a2) ≠ (f.b0, f.b1, f.b2, f.a1, f.a2) →
      ∃ x r : Byte, i = .lpf2Wr x r ∧ x.toNat = k)

/-- R26, R29. An integrator, and the memory of a filter embedded in a controller, changes only by its own controller's
`RUN` and `RESET`. -/
def Obligations.IntegratorsChangeOnlyByRunAndReset : Prop :=
  ∀ (i : Instr) (F : FloatFormat) (s t : Block F) (k : Nat), exec i ⟨F, s⟩ = .next ⟨F, t⟩ →
    (∀ c c', s.banks.pi[k]? = some c → t.banks.pi[k]? = some c' → c'.integ ≠ c.integ →
      ∃ x : Byte, (i = .piRun x ∨ i = .piReset x) ∧ x.toNat = k) ∧
    (∀ c c', s.banks.pid[k]? = some c → t.banks.pid[k]? = some c' →
      (c'.integ, c'.dX1, c'.dY1) ≠ (c.integ, c.dX1, c.dY1) →
      ∃ x : Byte, (i = .pidRun x ∨ i = .pidReset x) ∧ x.toNat = k) ∧
    (∀ l l' cc cc', s.banks.cc = .pi l → t.banks.cc = .pi l' → l[k]? = some cc → l'[k]? = some cc' →
      (cc'.d.integ, cc'.q.integ) ≠ (cc.d.integ, cc.q.integ) →
      ∃ x : Byte, (i = .ccRunsc x ∨ i = .ccRuna x ∨ i = .ccReset x) ∧ x.toNat = k) ∧
    (∀ l l' cc cc', s.banks.cc = .pid l → t.banks.cc = .pid l' → l[k]? = some cc → l'[k]? = some cc' →
      (cc'.d.integ, cc'.d.dX1, cc'.d.dY1, cc'.q.integ, cc'.q.dX1, cc'.q.dY1) ≠
        (cc.d.integ, cc.d.dX1, cc.d.dY1, cc.q.integ, cc.q.dX1, cc.q.dY1) →
      ∃ x : Byte, (i = .ccRunsc x ∨ i = .ccRuna x ∨ i = .ccReset x) ∧ x.toNat = k)

/-! ## Transforms -/

/-- R171. `CLARKE` in both modes: for some NaNs the results are those of the formula, and no register changes. In `TWO` mode
`alpha` is `A0` bit for bit and `A2` is not read. -/
def Obligations.ClarkeAnswersAlphaBeta : Prop :=
  ∀ (F : FloatFormat) (s : Block F), ∃ ν : Nat → Val F,
    let a := s.args
    (s.params.clarkeMode = .three →
      exec .clarke ⟨F, s⟩ = .next
        ⟨F, { s with
          draws := s.draws + 1
          resp := some { status := .ok, results :=
            [fsub (ν 3) (fmul (ν 0) c23 a.a0) (fmul (ν 2) c13 (fadd (ν 1) a.a1 a.a2)),
              fdiv (ν 5) (fsub (ν 4) a.a1 a.a2) cSqrt3] } }⟩) ∧
    (s.params.clarkeMode = .two →
      exec .clarke ⟨F, s⟩ = .next
        ⟨F, { s with
          draws := s.draws + 1
          resp := some { status := .ok, results :=
            [a.a0, fadd (ν 3) (fdiv (ν 0) a.a0 cSqrt3)
              (fdiv (ν 2) (fmul (ν 1) cTwo a.a1) cSqrt3)] } }⟩)

/-- R172. `ICLARKE`: `iA` is `A0` bit for bit (the spec's own inference, `[derived: from rule R171 and rule R175]`), and for
some NaNs `iB` and `iC` are those of the formula; no register changes. -/
def Obligations.InverseClarkeAnswersThreePhases : Prop :=
  ∀ (F : FloatFormat) (s : Block F), ∃ ν : Nat → Val F,
    let h := fmul (ν 0) cNegHalf s.args.a0
    let k := fmul (ν 1) cSqrt32 s.args.a1
    exec .iclarke ⟨F, s⟩ = .next
      ⟨F, { s with
        draws := s.draws + 1
        resp := some { status := .ok, results := [s.args.a0, fadd (ν 2) h k, fsub (ν 3) h k] } }⟩

/-- R173, R174. `PARK` and `IPARK` in the spec's sign convention (log entry 11): for some NaNs the results are those of the
two formulas; no register changes. -/
def Obligations.ParkAndInverseParkRotate : Prop :=
  ∀ (F : FloatFormat) (s : Block F), ∃ ν : Nat → Val F,
    let a := s.args
    exec .park ⟨F, s⟩ = .next
      ⟨F, { s with
        draws := s.draws + 1
        resp := some { status := .ok, results :=
          [fadd (ν 2) (fmul (ν 0) a.a0 a.a3) (fmul (ν 1) a.a1 a.a2),
            fsub (ν 5) (fmul (ν 3) a.a1 a.a3) (fmul (ν 4) a.a0 a.a2)] } }⟩ ∧
    exec .ipark ⟨F, s⟩ = .next
      ⟨F, { s with
        draws := s.draws + 1
        resp := some { status := .ok, results :=
          [fsub (ν 2) (fmul (ν 0) a.a0 a.a3) (fmul (ν 1) a.a1 a.a2),
            fadd (ν 5) (fmul (ν 3) a.a0 a.a2) (fmul (ν 4) a.a1 a.a3)] } }⟩

/-- R170. A transform writes no register, and its response depends on its operand words alone, up to the NaNs drawn: two
machines with the same operands, draws and static parameters answer alike whatever their registers hold. That the NaNs of
one draw are the same in both machines is the model's choice of log entry 2. -/
def Obligations.TransformsReadOnlyTheirOperands : Prop :=
  ∀ (i : Instr) (F : FloatFormat) (s s' : Block F), names i = none → s.args = s'.args → s.draws = s'.draws →
    s.params = s'.params →
    ∃ t t' rs, exec i ⟨F, s⟩ = .next ⟨F, t⟩ ∧ exec i ⟨F, s'⟩ = .next ⟨F, t'⟩ ∧ t.banks = s.banks ∧ t'.banks = s'.banks ∧
      t.resp = some { status := .ok, results := rs } ∧ t'.resp = some { status := .ok, results := rs }

/-! ## Current controller -/

/-- R191, R192. `CC.RUNSC` with either kind of controller: for some NaNs each axis runs the control law of its kind on its
reference and measurement with feedforward `+0.0`; the inverse Park transform of the two outputs (in the convention of log
entry 11) is stored and answered; nothing else changes. -/
def Obligations.CcRunscTicksBothAxes : Prop :=
  (∀ (F : FloatFormat) (s : Block F) (j : Byte) (l : List (CcRegs F (PiRegs F))) (cc : CcRegs F (PiRegs F)),
    s.banks.cc = .pi l →
    l[j.toNat]? = some cc → limitsOk cc.d.outMin cc.d.outMax = true → limitsOk cc.q.outMin cc.q.outMax = true →
    ∃ νd νq ν : Nat → Val F,
      let d := piRun νd cc.d cc.idRef s.args.a0 zeroF
      let q := piRun νq cc.q cc.iqRef s.args.a1 zeroF
      let va := fsub (ν 2) (fmul (ν 0) d.2 s.args.a3) (fmul (ν 1) q.2 s.args.a2)
      let vb := fadd (ν 5) (fmul (ν 3) d.2 s.args.a2) (fmul (ν 4) q.2 s.args.a3)
      exec (.ccRunsc j) ⟨F, s⟩ = .next
        ⟨F, { s with
          banks := { s.banks with
            cc := .pi (l.set j.toNat { cc with d := d.1, q := q.1, vAlpha := va, vBeta := vb }) }
          draws := s.draws + 1
          resp := some { status := .ok, results := [va, vb] } }⟩) ∧
  (∀ (F : FloatFormat) (s : Block F) (j : Byte) (l : List (CcRegs F (PidRegs F))) (cc : CcRegs F (PidRegs F)),
    s.banks.cc = .pid l →
    l[j.toNat]? = some cc → limitsOk cc.d.outMin cc.d.outMax = true → limitsOk cc.q.outMin cc.q.outMax = true →
    ∃ νd νq ν : Nat → Val F,
      let d := pidRun s.params.dGate νd cc.d cc.idRef s.args.a0 zeroF
      let q := pidRun s.params.dGate νq cc.q cc.iqRef s.args.a1 zeroF
      let va := fsub (ν 2) (fmul (ν 0) d.2 s.args.a3) (fmul (ν 1) q.2 s.args.a2)
      let vb := fadd (ν 5) (fmul (ν 3) d.2 s.args.a2) (fmul (ν 4) q.2 s.args.a3)
      exec (.ccRunsc j) ⟨F, s⟩ = .next
        ⟨F, { s with
          banks := { s.banks with
            cc := .pid (l.set j.toNat { cc with d := d.1, q := q.1, vAlpha := va, vBeta := vb }) }
          draws := s.draws + 1
          resp := some { status := .ok, results := [va, vb] } }⟩)

/-- R193. `CC.RUNA` does what `CC.RUNSC` does with the sine and cosine that `SINCOS_DEG` gives for the angle `A2`; `A3` is
not read. The operand words at the port apart, the two leave the same machine. That they do so bit for bit, NaN words
included, is the model's choice of log entry 2 (the same NaNs at the same draw; R13 leaves them open), and so is, where the
limits are violated, the literal clamp of log entry 3 (U1). -/
def Obligations.CcRunaTicksWithTheBackendsSineAndCosine : Prop :=
  ∀ (F : FloatFormat) (s : Block F) (j : Byte), j.toNat < s.banks.cc.count →
    ∃ t u rs,
      exec (.ccRuna j) ⟨F, s⟩ = .next ⟨F, t⟩ ∧
      exec (.ccRunsc j)
        ⟨F, { s with args := { s.args with a2 := (Config.sincosDeg F s.args.a2).1, a3 := (Config.sincosDeg F s.args.a2).2 } }⟩ =
          .next ⟨F, u⟩ ∧
      { t with args := u.args } = u ∧ t.args = s.args ∧ t.resp = some { status := .ok, results := rs } ∧
      rs.length = 2

/-- R194. `CC.RD` answers the word of the register with the number of R33 and changes nothing; any other number is answered
`BAD_REGISTER`. -/
def Obligations.CcRdAnswersTheNamedRegister : Prop :=
  (∀ (F : FloatFormat) (s : Block F) (j r : Byte) (l : List (CcRegs F (PiRegs F))) (cc : CcRegs F (PiRegs F)),
    s.banks.cc = .pi l →
    l[j.toNat]? = some cc →
    (∀ v, (r.toNat, v) ∈ cc.table PiRegs.table → exec (.ccRd j r) ⟨F, s⟩ = .next ⟨F, s.answered [v]⟩) ∧
    (r.toNat ∉ ccRegNums .pi → exec (.ccRd j r) ⟨F, s⟩ = .next ⟨F, s.refusedWith .badRegister⟩)) ∧
  (∀ (F : FloatFormat) (s : Block F) (j r : Byte) (l : List (CcRegs F (PidRegs F))) (cc : CcRegs F (PidRegs F)),
    s.banks.cc = .pid l →
    l[j.toNat]? = some cc →
    (∀ v, (r.toNat, v) ∈ cc.table PidRegs.table → exec (.ccRd j r) ⟨F, s⟩ = .next ⟨F, s.answered [v]⟩) ∧
    (r.toNat ∉ ccRegNums .pid → exec (.ccRd j r) ⟨F, s⟩ = .next ⟨F, s.refusedWith .badRegister⟩))

/-- R195. `CC.WR` stores `A0` in the writable register with the number of R33 and changes nothing else; a read-only one is
answered `READ_ONLY`, a number with no register `BAD_REGISTER`. -/
def Obligations.CcWrStoresInTheNamedRegister : Prop :=
  (∀ (F : FloatFormat) (s : Block F) (j r : Byte) (l : List (CcRegs F (PiRegs F))) (cc : CcRegs F (PiRegs F)),
    s.banks.cc = .pi l →
    l[j.toNat]? = some cc →
    (∀ cc', (r.toNat, cc') ∈ cc.writeTable PiRegs.writeTable s.args.a0 →
      exec (.ccWr j r) ⟨F, s⟩ = .next
        ⟨F, { s with
          banks := { s.banks with cc := .pi (l.set j.toNat cc') }
          resp := some { status := .ok, results := [] } }⟩) ∧
    (r.toNat ∈ ccRegNums .pi → r.toNat ∈ ccReadOnlyNums → exec (.ccWr j r) ⟨F, s⟩ = .next ⟨F, s.refusedWith .readOnly⟩) ∧
    (r.toNat ∉ ccRegNums .pi → exec (.ccWr j r) ⟨F, s⟩ = .next ⟨F, s.refusedWith .badRegister⟩)) ∧
  (∀ (F : FloatFormat) (s : Block F) (j r : Byte) (l : List (CcRegs F (PidRegs F))) (cc : CcRegs F (PidRegs F)),
    s.banks.cc = .pid l →
    l[j.toNat]? = some cc →
    (∀ cc', (r.toNat, cc') ∈ cc.writeTable PidRegs.writeTable s.args.a0 →
      exec (.ccWr j r) ⟨F, s⟩ = .next
        ⟨F, { s with
          banks := { s.banks with cc := .pid (l.set j.toNat cc') }
          resp := some { status := .ok, results := [] } }⟩) ∧
    (r.toNat ∈ ccRegNums .pid → r.toNat ∈ ccReadOnlyNums → exec (.ccWr j r) ⟨F, s⟩ = .next ⟨F, s.refusedWith .readOnly⟩) ∧
    (r.toNat ∉ ccRegNums .pid → exec (.ccWr j r) ⟨F, s⟩ = .next ⟨F, s.refusedWith .badRegister⟩))

/-- R196. `CC.RESET` clears both embedded controllers and changes nothing else. -/
def Obligations.CcResetClearsBothControllers : Prop :=
  (∀ (F : FloatFormat) (s : Block F) (j : Byte) (l : List (CcRegs F (PiRegs F))) (cc : CcRegs F (PiRegs F)),
    s.banks.cc = .pi l →
    l[j.toNat]? = some cc →
    exec (.ccReset j) ⟨F, s⟩ = .next
      ⟨F, { s with
        banks := { s.banks with
          cc := .pi (l.set j.toNat
            { cc with
              d := { cc.d with integ := zeroF, spLast := zeroF, pvLast := zeroF, ffLast := zeroF }
              q := { cc.q with integ := zeroF, spLast := zeroF, pvLast := zeroF, ffLast := zeroF } }) }
        resp := some { status := .ok, results := [] } }⟩) ∧
  (∀ (F : FloatFormat) (s : Block F) (j : Byte) (l : List (CcRegs F (PidRegs F))) (cc : CcRegs F (PidRegs F)),
    s.banks.cc = .pid l →
    l[j.toNat]? = some cc →
    exec (.ccReset j) ⟨F, s⟩ = .next
      ⟨F, { s with
        banks := { s.banks with
          cc := .pid (l.set j.toNat
            { cc with
              d := { cc.d with
                integ := zeroF, spLast := zeroF, pvLast := zeroF, ffLast := zeroF, dX1 := zeroF, dY1 := zeroF }
              q := { cc.q with
                integ := zeroF, spLast := zeroF, pvLast := zeroF, ffLast := zeroF, dX1 := zeroF, dY1 := zeroF } }) }
        resp := some { status := .ok, results := [] } }⟩)

/-- R35. A current reference changes in an operation only by the `CC.WR` that names it: `idRef` by register `0x40`, `iqRef`
by register `0x41`, of that instance. -/
def Obligations.ReferencesHeldUntilWritten : Prop :=
  ∀ (i : Instr) (F : FloatFormat) (s t : Block F) (k : Nat), exec i ⟨F, s⟩ = .next ⟨F, t⟩ →
    (∀ l l' cc cc', s.banks.cc = .pi l → t.banks.cc = .pi l' → l[k]? = some cc → l'[k]? = some cc' →
      (cc'.idRef ≠ cc.idRef → ∃ x : Byte, i = .ccWr x 0x40 ∧ x.toNat = k) ∧
      (cc'.iqRef ≠ cc.iqRef → ∃ x : Byte, i = .ccWr x 0x41 ∧ x.toNat = k)) ∧
    (∀ l l' cc cc', s.banks.cc = .pid l → t.banks.cc = .pid l' → l[k]? = some cc → l'[k]? = some cc' →
      (cc'.idRef ≠ cc.idRef → ∃ x : Byte, i = .ccWr x 0x40 ∧ x.toNat = k) ∧
      (cc'.iqRef ≠ cc.iqRef → ∃ x : Byte, i = .ccWr x 0x41 ∧ x.toNat = k))

/-- R190, R192, with valid limits (U1). The axes are independent: after a tick the q controller's registers are what they
are for any other d measurement, d controller and d reference, and the d controller's what they are for any other q
measurement, q controller and q reference, sine and cosine apart in both; and a NaN in either measurement makes both result
words NaN. That the registers agree bit for bit, NaN words included, is the model's choice of log entry 2 (the same NaNs at
the same draw). -/
def Obligations.CcAxesAreIndependent : Prop :=
  (∀ (F : FloatFormat) (s s' : Block F) (j : Byte) (l l' : List (CcRegs F (PiRegs F))) (cc cc' : CcRegs F (PiRegs F)),
    s.banks.cc = .pi l → s'.banks.cc = .pi l' → l[j.toNat]? = some cc → l'[j.toNat]? = some cc' →
    limitsOk cc.d.outMin cc.d.outMax = true → limitsOk cc.q.outMin cc.q.outMax = true →
    limitsOk cc'.d.outMin cc'.d.outMax = true → limitsOk cc'.q.outMin cc'.q.outMax = true → s.draws = s'.draws →
    ∃ t t' m m' u u' va vb,
      exec (.ccRunsc j) ⟨F, s⟩ = .next ⟨F, t⟩ ∧ exec (.ccRunsc j) ⟨F, s'⟩ = .next ⟨F, t'⟩ ∧
      t.banks.cc = .pi m ∧ t'.banks.cc = .pi m' ∧ m[j.toNat]? = some u ∧ m'[j.toNat]? = some u' ∧
      (cc.q = cc'.q → cc.iqRef = cc'.iqRef → s.args.a1 = s'.args.a1 → u.q = u'.q) ∧
      (cc.d = cc'.d → cc.idRef = cc'.idRef → s.args.a0 = s'.args.a0 → u.d = u'.d) ∧
      t.resp = some { status := .ok, results := [va, vb] } ∧
      (isNaN s.args.a0 = true ∨ isNaN s.args.a1 = true → isNaN va = true ∧ isNaN vb = true)) ∧
  (∀ (F : FloatFormat) (s s' : Block F) (j : Byte) (l l' : List (CcRegs F (PidRegs F))) (cc cc' : CcRegs F (PidRegs F)),
    s.banks.cc = .pid l → s'.banks.cc = .pid l' → l[j.toNat]? = some cc → l'[j.toNat]? = some cc' →
    limitsOk cc.d.outMin cc.d.outMax = true → limitsOk cc.q.outMin cc.q.outMax = true →
    limitsOk cc'.d.outMin cc'.d.outMax = true → limitsOk cc'.q.outMin cc'.q.outMax = true → s.draws = s'.draws →
    s.params.dGate = s'.params.dGate →
    ∃ t t' m m' u u' va vb,
      exec (.ccRunsc j) ⟨F, s⟩ = .next ⟨F, t⟩ ∧ exec (.ccRunsc j) ⟨F, s'⟩ = .next ⟨F, t'⟩ ∧
      t.banks.cc = .pid m ∧ t'.banks.cc = .pid m' ∧ m[j.toNat]? = some u ∧ m'[j.toNat]? = some u' ∧
      (cc.q = cc'.q → cc.iqRef = cc'.iqRef → s.args.a1 = s'.args.a1 → u.q = u'.q) ∧
      (cc.d = cc'.d → cc.idRef = cc'.idRef → s.args.a0 = s'.args.a0 → u.d = u'.d) ∧
      t.resp = some { status := .ok, results := [va, vb] } ∧
      (isNaN s.args.a0 = true ∨ isNaN s.args.a1 = true → isNaN va = true ∧ isNaN vb = true))

/-! ## SVPWM modulator -/

/-- R211, R212. `SVM.SETVREF` stores the vector, `SVM.ALLOWOVM` the flag, and nothing else changes. -/
def Obligations.SvmSettersStoreTheVectorAndTheFlag : Prop :=
  ∀ (F : FloatFormat) (s : Block F) (i : Byte) (flag : Bool) (m : SvmRegs F), s.banks.svm[i.toNat]? = some m →
    exec (.svmSetvref i) ⟨F, s⟩ = .next
      ⟨F, { s with
        banks := { s.banks with svm := s.banks.svm.set i.toNat { m with va := s.args.a0, vb := s.args.a1 } }
        resp := some { status := .ok, results := [] } }⟩ ∧
    exec (.svmAllowovm i flag) ⟨F, s⟩ = .next
      ⟨F, { s with
        banks := { s.banks with svm := s.banks.svm.set i.toNat { m with ovm := flag } }
        resp := some { status := .ok, results := [] } }⟩

/-- R213, R214, R219. `SVM.RUN`: for some NaNs, the vector limited unless overmodulation is allowed, the sector, the duties
of the sector or all zero where none is recognised, each clamped to `[0, 1]`; nothing else changes, the stored vector
neither. -/
def Obligations.SvmRunStoresClampedDuties : Prop :=
  ∀ (F : FloatFormat) (s : Block F) (i : Byte) (m : SvmRegs F), s.banks.svm[i.toNat]? = some m →
    ∃ ν : Nat → Val F,
      let len := fsqrtOf s.params.sqrt (ν 3) (fadd (ν 2) (fmul (ν 0) m.va m.va) (fmul (ν 1) m.vb m.vb))
      let k := fdiv (ν 4) cSqrt32 len
      let limited := m.ovm = false ∧ fgt len cSqrt32 = true
      let a := if limited then fmul (ν 5) m.va k else m.va
      let b := if limited then fmul (ν 6) m.vb k else m.vb
      let t := match svmSector m.variant a b with
        | none => (zeroF, zeroF, zeroF)
        | some sec => svmDuty m.variant sec a b
      exec (.svmRun i) ⟨F, s⟩ = .next
        ⟨F, { s with
          banks := { s.banks with
            svm := s.banks.svm.set i.toNat
              { m with
                dA := clamp t.1 zeroF cOne
                dB := clamp t.2.1 zeroF cOne
                dC := clamp t.2.2 zeroF cOne } }
          resp := some { status := .ok, results := [] } }⟩

/-- R215, R216, R217. `SVM.GETA`, `SVM.GETB`, `SVM.GETC` answer the stored duty and change nothing. -/
def Obligations.SvmGettersAnswerTheStoredDuties : Prop :=
  ∀ (F : FloatFormat) (s : Block F) (i : Byte) (m : SvmRegs F), s.banks.svm[i.toNat]? = some m →
    exec (.svmGeta i) ⟨F, s⟩ = .next ⟨F, s.answered [m.dA]⟩ ∧ exec (.svmGetb i) ⟨F, s⟩ = .next ⟨F, s.answered [m.dB]⟩ ∧
    exec (.svmGetc i) ⟨F, s⟩ = .next ⟨F, s.answered [m.dC]⟩

/-- R214, R218 (a). At the null vector, each component a zero of either sign, `SVM.RUN` stores exactly `0.5` three times,
for every algorithm, with overmodulation allowed or not, and with every square-root backend. That the open sector tests and
duty formulas have the property R218 (a) is built in (log entry 8). -/
def Obligations.NullVectorGivesHalfDuties : Prop :=
  ∀ (F : FloatFormat) (s : Block F) (i : Byte) (m : SvmRegs F), s.banks.svm[i.toNat]? = some m → isZero m.va = true →
    isZero m.vb = true →
    ∃ t, exec (.svmRun i) ⟨F, s⟩ = .next ⟨F, t⟩ ∧
      t.banks.svm[i.toNat]? = some { m with dA := halfF, dB := halfF, dC := halfF }

/-- R42. What `SVM.RUN` stores depends on the vector, the flag and the algorithm of the instance, never on its duties or on
anything else of the machine but what was fixed when it was built: the format and the square root. The NaNs of a run are
taken so that this holds (log entry 2). -/
def Obligations.SvmRunForgetsEarlierDuties : Prop :=
  ∀ (F : FloatFormat) (s s' : Block F) (i i' : Byte) (m m' : SvmRegs F), s.banks.svm[i.toNat]? = some m →
    s'.banks.svm[i'.toNat]? = some m' → m.va = m'.va → m.vb = m'.vb → m.ovm = m'.ovm → m.variant = m'.variant →
    s.params.sqrt = s'.params.sqrt →
    ∃ t t' n n', exec (.svmRun i) ⟨F, s⟩ = .next ⟨F, t⟩ ∧ exec (.svmRun i') ⟨F, s'⟩ = .next ⟨F, t'⟩ ∧
      t.banks.svm[i.toNat]? = some n ∧ t'.banks.svm[i'.toNat]? = some n' ∧ n = n'

/-- R214: "running twice with no `SETVREF` or `ALLOWOVM` between gives the same duties", for every stored vector, infinite
and NaN components among them: a second `SVM.RUN` right after the first changes no register at all; and after any operations
in between, on any operand words, of which none is a `SETVREF` or `ALLOWOVM` of the instance, it stores in the instance what
the first stored. -/
def Obligations.SvmRunTwiceStoresTheSameDuties : Prop :=
  ∀ (F : FloatFormat) (s t u v : Block F) (i : Byte) (ops : List (Instr × Args F)),
    exec (.svmRun i) ⟨F, s⟩ = .next ⟨F, t⟩ →
    (∀ p ∈ ops, p.1 ≠ .svmSetvref i ∧ ∀ flag, p.1 ≠ .svmAllowovm i flag) → performs ops t u →
    exec (.svmRun i) ⟨F, u⟩ = .next ⟨F, v⟩ →
    v.banks.svm[i.toNat]? = t.banks.svm[i.toNat]? ∧ (ops = [] → v.banks = t.banks)

/-- R44. The flag of a modulator changes in an operation only by its own `SVM.ALLOWOVM`. -/
def Obligations.OvmWrittenOnlyByAllowovm : Prop :=
  ∀ (i : Instr) (F : FloatFormat) (s t : Block F) (k : Nat) (m m' : SvmRegs F), exec i ⟨F, s⟩ = .next ⟨F, t⟩ →
    s.banks.svm[k]? = some m →
    t.banks.svm[k]? = some m' → m'.ovm ≠ m.ovm → ∃ x : Byte, i = .svmAllowovm x m'.ovm ∧ x.toNat = k

/-! ## Arithmetic -/

/-- R12, in every format. On finite operands each primitive gives the number of `F` nearest to the exact result, ties to
even, rounded once, subnormals kept, overflow an infinity; an exact zero sum is `+0.0` but for two zeros with the sign bit
set. `inf - inf`, `0 × inf`, `0/0`, `inf/inf` and any NaN operand give a NaN; the other special operands give the IEEE zeros
and infinities. -/
def Obligations.ArithmeticIsIeee : Prop :=
  ∀ (F : FloatFormat) (ν a b : Val F),
    (isFinite a = true → isFinite b = true → intOf a + intOf b ≠ 0 →
      signBit (fadd ν a b) = decide (intOf a + intOf b < 0) ∧
      IsNearest F |((intOf a + intOf b : Int) : ℝ)| (magBits (fadd ν a b))) ∧
    (isFinite a = true → isFinite b = true → intOf a + intOf b = 0 →
      isZero (fadd ν a b) = true ∧ signBit (fadd ν a b) = (signBit a && signBit b)) ∧
    (isFinite a = true → isFinite b = true → intOf a - intOf b ≠ 0 →
      signBit (fsub ν a b) = decide (intOf a - intOf b < 0) ∧
      IsNearest F |((intOf a - intOf b : Int) : ℝ)| (magBits (fsub ν a b))) ∧
    (isFinite a = true → isFinite b = true → intOf a - intOf b = 0 →
      isZero (fsub ν a b) = true ∧ signBit (fsub ν a b) = (signBit a && !signBit b)) ∧
    (isFinite a = true → isFinite b = true →
      signBit (fmul ν a b) = (signBit a != signBit b) ∧
      IsNearest F ((unitsOf F (magBits a) : ℝ) * unitsOf F (magBits b) / 2 ^ unitExp F) (magBits (fmul ν a b))) ∧
    (isFinite a = true → isFinite b = true → isZero b = false →
      signBit (fdiv ν a b) = (signBit a != signBit b) ∧
      IsNearest F ((unitsOf F (magBits a) : ℝ) * 2 ^ unitExp F / unitsOf F (magBits b)) (magBits (fdiv ν a b))) ∧
    (isNaN a = true ∨ isNaN b = true →
      isNaN (fadd ν a b) = true ∧ isNaN (fsub ν a b) = true ∧ isNaN (fmul ν a b) = true ∧ isNaN (fdiv ν a b) = true) ∧
    (isInf a = true → isInf b = true →
      (signBit a ≠ signBit b → isNaN (fadd ν a b) = true ∧ fsub ν a b = a) ∧
      (signBit a = signBit b → fadd ν a b = a ∧ isNaN (fsub ν a b) = true) ∧
      isNaN (fdiv ν a b) = true) ∧
    (isInf a = true → isFinite b = true → fadd ν a b = a ∧ fsub ν a b = a ∧ isInf (fdiv ν a b) = true) ∧
    (isFinite a = true → isInf b = true → fadd ν a b = b ∧ fsub ν a b = fneg b ∧ isZero (fdiv ν a b) = true) ∧
    (isZero a = true → isInf b = true → isNaN (fmul ν a b) = true ∧ isNaN (fmul ν b a) = true) ∧
    (isNaN a = false → isZero a = false → isInf b = true → isInf (fmul ν a b) = true ∧ isInf (fmul ν b a) = true) ∧
    (isZero a = true → isZero b = true → isNaN (fdiv ν a b) = true) ∧
    (isFinite a = true → isZero a = false → isZero b = true → isInf (fdiv ν a b) = true) ∧
    (isNaN a = false → isNaN b = false → isNaN (fmul ν a b) = false →
      signBit (fmul ν a b) = (signBit a != signBit b)) ∧
    (isNaN a = false → isNaN b = false → isNaN (fdiv ν a b) = false →
      signBit (fdiv ν a b) = (signBit a != signBit b))

/-- The default of `SQRT` (R8) is the correctly rounded square root of a finite word without a sign bit; of a zero it is the
zero, of `+inf` it is `+inf`, of a NaN or another value with the sign bit set a NaN. -/
def Obligations.SquareRootIsCorrectlyRounded : Prop :=
  ∀ (F : FloatFormat) (ν a : Val F),
    (isFinite a = true → signBit a = false →
      signBit (fsqrt ν a) = false ∧
      IsNearest F (Real.sqrt ((unitsOf F (magBits a) : ℝ) * 2 ^ unitExp F)) (magBits (fsqrt ν a))) ∧
    (isZero a = true → fsqrt ν a = a) ∧ (isInf a = true → signBit a = false → fsqrt ν a = a) ∧
    (isNaN a = true ∨ (signBit a = true ∧ isZero a = false) → isNaN (fsqrt ν a) = true)

/-- R14, in every format. All three comparisons are false when an operand is a NaN; on finite words they compare the values;
an infinity is beyond every finite value, and of two infinities those of one sign are equal and the negative one is below
the positive; the zeros are equal; `fneg` flips the sign bit and nothing else. -/
def Obligations.ComparisonsFollowTheValues : Prop :=
  ∀ (F : FloatFormat) (a b : Val F),
    (isNaN a = true ∨ isNaN b = true → flt a b = false ∧ fgt a b = false ∧ feq a b = false) ∧
    (isFinite a = true → isFinite b = true →
      (flt a b = true ↔ intOf a < intOf b) ∧ (fgt a b = true ↔ intOf b < intOf a) ∧
      (feq a b = true ↔ intOf a = intOf b)) ∧
    (isInf a = true → isFinite b = true →
      flt b a = !signBit a ∧ fgt a b = !signBit a ∧ flt a b = signBit a ∧ fgt b a = signBit a ∧ feq a b = false ∧
      feq b a = false) ∧
    (isInf a = true → isInf b = true →
      (feq a b = true ↔ a = b) ∧ (flt a b = true ↔ signBit a = true ∧ signBit b = false) ∧
      (fgt a b = true ↔ signBit a = false ∧ signBit b = true)) ∧
    feq (zeroF : Val F) (fneg zeroF) = true ∧ flt (fneg zeroF) (zeroF : Val F) = false ∧
    signBit (fneg a) = !signBit a ∧ magBits (fneg a) = magBits a

/-- R15. `clamp` answers one of its arguments unchanged, the lower bound tested first; a NaN value passes as it is; a NaN
bound never clamps; `clamp (-0.0) (+0.0) hi` is `-0.0` for an `hi` that is not below it; and with `lo ≤ hi` a value that is
no NaN ends within them. -/
def Obligations.ClampSelectsByComparison : Prop :=
  ∀ (F : FloatFormat) (v lo hi : Val F),
    (flt v lo = true → clamp v lo hi = lo) ∧ (flt v lo = false → fgt v hi = true → clamp v lo hi = hi) ∧
    (flt v lo = false → fgt v hi = false → clamp v lo hi = v) ∧
    (isNaN v = true → clamp v lo hi = v) ∧
    (isNaN lo = true → clamp v lo hi = v ∨ clamp v lo hi = hi) ∧
    (isNaN hi = true → clamp v lo hi = v ∨ clamp v lo hi = lo) ∧
    (fgt (fneg zeroF) hi = false → clamp (fneg zeroF) zeroF hi = fneg zeroF) ∧
    (limitsOk lo hi = true → isNaN v = false → within (clamp v lo hi) lo hi = true)

/-- R16. In every format each constant is the value nearest the real number it stands for (of which those that are sums of
few powers of two are values of every format), and with binary32 it is the word of the table. A unit is `2^-unitExp`. -/
def Obligations.ConstantsAreNearestToTheirReals : Prop :=
  (∀ F : FloatFormat,
    IsNearest F (2 / 3 * 2 ^ unitExp F) (magBits (c23 : Val F)) ∧ signBit (c23 : Val F) = false ∧
    IsNearest F (1 / 3 * 2 ^ unitExp F) (magBits (c13 : Val F)) ∧ signBit (c13 : Val F) = false ∧
    IsNearest F (Real.sqrt 3 * 2 ^ unitExp F) (magBits (cSqrt3 : Val F)) ∧ signBit (cSqrt3 : Val F) = false ∧
    IsNearest F (Real.sqrt 3 / 2 * 2 ^ unitExp F) (magBits (cSqrt32 : Val F)) ∧ signBit (cSqrt32 : Val F) = false ∧
    2 * intOf (halfF : Val F) = 2 ^ unitExp F ∧ 2 * intOf (cNegHalf : Val F) = -2 ^ unitExp F ∧
    intOf (cTwo : Val F) = 2 * 2 ^ unitExp F ∧ intOf (cOne : Val F) = 2 ^ unitExp F ∧
    isFinite (cTwo : Val F) = true ∧ intOf (zeroF : Val F) = 0 ∧ signBit (zeroF : Val F) = false) ∧
  (c23 : Val .binary32) = 0x3F2AAAAB#32 ∧ (c13 : Val .binary32) = 0x3EAAAAAB#32 ∧
  (cSqrt3 : Val .binary32) = 0x3FDDB3D7#32 ∧ (cSqrt32 : Val .binary32) = 0x3F5DB3D7#32 ∧
  (halfF : Val .binary32) = 0x3F000000#32 ∧ (cNegHalf : Val .binary32) = 0xBF000000#32 ∧
  (cTwo : Val .binary32) = 0x40000000#32 ∧ (cOne : Val .binary32) = 0x3F800000#32 ∧
  (zeroF : Val .binary32) = 0x00000000#32
end

