-- ==== Sys2Proof/Laws/Decode.lean ====
section
/-! SUPPORT. Laws/Decode.lean: the command word as a number, its fields, and the must-be-zero test as a bound. -/

namespace Sys2Proof

theorem toNat_command (r i o : Byte) : (command r i o).toNat = r.toNat * 65536 + i.toNat * 256 + o.toNat := by
  have hi := i.isLt
  have ho := o.isLt
  change @BitVec.toNat (8 + 8 + 8 + 8) (0#8 ++ r ++ i ++ o) = _
  rw [BitVec.toNat_append, BitVec.toNat_append, BitVec.toNat_append,
    ← Nat.shiftLeft_add_eq_or_of_lt (by omega), ← Nat.shiftLeft_add_eq_or_of_lt (by omega)]
  simp [Nat.shiftLeft_eq]
  omega

theorem toNat_opcField (w : Word) : (opcField w).toNat = w.toNat % 256 := by
  simp [opcField]

theorem toNat_instField (w : Word) : (instField w).toNat = w.toNat / 256 % 256 := by
  simp [instField, Nat.shiftRight_eq_div_pow]

theorem toNat_regField (w : Word) : (regField w).toNat = w.toNat / 65536 % 256 := by
  simp [regField, Nat.shiftRight_eq_div_pow]

theorem flagField_eq (w : Word) : flagField w = decide (w.toNat / 65536 % 2 = 1) := by
  rw [flagField, ← BitVec.testBit_toNat, Nat.testBit_eq_decide_div_mod_eq]

@[simp] theorem opcField_command (r i o : Byte) : opcField (command r i o) = o := by
  apply BitVec.eq_of_toNat_eq
  rw [toNat_opcField, toNat_command]
  omega

@[simp] theorem instField_command (r i o : Byte) : instField (command r i o) = i := by
  apply BitVec.eq_of_toNat_eq
  rw [toNat_instField, toNat_command]
  omega

@[simp] theorem regField_command (r i o : Byte) : regField (command r i o) = r := by
  apply BitVec.eq_of_toNat_eq
  rw [toNat_regField, toNat_command]
  omega

theorem flagField_command (f : Bool) (i o : Byte) : flagField (command (if f then 1 else 0) i o) = f := by
  rw [flagField_eq, toNat_command]
  cases f <;> simp <;> omega

/-- A command word whose top byte is zero is the command of its own fields. -/
theorem command_fields (w : Word) (h : w.toNat < 2 ^ 24) : command (regField w) (instField w) (opcField w) = w := by
  apply BitVec.eq_of_toNat_eq
  rw [toNat_command, toNat_regField, toNat_instField, toNat_opcField]
  omega

/-- A number below `2^32` has none of the bits `k` to `31` exactly when it is below `2^k`. -/
theorem and_highMask_eq_zero {x k : Nat} (hx : x < 2 ^ 32) (hk : k ≤ 32) :
    x &&& ((2 ^ (32 - k) - 1) <<< k) = 0 ↔ x < 2 ^ k := by
  have h1 : x &&& ((2 ^ (32 - k) - 1) <<< k) = ((x >>> k) &&& (2 ^ (32 - k) - 1)) <<< k := by
    apply Nat.eq_of_testBit_eq
    intro j
    simp only [Nat.testBit_and, Nat.testBit_shiftLeft, Nat.testBit_shiftRight]
    by_cases hj : k ≤ j
    · simp [hj]
    · simp [hj]
  rw [h1, Nat.and_two_pow_sub_one_eq_mod, Nat.shiftRight_eq_div_pow, Nat.shiftLeft_eq, Nat.mod_eq_of_lt]
  · have := Nat.two_pow_pos k
    simp [Nat.div_eq_zero_iff]
  · rw [Nat.div_lt_iff_lt_mul (Nat.two_pow_pos k), ← Nat.pow_add]
    simpa [Nat.sub_add_cancel hk] using hx

/-- The bits of a word a format leaves free: it may be as large as this and no larger. -/
def Format.bound : Format → Nat
  | .n => 2 ^ 8
  | .i => 2 ^ 16
  | .r => 2 ^ 24
  | .f => 2 ^ 17

/-- The must-be-zero bits of a format are its highest bits. -/
theorem and_mbz_eq_zero (m : Format) (w : Word) : w &&& m.mbz = 0#32 ↔ w.toNat < m.bound := by
  have key : ∀ k ≤ 32, m.mbz.toNat = (2 ^ (32 - k) - 1) <<< k → m.bound = 2 ^ k →
      (w &&& m.mbz = 0#32 ↔ w.toNat < m.bound) := by
    intro k hk h1 h2
    rw [← BitVec.toNat_inj, BitVec.toNat_and, h1, h2]
    exact and_highMask_eq_zero w.isLt hk
  cases m with
  | n => exact key 8 (by decide) (by decide) rfl
  | i => exact key 16 (by decide) (by decide) rfl
  | r => exact key 24 (by decide) (by decide) rfl
  | f => exact key 17 (by decide) (by decide) rfl

/-- A format selects the operation exactly when the word has no must-be-zero bit set. -/
theorem select_eq_ok (m : Format) (w : Word) (x i : Instr) :
    m.select w x = .ok i ↔ w.toNat < m.bound ∧ x = i := by
  rw [← and_mbz_eq_zero, Format.select]
  split <;> simp [*]

theorem select_of_lt {m : Format} {w : Word} (h : w.toNat < m.bound) (x : Instr) : m.select w x = .ok x :=
  (select_eq_ok m w x x).mpr ⟨h, rfl⟩

end Sys2Proof
end

