-- ==== Sys2Proof/Laws/State.lean ====
section
/-! SUPPORT. Laws/State.lean: what each update of the state leaves in each field, so that no later proof unfolds a record
update. -/

namespace Sys2Proof.Machine

variable {F : FloatFormat}

@[simp] theorem Block.setPi_pi (s : Block F) (i : Byte) (c : PiRegs F) : (s.setPi i c).banks.pi = s.banks.pi.set i.toNat c := rfl
@[simp] theorem Block.setPi_pid (s : Block F) (i : Byte) (c : PiRegs F) : (s.setPi i c).banks.pid = s.banks.pid := rfl
@[simp] theorem Block.setPi_lpf1 (s : Block F) (i : Byte) (c : PiRegs F) : (s.setPi i c).banks.lpf1 = s.banks.lpf1 := rfl
@[simp] theorem Block.setPi_lpf2 (s : Block F) (i : Byte) (c : PiRegs F) : (s.setPi i c).banks.lpf2 = s.banks.lpf2 := rfl
@[simp] theorem Block.setPi_cc (s : Block F) (i : Byte) (c : PiRegs F) : (s.setPi i c).banks.cc = s.banks.cc := rfl
@[simp] theorem Block.setPi_svm (s : Block F) (i : Byte) (c : PiRegs F) : (s.setPi i c).banks.svm = s.banks.svm := rfl
@[simp] theorem Block.setPi_params (s : Block F) (i : Byte) (c : PiRegs F) : (s.setPi i c).params = s.params := rfl
@[simp] theorem Block.setPi_draws (s : Block F) (i : Byte) (c : PiRegs F) : (s.setPi i c).draws = s.draws := rfl
@[simp] theorem Block.setPi_inbox (s : Block F) (i : Byte) (c : PiRegs F) : (s.setPi i c).inbox = s.inbox := rfl
@[simp] theorem Block.setPi_args (s : Block F) (i : Byte) (c : PiRegs F) : (s.setPi i c).args = s.args := rfl
@[simp] theorem Block.setPi_resp (s : Block F) (i : Byte) (c : PiRegs F) : (s.setPi i c).resp = s.resp := rfl

@[simp] theorem Block.setPid_pi (s : Block F) (i : Byte) (c : PidRegs F) : (s.setPid i c).banks.pi = s.banks.pi := rfl
@[simp] theorem Block.setPid_pid (s : Block F) (i : Byte) (c : PidRegs F) : (s.setPid i c).banks.pid = s.banks.pid.set i.toNat c := rfl
@[simp] theorem Block.setPid_lpf1 (s : Block F) (i : Byte) (c : PidRegs F) : (s.setPid i c).banks.lpf1 = s.banks.lpf1 := rfl
@[simp] theorem Block.setPid_lpf2 (s : Block F) (i : Byte) (c : PidRegs F) : (s.setPid i c).banks.lpf2 = s.banks.lpf2 := rfl
@[simp] theorem Block.setPid_cc (s : Block F) (i : Byte) (c : PidRegs F) : (s.setPid i c).banks.cc = s.banks.cc := rfl
@[simp] theorem Block.setPid_svm (s : Block F) (i : Byte) (c : PidRegs F) : (s.setPid i c).banks.svm = s.banks.svm := rfl
@[simp] theorem Block.setPid_params (s : Block F) (i : Byte) (c : PidRegs F) : (s.setPid i c).params = s.params := rfl
@[simp] theorem Block.setPid_draws (s : Block F) (i : Byte) (c : PidRegs F) : (s.setPid i c).draws = s.draws := rfl
@[simp] theorem Block.setPid_inbox (s : Block F) (i : Byte) (c : PidRegs F) : (s.setPid i c).inbox = s.inbox := rfl
@[simp] theorem Block.setPid_args (s : Block F) (i : Byte) (c : PidRegs F) : (s.setPid i c).args = s.args := rfl
@[simp] theorem Block.setPid_resp (s : Block F) (i : Byte) (c : PidRegs F) : (s.setPid i c).resp = s.resp := rfl

@[simp] theorem Block.setLpf1_pi (s : Block F) (i : Byte) (f : Lpf1Regs F) : (s.setLpf1 i f).banks.pi = s.banks.pi := rfl
@[simp] theorem Block.setLpf1_pid (s : Block F) (i : Byte) (f : Lpf1Regs F) : (s.setLpf1 i f).banks.pid = s.banks.pid := rfl
@[simp] theorem Block.setLpf1_lpf1 (s : Block F) (i : Byte) (f : Lpf1Regs F) : (s.setLpf1 i f).banks.lpf1 = s.banks.lpf1.set i.toNat f := rfl
@[simp] theorem Block.setLpf1_lpf2 (s : Block F) (i : Byte) (f : Lpf1Regs F) : (s.setLpf1 i f).banks.lpf2 = s.banks.lpf2 := rfl
@[simp] theorem Block.setLpf1_cc (s : Block F) (i : Byte) (f : Lpf1Regs F) : (s.setLpf1 i f).banks.cc = s.banks.cc := rfl
@[simp] theorem Block.setLpf1_svm (s : Block F) (i : Byte) (f : Lpf1Regs F) : (s.setLpf1 i f).banks.svm = s.banks.svm := rfl
@[simp] theorem Block.setLpf1_params (s : Block F) (i : Byte) (f : Lpf1Regs F) : (s.setLpf1 i f).params = s.params := rfl
@[simp] theorem Block.setLpf1_draws (s : Block F) (i : Byte) (f : Lpf1Regs F) : (s.setLpf1 i f).draws = s.draws := rfl
@[simp] theorem Block.setLpf1_inbox (s : Block F) (i : Byte) (f : Lpf1Regs F) : (s.setLpf1 i f).inbox = s.inbox := rfl
@[simp] theorem Block.setLpf1_args (s : Block F) (i : Byte) (f : Lpf1Regs F) : (s.setLpf1 i f).args = s.args := rfl
@[simp] theorem Block.setLpf1_resp (s : Block F) (i : Byte) (f : Lpf1Regs F) : (s.setLpf1 i f).resp = s.resp := rfl

@[simp] theorem Block.setLpf2_pi (s : Block F) (i : Byte) (f : Lpf2Regs F) : (s.setLpf2 i f).banks.pi = s.banks.pi := rfl
@[simp] theorem Block.setLpf2_pid (s : Block F) (i : Byte) (f : Lpf2Regs F) : (s.setLpf2 i f).banks.pid = s.banks.pid := rfl
@[simp] theorem Block.setLpf2_lpf1 (s : Block F) (i : Byte) (f : Lpf2Regs F) : (s.setLpf2 i f).banks.lpf1 = s.banks.lpf1 := rfl
@[simp] theorem Block.setLpf2_lpf2 (s : Block F) (i : Byte) (f : Lpf2Regs F) : (s.setLpf2 i f).banks.lpf2 = s.banks.lpf2.set i.toNat f := rfl
@[simp] theorem Block.setLpf2_cc (s : Block F) (i : Byte) (f : Lpf2Regs F) : (s.setLpf2 i f).banks.cc = s.banks.cc := rfl
@[simp] theorem Block.setLpf2_svm (s : Block F) (i : Byte) (f : Lpf2Regs F) : (s.setLpf2 i f).banks.svm = s.banks.svm := rfl
@[simp] theorem Block.setLpf2_params (s : Block F) (i : Byte) (f : Lpf2Regs F) : (s.setLpf2 i f).params = s.params := rfl
@[simp] theorem Block.setLpf2_draws (s : Block F) (i : Byte) (f : Lpf2Regs F) : (s.setLpf2 i f).draws = s.draws := rfl
@[simp] theorem Block.setLpf2_inbox (s : Block F) (i : Byte) (f : Lpf2Regs F) : (s.setLpf2 i f).inbox = s.inbox := rfl
@[simp] theorem Block.setLpf2_args (s : Block F) (i : Byte) (f : Lpf2Regs F) : (s.setLpf2 i f).args = s.args := rfl
@[simp] theorem Block.setLpf2_resp (s : Block F) (i : Byte) (f : Lpf2Regs F) : (s.setLpf2 i f).resp = s.resp := rfl

@[simp] theorem Block.setCc_pi (s : Block F) (b : CcBank F) : (s.setCc b).banks.pi = s.banks.pi := rfl
@[simp] theorem Block.setCc_pid (s : Block F) (b : CcBank F) : (s.setCc b).banks.pid = s.banks.pid := rfl
@[simp] theorem Block.setCc_lpf1 (s : Block F) (b : CcBank F) : (s.setCc b).banks.lpf1 = s.banks.lpf1 := rfl
@[simp] theorem Block.setCc_lpf2 (s : Block F) (b : CcBank F) : (s.setCc b).banks.lpf2 = s.banks.lpf2 := rfl
@[simp] theorem Block.setCc_cc (s : Block F) (b : CcBank F) : (s.setCc b).banks.cc = b := rfl
@[simp] theorem Block.setCc_svm (s : Block F) (b : CcBank F) : (s.setCc b).banks.svm = s.banks.svm := rfl
@[simp] theorem Block.setCc_params (s : Block F) (b : CcBank F) : (s.setCc b).params = s.params := rfl
@[simp] theorem Block.setCc_draws (s : Block F) (b : CcBank F) : (s.setCc b).draws = s.draws := rfl
@[simp] theorem Block.setCc_inbox (s : Block F) (b : CcBank F) : (s.setCc b).inbox = s.inbox := rfl
@[simp] theorem Block.setCc_args (s : Block F) (b : CcBank F) : (s.setCc b).args = s.args := rfl
@[simp] theorem Block.setCc_resp (s : Block F) (b : CcBank F) : (s.setCc b).resp = s.resp := rfl

@[simp] theorem Block.setSvm_pi (s : Block F) (i : Byte) (m : SvmRegs F) : (s.setSvm i m).banks.pi = s.banks.pi := rfl
@[simp] theorem Block.setSvm_pid (s : Block F) (i : Byte) (m : SvmRegs F) : (s.setSvm i m).banks.pid = s.banks.pid := rfl
@[simp] theorem Block.setSvm_lpf1 (s : Block F) (i : Byte) (m : SvmRegs F) : (s.setSvm i m).banks.lpf1 = s.banks.lpf1 := rfl
@[simp] theorem Block.setSvm_lpf2 (s : Block F) (i : Byte) (m : SvmRegs F) : (s.setSvm i m).banks.lpf2 = s.banks.lpf2 := rfl
@[simp] theorem Block.setSvm_cc (s : Block F) (i : Byte) (m : SvmRegs F) : (s.setSvm i m).banks.cc = s.banks.cc := rfl
@[simp] theorem Block.setSvm_svm (s : Block F) (i : Byte) (m : SvmRegs F) : (s.setSvm i m).banks.svm = s.banks.svm.set i.toNat m := rfl
@[simp] theorem Block.setSvm_params (s : Block F) (i : Byte) (m : SvmRegs F) : (s.setSvm i m).params = s.params := rfl
@[simp] theorem Block.setSvm_draws (s : Block F) (i : Byte) (m : SvmRegs F) : (s.setSvm i m).draws = s.draws := rfl
@[simp] theorem Block.setSvm_inbox (s : Block F) (i : Byte) (m : SvmRegs F) : (s.setSvm i m).inbox = s.inbox := rfl
@[simp] theorem Block.setSvm_args (s : Block F) (i : Byte) (m : SvmRegs F) : (s.setSvm i m).args = s.args := rfl
@[simp] theorem Block.setSvm_resp (s : Block F) (i : Byte) (m : SvmRegs F) : (s.setSvm i m).resp = s.resp := rfl

@[simp] theorem Block.drawn_banks (s : Block F) : (s.drawn).banks = s.banks := rfl
@[simp] theorem Block.drawn_params (s : Block F) : (s.drawn).params = s.params := rfl
@[simp] theorem Block.drawn_draws (s : Block F) : (s.drawn).draws = s.draws + 1 := rfl
@[simp] theorem Block.drawn_inbox (s : Block F) : (s.drawn).inbox = s.inbox := rfl
@[simp] theorem Block.drawn_args (s : Block F) : (s.drawn).args = s.args := rfl
@[simp] theorem Block.drawn_resp (s : Block F) : (s.drawn).resp = s.resp := rfl

@[simp] theorem Block.take_banks (s : Block F) (r : Request F) (rest : List (Input F)) : (s.take r rest).banks = s.banks := rfl
@[simp] theorem Block.take_params (s : Block F) (r : Request F) (rest : List (Input F)) : (s.take r rest).params = s.params := rfl
@[simp] theorem Block.take_draws (s : Block F) (r : Request F) (rest : List (Input F)) : (s.take r rest).draws = s.draws := rfl
@[simp] theorem Block.take_inbox (s : Block F) (r : Request F) (rest : List (Input F)) : (s.take r rest).inbox = rest := rfl
@[simp] theorem Block.take_args (s : Block F) (r : Request F) (rest : List (Input F)) : (s.take r rest).args = r.args := rfl
@[simp] theorem Block.take_resp (s : Block F) (r : Request F) (rest : List (Input F)) : (s.take r rest).resp = s.resp := rfl

@[simp] theorem Block.answered_banks (s : Block F) (rs : List (Val F)) : (s.answered rs).banks = s.banks := rfl
@[simp] theorem Block.answered_params (s : Block F) (rs : List (Val F)) : (s.answered rs).params = s.params := rfl
@[simp] theorem Block.answered_draws (s : Block F) (rs : List (Val F)) : (s.answered rs).draws = s.draws := rfl
@[simp] theorem Block.answered_inbox (s : Block F) (rs : List (Val F)) : (s.answered rs).inbox = s.inbox := rfl
@[simp] theorem Block.answered_args (s : Block F) (rs : List (Val F)) : (s.answered rs).args = s.args := rfl
@[simp] theorem Block.answered_resp (s : Block F) (rs : List (Val F)) : (s.answered rs).resp = some { status := .ok, results := rs } := rfl

@[simp] theorem Block.refusedWith_banks (s : Block F) (st : Status) : (s.refusedWith st).banks = s.banks := rfl
@[simp] theorem Block.refusedWith_params (s : Block F) (st : Status) : (s.refusedWith st).params = s.params := rfl
@[simp] theorem Block.refusedWith_draws (s : Block F) (st : Status) : (s.refusedWith st).draws = s.draws := rfl
@[simp] theorem Block.refusedWith_inbox (s : Block F) (st : Status) : (s.refusedWith st).inbox = s.inbox := rfl
@[simp] theorem Block.refusedWith_args (s : Block F) (st : Status) : (s.refusedWith st).args = s.args := rfl
@[simp] theorem Block.refusedWith_resp (s : Block F) (st : Status) : (s.refusedWith st).resp = some { status := st, results := [] } := rfl

@[simp] theorem State.resetEvent_banks (s : Block F) (rest : List (Input F)) : (s.resetEvent rest).banks = Banks.reset F s.draws s.build := rfl
@[simp] theorem State.resetEvent_params (s : Block F) (rest : List (Input F)) : (s.resetEvent rest).params = s.params := rfl
@[simp] theorem State.resetEvent_draws (s : Block F) (rest : List (Input F)) : (s.resetEvent rest).draws = s.draws + 1 := rfl
@[simp] theorem State.resetEvent_inbox (s : Block F) (rest : List (Input F)) : (s.resetEvent rest).inbox = rest := rfl
@[simp] theorem State.resetEvent_args (s : Block F) (rest : List (Input F)) : (s.resetEvent rest).args = s.args := rfl
@[simp] theorem State.resetEvent_resp (s : Block F) (rest : List (Input F)) : (s.resetEvent rest).resp = none := rfl

/-- Two states with the same fields are the same. -/
theorem Block.ext_fields {s t : Block F} (hb : s.banks = t.banks) (hp : s.params = t.params) (hd : s.draws = t.draws)
    (hi : s.inbox = t.inbox) (ha : s.args = t.args) (hr : s.resp = t.resp) : s = t := by
  cases s; cases t; simp_all

end Sys2Proof.Machine
end

