-- ==== Sys2Proof/Laws/Ops.lean ====
section
/-! SUPPORT. Laws/Ops.lean: what the shared operations can answer, said once. -/

namespace Sys2Proof.Machine

variable {F : FloatFormat}

/-- A next state of one format is its block. -/
theorem next_inj {s t : Block F} (h : (Host.Outcome.next ⟨F, s⟩ : Outcome) = .next ⟨F, t⟩) : s = t := by
  cases h
  rfl

@[simp] theorem next_eq_iff {s t : Block F} : (Host.Outcome.next ⟨F, s⟩ : Outcome) = .next ⟨F, t⟩ ↔ s = t :=
  ⟨next_inj, fun h => h ▸ rfl⟩

@[simp] theorem reply_eq (s : Block F) (rs : List (Val F)) : s.reply rs = .next ⟨F, s.answered rs⟩ := rfl

@[simp] theorem reject_eq (s : Block F) (st : Status) : s.reject st = .next ⟨F, s.refusedWith st⟩ := rfl

theorem withInst_some {α : Type} {bank : List α} {i : Byte} {c : α} (h : bank[i.toNat]? = some c) (s : Block F)
    (k : α → Outcome) : withInst bank i s k = k c := by
  simp [withInst, h]

theorem withInst_none {α : Type} {bank : List α} {i : Byte} (h : bank.length ≤ i.toNat) (s : Block F)
    (k : α → Outcome) : withInst bank i s k = .next ⟨F, s.refusedWith .badInstance⟩ := by
  simp [withInst, List.getElem?_eq_none h]

/-- The choice of an instance answers what the operation does with it, or `BAD_INSTANCE`. -/
theorem withInst_next {α : Type} {bank : List α} {i : Byte} {s t : Block F} {k : α → Outcome}
    (h : withInst bank i s k = .next ⟨F, t⟩) :
    (∃ c, bank[i.toNat]? = some c ∧ k c = .next ⟨F, t⟩) ∨
      (bank.length ≤ i.toNat ∧ t = s.refusedWith .badInstance) := by
  unfold withInst at h
  split at h
  · next c hc => exact .inl ⟨c, hc, h⟩
  · next hc =>
    rw [reject_eq] at h
    exact .inr ⟨List.getElem?_eq_none_iff.mp hc, (next_inj h).symm⟩

/-- Reading a register answers its word, or `BAD_REGISTER`. -/
theorem readReg_next {ρ : Type} {regOf : Byte → Option ρ} {r : Byte} {read : ρ → Val F} {s t : Block F}
    (h : readReg regOf r read s = .next ⟨F, t⟩) :
    (∃ reg, regOf r = some reg ∧ t = s.answered [read reg]) ∨
      (regOf r = none ∧ t = s.refusedWith .badRegister) := by
  unfold readReg at h
  split at h
  · next reg hr => exact .inl ⟨reg, hr, (next_inj h).symm⟩
  · next hr => exact .inr ⟨hr, (next_inj h).symm⟩

/-- Writing a register stores `A0` in it, or is answered `READ_ONLY` or `BAD_REGISTER`. -/
theorem writeReg_next {α ρ : Type} {regOf : Byte → Option ρ} {r : Byte} {write : ρ → Val F → Option α} {put : α → Block F}
    {s t : Block F} (h : writeReg regOf r write put s = .next ⟨F, t⟩) :
    (∃ reg c, regOf r = some reg ∧ write reg s.args.a0 = some c ∧ t = (put c).answered []) ∨
      (∃ reg, regOf r = some reg ∧ write reg s.args.a0 = none ∧ t = s.refusedWith .readOnly) ∨
      (regOf r = none ∧ t = s.refusedWith .badRegister) := by
  unfold writeReg at h
  split at h
  · next reg hr =>
    split at h
    · next c hw => exact .inl ⟨reg, c, hr, hw, (next_inj h).symm⟩
    · next hw => exact .inr (.inl ⟨reg, hr, hw, (next_inj h).symm⟩)
  · next hr => exact .inr (.inr ⟨hr, (next_inj h).symm⟩)

theorem readReg_some {ρ : Type} {regOf : Byte → Option ρ} {r : Byte} {reg : ρ} (h : regOf r = some reg)
    (read : ρ → Val F) (s : Block F) : readReg regOf r read s = .next ⟨F, s.answered [read reg]⟩ := by
  simp [readReg, h]

theorem readReg_none {ρ : Type} {regOf : Byte → Option ρ} {r : Byte} (h : regOf r = none) (read : ρ → Val F)
    (s : Block F) : readReg regOf r read s = .next ⟨F, s.refusedWith .badRegister⟩ := by
  simp [readReg, h]

theorem writeReg_some {α ρ : Type} {regOf : Byte → Option ρ} {r : Byte} {reg : ρ} {write : ρ → Val F → Option α}
    {s : Block F} {c : α} (h : regOf r = some reg) (hw : write reg s.args.a0 = some c) (put : α → Block F) :
    writeReg regOf r write put s = .next ⟨F, (put c).answered []⟩ := by
  simp [writeReg, h, hw]

theorem writeReg_readOnly {α ρ : Type} {regOf : Byte → Option ρ} {r : Byte} {reg : ρ} {write : ρ → Val F → Option α}
    {s : Block F} (h : regOf r = some reg) (hw : write reg s.args.a0 = none) (put : α → Block F) :
    writeReg regOf r write put s = .next ⟨F, s.refusedWith .readOnly⟩ := by
  simp [writeReg, h, hw]

theorem writeReg_none {α ρ : Type} {regOf : Byte → Option ρ} {r : Byte} (h : regOf r = none)
    (write : ρ → Val F → Option α) (put : α → Block F) (s : Block F) :
    writeReg regOf r write put s = .next ⟨F, s.refusedWith .badRegister⟩ := by
  simp [writeReg, h]

end Sys2Proof.Machine
end

