-- ==== Sys2Proof/Laws/Exec.lean ====
section
/-! SUPPORT. Laws/Exec.lean: everything an operation can do, said once (`exec_effect`). The rules about the whole machine are
derived from it by cases. -/

namespace Sys2Proof.Machine

variable {F : FloatFormat}

/-- An operation that only reads registers. -/
def readsOnly : Instr → Bool
  | .piRd _ _ | .pidRd _ _ | .lpf1Rd _ _ | .lpf2Rd _ _ | .ccRd _ _ | .svmGeta _ | .svmGetb _ | .svmGetc _ => true
  | .piRun _ | .piReset _ | .piWr _ _ | .pidRun _ | .pidReset _ | .pidWr _ _
  | .lpf1Run _ | .lpf1Setic _ | .lpf1Wr _ _ | .lpf2Run _ | .lpf2Setic _ | .lpf2Wr _ _
  | .clarke | .iclarke | .park | .ipark | .ccRunsc _ | .ccRuna _ | .ccWr _ _ | .ccReset _
  | .svmSetvref _ | .svmAllowovm _ _ | .svmRun _ => false

/-- What an operation `i` makes of a state, if it answers a next one: a rejection, a read, a transform, or one of the
updates of one instance. -/
inductive Effect {F : FloatFormat} : Instr → Block F → Block F → Prop
  | rejected (i : Instr) (s : Block F) (st : Status) (h : st ≠ .ok) : Effect i s (s.refusedWith st)
  | read (i : Instr) (s : Block F) (v : Val F) (h : readsOnly i = true) : Effect i s (s.answered [v])
  | transform (i : Instr) (s : Block F) (rs : List (Val F)) (h : names i = none) (hl : rs.length ≤ 3) :
      Effect i s (s.drawn.answered rs)
  | piRun (s : Block F) (x : Byte) (c : PiRegs F) (h : s.banks.pi[x.toNat]? = some c) :
      Effect (.piRun x) s
        ((s.setPi x (piRun s.nans c s.args.a0 s.args.a1 s.args.a2).1).drawn.answered
          [(piRun s.nans c s.args.a0 s.args.a1 s.args.a2).2])
  | piReset (s : Block F) (x : Byte) (c : PiRegs F) (h : s.banks.pi[x.toNat]? = some c) :
      Effect (.piReset x) s ((s.setPi x (piReset c)).answered [])
  | piWr (s : Block F) (x r : Byte) (reg : PiReg) (c c' : PiRegs F) (h : s.banks.pi[x.toNat]? = some c)
      (hr : piRegOf r = some reg) (hw : c.write reg s.args.a0 = some c') :
      Effect (.piWr x r) s ((s.setPi x c').answered [])
  | pidRun (s : Block F) (x : Byte) (c : PidRegs F) (h : s.banks.pid[x.toNat]? = some c) :
      Effect (.pidRun x) s
        ((s.setPid x (pidRun s.params.dGate s.nans c s.args.a0 s.args.a1 s.args.a2).1).drawn.answered
          [(pidRun s.params.dGate s.nans c s.args.a0 s.args.a1 s.args.a2).2])
  | pidReset (s : Block F) (x : Byte) (c : PidRegs F) (h : s.banks.pid[x.toNat]? = some c) :
      Effect (.pidReset x) s ((s.setPid x (pidReset c)).answered [])
  | pidWr (s : Block F) (x r : Byte) (reg : PidReg) (c c' : PidRegs F) (h : s.banks.pid[x.toNat]? = some c)
      (hr : pidRegOf r = some reg) (hw : c.write reg s.args.a0 = some c') :
      Effect (.pidWr x r) s ((s.setPid x c').answered [])
  | lpf1Run (s : Block F) (x : Byte) (f : Lpf1Regs F) (h : s.banks.lpf1[x.toNat]? = some f) :
      Effect (.lpf1Run x) s
        ((s.setLpf1 x (lpf1Step s.nans f s.args.a0).1).drawn.answered [(lpf1Step s.nans f s.args.a0).2])
  | lpf1Setic (s : Block F) (x : Byte) (f : Lpf1Regs F) (h : s.banks.lpf1[x.toNat]? = some f) :
      Effect (.lpf1Setic x) s ((s.setLpf1 x { f with x1 := s.args.a0, y1 := s.args.a1 }).answered [])
  | lpf1Wr (s : Block F) (x r : Byte) (reg : Lpf1Reg) (f f' : Lpf1Regs F) (h : s.banks.lpf1[x.toNat]? = some f)
      (hr : lpf1RegOf r = some reg) (hw : f.write reg s.args.a0 = some f') :
      Effect (.lpf1Wr x r) s ((s.setLpf1 x f').answered [])
  | lpf2Run (s : Block F) (x : Byte) (f : Lpf2Regs F) (h : s.banks.lpf2[x.toNat]? = some f) :
      Effect (.lpf2Run x) s
        ((s.setLpf2 x (lpf2Step s.nans f s.args.a0).1).drawn.answered [(lpf2Step s.nans f s.args.a0).2])
  | lpf2Setic (s : Block F) (x : Byte) (f : Lpf2Regs F) (h : s.banks.lpf2[x.toNat]? = some f) :
      Effect (.lpf2Setic x) s
        ((s.setLpf2 x
          { f with x1 := s.args.a0, x2 := s.args.a1, y1 := s.args.a2, y2 := s.args.a3 }).answered [])
  | lpf2Wr (s : Block F) (x r : Byte) (reg : Lpf2Reg) (f f' : Lpf2Regs F) (h : s.banks.lpf2[x.toNat]? = some f)
      (hr : lpf2RegOf r = some reg) (hw : f.write reg s.args.a0 = some f') :
      Effect (.lpf2Wr x r) s ((s.setLpf2 x f').answered [])
  | ccTickPi (i : Instr) (s : Block F) (x : Byte) (sc : Val F × Val F) (l : List (CcRegs F (PiRegs F))) (cc : CcRegs F (PiRegs F))
      (hi : (i = .ccRunsc x ∧ sc = (s.args.a2, s.args.a3)) ∨ (i = .ccRuna x ∧ sc = Config.sincosDeg F s.args.a2))
      (hb : s.banks.cc = .pi l) (h : l[x.toNat]? = some cc) :
      Effect i s
        ((s.setCc (.pi (l.set x.toNat (ccRun piCtrl s.nans cc s.args.a0 s.args.a1 sc.1 sc.2).1))).drawn.answered
          [(ccRun piCtrl s.nans cc s.args.a0 s.args.a1 sc.1 sc.2).2.1,
            (ccRun piCtrl s.nans cc s.args.a0 s.args.a1 sc.1 sc.2).2.2])
  | ccTickPid (i : Instr) (s : Block F) (x : Byte) (sc : Val F × Val F) (l : List (CcRegs F (PidRegs F))) (cc : CcRegs F (PidRegs F))
      (hi : (i = .ccRunsc x ∧ sc = (s.args.a2, s.args.a3)) ∨ (i = .ccRuna x ∧ sc = Config.sincosDeg F s.args.a2))
      (hb : s.banks.cc = .pid l) (h : l[x.toNat]? = some cc) :
      Effect i s
        ((s.setCc (.pid (l.set x.toNat
          (ccRun (pidCtrl s.params.dGate) s.nans cc s.args.a0 s.args.a1 sc.1 sc.2).1))).drawn.answered
          [(ccRun (pidCtrl s.params.dGate) s.nans cc s.args.a0 s.args.a1 sc.1 sc.2).2.1,
            (ccRun (pidCtrl s.params.dGate) s.nans cc s.args.a0 s.args.a1 sc.1 sc.2).2.2])
  | ccWrPi (s : Block F) (x r : Byte) (reg : CcReg PiReg) (l : List (CcRegs F (PiRegs F))) (cc cc' : CcRegs F (PiRegs F))
      (hb : s.banks.cc = .pi l) (h : l[x.toNat]? = some cc) (hr : ccRegOf piRegOf r = some reg)
      (hw : cc.write PiRegs.write reg s.args.a0 = some cc') :
      Effect (.ccWr x r) s ((s.setCc (.pi (l.set x.toNat cc'))).answered [])
  | ccWrPid (s : Block F) (x r : Byte) (reg : CcReg PidReg) (l : List (CcRegs F (PidRegs F))) (cc cc' : CcRegs F (PidRegs F))
      (hb : s.banks.cc = .pid l) (h : l[x.toNat]? = some cc) (hr : ccRegOf pidRegOf r = some reg)
      (hw : cc.write PidRegs.write reg s.args.a0 = some cc') :
      Effect (.ccWr x r) s ((s.setCc (.pid (l.set x.toNat cc'))).answered [])
  | ccResetPi (s : Block F) (x : Byte) (l : List (CcRegs F (PiRegs F))) (cc : CcRegs F (PiRegs F))
      (hb : s.banks.cc = .pi l) (h : l[x.toNat]? = some cc) :
      Effect (.ccReset x) s ((s.setCc (.pi (l.set x.toNat (ccReset piCtrl cc)))).answered [])
  | ccResetPid (s : Block F) (x : Byte) (l : List (CcRegs F (PidRegs F))) (cc : CcRegs F (PidRegs F))
      (hb : s.banks.cc = .pid l) (h : l[x.toNat]? = some cc) :
      Effect (.ccReset x) s
        ((s.setCc (.pid (l.set x.toNat (ccReset (pidCtrl s.params.dGate) cc)))).answered [])
  | svmSetvref (s : Block F) (x : Byte) (m : SvmRegs F) (h : s.banks.svm[x.toNat]? = some m) :
      Effect (.svmSetvref x) s ((s.setSvm x { m with va := s.args.a0, vb := s.args.a1 }).answered [])
  | svmAllowovm (s : Block F) (x : Byte) (f : Bool) (m : SvmRegs F) (h : s.banks.svm[x.toNat]? = some m) :
      Effect (.svmAllowovm x f) s ((s.setSvm x (m.setOvm f)).answered [])
  | svmRun (s : Block F) (x : Byte) (m : SvmRegs F) (h : s.banks.svm[x.toNat]? = some m) :
      Effect (.svmRun x) s ((s.setSvm x (svmRun s.params.sqrt m)).answered [])

theorem effect_of_readReg {i : Instr} {s t : Block F} {ρ : Type} {regOf : Byte → Option ρ} {r : Byte} {read : ρ → Val F}
    (hi : readsOnly i = true) (h : readReg regOf r read s = .next ⟨F, t⟩) : Effect i s t := by
  obtain ⟨reg, -, rfl⟩ | ⟨-, rfl⟩ := readReg_next h
  · exact .read i s _ hi
  · exact .rejected i s _ (by decide)

theorem effect_badInstance {i : Instr} {s : Block F} : Effect i s (s.refusedWith .badInstance) :=
  .rejected i s _ (by decide)

/-- Everything an operation can do. -/
theorem exec_effect {i : Instr} {s t : Block F} (h : exec i ⟨F, s⟩ = .next ⟨F, t⟩) : Effect i s t := by
  cases i with
  | piRun x =>
    obtain ⟨c, hc, h⟩ | ⟨-, rfl⟩ := withInst_next h
    · cases h; exact .piRun s x c hc
    · exact effect_badInstance
  | piReset x =>
    obtain ⟨c, hc, h⟩ | ⟨-, rfl⟩ := withInst_next h
    · cases h; exact .piReset s x c hc
    · exact effect_badInstance
  | piRd x r =>
    obtain ⟨c, hc, h⟩ | ⟨-, rfl⟩ := withInst_next h
    · exact effect_of_readReg rfl h
    · exact effect_badInstance
  | piWr x r =>
    obtain ⟨c, hc, h⟩ | ⟨-, rfl⟩ := withInst_next h
    · obtain ⟨reg, c', hr, hw, rfl⟩ | ⟨-, -, -, rfl⟩ | ⟨-, rfl⟩ := writeReg_next h
      · exact .piWr s x r reg c c' hc hr hw
      · exact .rejected _ s _ (by decide)
      · exact .rejected _ s _ (by decide)
    · exact effect_badInstance
  | pidRun x =>
    obtain ⟨c, hc, h⟩ | ⟨-, rfl⟩ := withInst_next h
    · cases h; exact .pidRun s x c hc
    · exact effect_badInstance
  | pidReset x =>
    obtain ⟨c, hc, h⟩ | ⟨-, rfl⟩ := withInst_next h
    · cases h; exact .pidReset s x c hc
    · exact effect_badInstance
  | pidRd x r =>
    obtain ⟨c, hc, h⟩ | ⟨-, rfl⟩ := withInst_next h
    · exact effect_of_readReg rfl h
    · exact effect_badInstance
  | pidWr x r =>
    obtain ⟨c, hc, h⟩ | ⟨-, rfl⟩ := withInst_next h
    · obtain ⟨reg, c', hr, hw, rfl⟩ | ⟨-, -, -, rfl⟩ | ⟨-, rfl⟩ := writeReg_next h
      · exact .pidWr s x r reg c c' hc hr hw
      · exact .rejected _ s _ (by decide)
      · exact .rejected _ s _ (by decide)
    · exact effect_badInstance
  | lpf1Run x =>
    obtain ⟨c, hc, h⟩ | ⟨-, rfl⟩ := withInst_next h
    · cases h; exact .lpf1Run s x c hc
    · exact effect_badInstance
  | lpf1Setic x =>
    obtain ⟨c, hc, h⟩ | ⟨-, rfl⟩ := withInst_next h
    · cases h; exact .lpf1Setic s x c hc
    · exact effect_badInstance
  | lpf1Rd x r =>
    obtain ⟨c, hc, h⟩ | ⟨-, rfl⟩ := withInst_next h
    · exact effect_of_readReg rfl h
    · exact effect_badInstance
  | lpf1Wr x r =>
    obtain ⟨c, hc, h⟩ | ⟨-, rfl⟩ := withInst_next h
    · obtain ⟨reg, c', hr, hw, rfl⟩ | ⟨-, -, -, rfl⟩ | ⟨-, rfl⟩ := writeReg_next h
      · exact .lpf1Wr s x r reg c c' hc hr hw
      · exact .rejected _ s _ (by decide)
      · exact .rejected _ s _ (by decide)
    · exact effect_badInstance
  | lpf2Run x =>
    obtain ⟨c, hc, h⟩ | ⟨-, rfl⟩ := withInst_next h
    · cases h; exact .lpf2Run s x c hc
    · exact effect_badInstance
  | lpf2Setic x =>
    obtain ⟨c, hc, h⟩ | ⟨-, rfl⟩ := withInst_next h
    · cases h; exact .lpf2Setic s x c hc
    · exact effect_badInstance
  | lpf2Rd x r =>
    obtain ⟨c, hc, h⟩ | ⟨-, rfl⟩ := withInst_next h
    · exact effect_of_readReg rfl h
    · exact effect_badInstance
  | lpf2Wr x r =>
    obtain ⟨c, hc, h⟩ | ⟨-, rfl⟩ := withInst_next h
    · obtain ⟨reg, c', hr, hw, rfl⟩ | ⟨-, -, -, rfl⟩ | ⟨-, rfl⟩ := writeReg_next h
      · exact .lpf2Wr s x r reg c c' hc hr hw
      · exact .rejected _ s _ (by decide)
      · exact .rejected _ s _ (by decide)
    · exact effect_badInstance
  | clarke => cases h; exact .transform _ s _ rfl (by simp)
  | iclarke => cases h; exact .transform _ s _ rfl (by simp)
  | park => cases h; exact .transform _ s _ rfl (by simp)
  | ipark => cases h; exact .transform _ s _ rfl (by simp)
  | ccRunsc x =>
    simp only [exec, execCcRunsc, ccTickOf] at h
    split at h
    · next l hb =>
      obtain ⟨c, hc, h⟩ | ⟨-, rfl⟩ := withInst_next h
      · cases h; exact .ccTickPi _ s x (s.args.a2, s.args.a3) l c (.inl ⟨rfl, rfl⟩) hb hc
      · exact effect_badInstance
    · next l hb =>
      obtain ⟨c, hc, h⟩ | ⟨-, rfl⟩ := withInst_next h
      · cases h; exact .ccTickPid _ s x (s.args.a2, s.args.a3) l c (.inl ⟨rfl, rfl⟩) hb hc
      · exact effect_badInstance
  | ccRuna x =>
    simp only [exec, execCcRuna, ccTickOf] at h
    split at h
    · next l hb =>
      obtain ⟨c, hc, h⟩ | ⟨-, rfl⟩ := withInst_next h
      · cases h; exact .ccTickPi _ s x (Config.sincosDeg F s.args.a2) l c (.inr ⟨rfl, rfl⟩) hb hc
      · exact effect_badInstance
    · next l hb =>
      obtain ⟨c, hc, h⟩ | ⟨-, rfl⟩ := withInst_next h
      · cases h; exact .ccTickPid _ s x (Config.sincosDeg F s.args.a2) l c (.inr ⟨rfl, rfl⟩) hb hc
      · exact effect_badInstance
  | ccRd x r =>
    simp only [exec, execCcRd] at h
    split at h
    all_goals
      obtain ⟨c, hc, h⟩ | ⟨-, rfl⟩ := withInst_next h
      · exact effect_of_readReg rfl h
      · exact effect_badInstance
  | ccWr x r =>
    simp only [exec, execCcWr] at h
    split at h
    · next l hb =>
      obtain ⟨c, hc, h⟩ | ⟨-, rfl⟩ := withInst_next h
      · obtain ⟨reg, c', hr, hw, rfl⟩ | ⟨-, -, -, rfl⟩ | ⟨-, rfl⟩ := writeReg_next h
        · exact .ccWrPi s x r reg l c c' hb hc hr hw
        · exact .rejected _ s _ (by decide)
        · exact .rejected _ s _ (by decide)
      · exact effect_badInstance
    · next l hb =>
      obtain ⟨c, hc, h⟩ | ⟨-, rfl⟩ := withInst_next h
      · obtain ⟨reg, c', hr, hw, rfl⟩ | ⟨-, -, -, rfl⟩ | ⟨-, rfl⟩ := writeReg_next h
        · exact .ccWrPid s x r reg l c c' hb hc hr hw
        · exact .rejected _ s _ (by decide)
        · exact .rejected _ s _ (by decide)
      · exact effect_badInstance
  | ccReset x =>
    simp only [exec, execCcReset] at h
    split at h
    · next l hb =>
      obtain ⟨c, hc, h⟩ | ⟨-, rfl⟩ := withInst_next h
      · cases h; exact .ccResetPi s x l c hb hc
      · exact effect_badInstance
    · next l hb =>
      obtain ⟨c, hc, h⟩ | ⟨-, rfl⟩ := withInst_next h
      · cases h; exact .ccResetPid s x l c hb hc
      · exact effect_badInstance
  | svmSetvref x =>
    obtain ⟨c, hc, h⟩ | ⟨-, rfl⟩ := withInst_next h
    · cases h; exact .svmSetvref s x c hc
    · exact effect_badInstance
  | svmAllowovm x f =>
    obtain ⟨c, hc, h⟩ | ⟨-, rfl⟩ := withInst_next h
    · cases h; exact .svmAllowovm s x f c hc
    · exact effect_badInstance
  | svmRun x =>
    obtain ⟨c, hc, h⟩ | ⟨-, rfl⟩ := withInst_next h
    · cases h; exact .svmRun s x c hc
    · exact effect_badInstance
  | svmGeta x =>
    obtain ⟨c, hc, h⟩ | ⟨-, rfl⟩ := withInst_next h
    · cases h; exact .read _ s _ rfl
    · exact effect_badInstance
  | svmGetb x =>
    obtain ⟨c, hc, h⟩ | ⟨-, rfl⟩ := withInst_next h
    · cases h; exact .read _ s _ rfl
    · exact effect_badInstance
  | svmGetc x =>
    obtain ⟨c, hc, h⟩ | ⟨-, rfl⟩ := withInst_next h
    · cases h; exact .read _ s _ rfl
    · exact effect_badInstance

end Sys2Proof.Machine
end

