-- ==== Sys2Proof/Laws/Ieee.lean ====
section
/-! SUPPORT. Laws/Ieee.lean: the small lemmas of the arithmetic, in every format: what the primitives answer on NaNs, the fields
of a packed value, the value of a rounded magnitude, and that `roundMag` and `rootMag` are the nearest magnitudes. -/

namespace Sys2Proof.Machine

variable {F : FloatFormat}

/-- Infinity and a whole fraction field make up the magnitude's width. -/
theorem infBits_add (F : FloatFormat) : infBits F + 2 ^ F.fracBits = 2 ^ F.magWidth := by
  have := Nat.two_pow_pos F.expBits
  rw [infBits, ← Nat.succ_mul, Nat.pow_add, Nat.succ_eq_add_one, Nat.sub_add_cancel this]

theorem infBits_lt (F : FloatFormat) : infBits F < 2 ^ F.magWidth := by
  have := infBits_add F
  have := Nat.two_pow_pos F.fracBits
  omega

/-- The leading one of a significand is even, its half being the highest fraction bit. -/
theorem two_pow_fracBits (F : FloatFormat) : 2 ^ F.fracBits = 2 * 2 ^ (F.fracBits - 1) := by
  have := F.frac_ge
  rw [← Nat.pow_succ', Nat.succ_eq_add_one, Nat.sub_add_cancel this]

/-- There are at least three exponents. -/
theorem infBits_ge (F : FloatFormat) : 3 * 2 ^ F.fracBits ≤ infBits F := by
  have : 2 ^ 2 ≤ 2 ^ F.expBits := Nat.pow_le_pow_right (by norm_num) F.exp_ge
  exact Nat.mul_le_mul_right _ (by omega)

/-- Below the sign bit, `pack` keeps the magnitude. -/
theorem magBits_pack (neg : Bool) {b : Nat} (h : b < 2 ^ F.magWidth) : magBits (pack neg b : Val F) = b := by
  cases neg
  · simp only [magBits, pack, BitVec.toNat_ofNat, Bool.false_eq_true, if_false]
    rw [Nat.mod_eq_of_lt (a := b) (by rw [Nat.pow_succ]; omega), Nat.mod_eq_of_lt h]
  · simp only [magBits, pack, BitVec.toNat_ofNat, if_true]
    rw [Nat.mod_eq_of_lt (b := 2 ^ F.width) (by rw [Nat.pow_succ]; omega), Nat.add_mod_left, Nat.mod_eq_of_lt h]

theorem signBit_pack (neg : Bool) {b : Nat} (h : b < 2 ^ F.magWidth) : signBit (pack neg b : Val F) = neg := by
  cases neg
  · simp only [signBit, pack, BitVec.msb_eq_decide, BitVec.toNat_ofNat, Bool.false_eq_true, if_false]
    rw [Nat.mod_eq_of_lt (a := b) (by rw [Nat.pow_succ]; omega)]
    simpa using h
  · simp only [signBit, pack, BitVec.msb_eq_decide, BitVec.toNat_ofNat, if_true]
    rw [Nat.mod_eq_of_lt (b := 2 ^ F.width) (by rw [Nat.pow_succ]; omega)]
    simp

theorem toNat_eq (a : Val F) : a.toNat = (if signBit a then 2 ^ F.magWidth else 0) + magBits a := by
  have h : a.toNat < 2 ^ F.magWidth * 2 := by
    rw [← Nat.pow_succ]
    exact a.isLt
  simp only [signBit, magBits, BitVec.msb_eq_decide, decide_eq_true_eq, Nat.add_sub_cancel]
  split
  · next hc => rw [Nat.mod_eq_sub_mod hc, Nat.mod_eq_of_lt (by omega)]; omega
  · next hc => rw [Nat.mod_eq_of_lt (by omega)]; omega

theorem magBits_lt (a : Val F) : magBits a < 2 ^ F.magWidth := Nat.mod_lt _ (Nat.two_pow_pos _)

/-- A value is its sign bit and its magnitude. -/
theorem pack_eq (a : Val F) : pack (signBit a) (magBits a) = a := by
  apply BitVec.eq_of_toNat_eq
  rw [pack, BitVec.toNat_ofNat]
  have h : (if signBit a = true then 2 ^ F.magWidth + magBits a else magBits a) = a.toNat := by
    rw [toNat_eq a]
    split <;> omega
  rw [h, Nat.mod_eq_of_lt a.isLt]

@[simp] theorem magBits_fneg (a : Val F) : magBits (fneg a) = magBits a := magBits_pack _ (magBits_lt a)

@[simp] theorem signBit_fneg (a : Val F) : signBit (fneg a) = !signBit a := signBit_pack _ (magBits_lt a)

@[simp] theorem isNaN_fneg (a : Val F) : isNaN (fneg a) = isNaN a := by simp [isNaN]

@[simp] theorem magBits_zeroF : magBits (zeroF : Val F) = 0 := by simp [magBits]

@[simp] theorem signBit_zeroF : signBit (zeroF : Val F) = false := by simp [signBit]

@[simp] theorem isNaN_quietNaN : isNaN (quietNaN : Val F) = true := by
  have h1 := infBits_add F
  have h2 := two_pow_fracBits F
  have h3 := Nat.two_pow_pos (F.fracBits - 1)
  rw [isNaN, quietNaN, magBits_pack _ (by omega)]
  simp

@[simp] theorem isNaN_someNaN (ν : Val F) : isNaN (someNaN ν) = true := by
  unfold someNaN
  split
  · assumption
  · exact isNaN_quietNaN

theorem fadd_nan (ν a b : Val F) (h : isNaN a = true ∨ isNaN b = true) : isNaN (fadd ν a b) = true := by
  rcases h with h | h <;> simp [fadd, h]

theorem fsub_nan (ν a b : Val F) (h : isNaN a = true ∨ isNaN b = true) : isNaN (fsub ν a b) = true :=
  fadd_nan ν a (fneg b) (by simpa using h)

theorem fmul_nan (ν a b : Val F) (h : isNaN a = true ∨ isNaN b = true) : isNaN (fmul ν a b) = true := by
  rcases h with h | h <;> simp [fmul, h]

theorem fdiv_nan (ν a b : Val F) (h : isNaN a = true ∨ isNaN b = true) : isNaN (fdiv ν a b) = true := by
  rcases h with h | h <;> simp [fdiv, h]

/-- A subnormal magnitude counts its own units. -/
theorem unitsOf_low {b : Nat} (h : b < 2 ^ F.fracBits) : unitsOf F b = b := by
  rw [unitsOf, if_pos (Nat.div_eq_of_lt h), Nat.mod_eq_of_lt h]

@[simp] theorem unitsOf_zero : unitsOf F 0 = 0 := unitsOf_low (Nat.two_pow_pos _)

/-- The magnitude whose fields are `k` exponent steps and a significand `n` of `fracBits + 1` bits, or the carry out of it. -/
theorem unitsOf_fields {k n : Nat} (hlo : 2 ^ F.fracBits ≤ n ∨ k = 0) (hhi : n ≤ 2 * 2 ^ F.fracBits) :
    unitsOf F (k * 2 ^ F.fracBits + n) = n * 2 ^ k := by
  have hP := Nat.two_pow_pos F.fracBits
  by_cases h1 : n < 2 ^ F.fracBits
  · obtain rfl : k = 0 := by omega
    simp [unitsOf_low h1]
  · by_cases h2 : n = 2 * 2 ^ F.fracBits
    · subst h2
      rw [show k * 2 ^ F.fracBits + 2 * 2 ^ F.fracBits = (k + 2) * 2 ^ F.fracBits by ring, unitsOf,
        Nat.mul_div_cancel _ hP, Nat.mul_mod_left, if_neg (by omega), show k + 2 - 1 = k + 1 by omega, Nat.pow_succ]
      ring
    · obtain ⟨r, rfl⟩ : ∃ r, n = 2 ^ F.fracBits + r := ⟨n - 2 ^ F.fracBits, by omega⟩
      have hr : r < 2 ^ F.fracBits := by omega
      rw [show k * 2 ^ F.fracBits + (2 ^ F.fracBits + r) = r + (k + 1) * 2 ^ F.fracBits by ring, unitsOf,
        Nat.add_mul_div_right _ _ hP, Nat.add_mul_mod_self_right, Nat.div_eq_of_lt hr, Nat.mod_eq_of_lt hr,
        if_neg (by omega), show 0 + (k + 1) - 1 = k by omega]

/-- Every magnitude has such fields, the significand without the carry. -/
theorem fields_of (F : FloatFormat) (b : Nat) :
    ∃ k n, b = k * 2 ^ F.fracBits + n ∧ (2 ^ F.fracBits ≤ n ∨ k = 0) ∧ n < 2 * 2 ^ F.fracBits := by
  have hP := Nat.two_pow_pos F.fracBits
  by_cases h : b < 2 ^ F.fracBits
  · exact ⟨0, b, by omega, .inr rfl, by omega⟩
  · have hd : 1 ≤ b / 2 ^ F.fracBits := (Nat.one_le_div_iff hP).mpr (by omega)
    have hm := Nat.mod_lt b hP
    have hb := Nat.div_add_mod b (2 ^ F.fracBits)
    refine ⟨b / 2 ^ F.fracBits - 1, 2 ^ F.fracBits + b % 2 ^ F.fracBits, ?_, .inl (by omega), by omega⟩
    obtain ⟨q, hq⟩ : ∃ q, b / 2 ^ F.fracBits = q + 1 := ⟨b / 2 ^ F.fracBits - 1, by omega⟩
    rw [hq] at hb ⊢
    rw [Nat.mul_comm, Nat.succ_mul] at hb
    rw [Nat.add_sub_cancel]
    omega

/-- A magnitude and the next differ by the unit of its exponent. -/
theorem unitsOf_succ {k n : Nat} (hlo : 2 ^ F.fracBits ≤ n ∨ k = 0) (hhi : n < 2 * 2 ^ F.fracBits) :
    unitsOf F (k * 2 ^ F.fracBits + n + 1) = (n + 1) * 2 ^ k := by
  rw [Nat.add_assoc]
  exact unitsOf_fields (by omega) hhi

theorem unitsOf_strictMono (F : FloatFormat) : StrictMono (unitsOf F) := by
  apply strictMono_nat_of_lt_succ
  intro b
  obtain ⟨k, n, rfl, hlo, hhi⟩ := fields_of F b
  rw [unitsOf_succ hlo hhi, unitsOf_fields hlo hhi.le]
  exact Nat.mul_lt_mul_of_pos_right (Nat.lt_succ_self n) (Nat.two_pow_pos k)

/-- `roundDiv` is at most half a unit off, and even when it is just half a unit off. -/
theorem roundDiv_spec (num : Nat) {den : Nat} (h : 0 < den) :
    (2 * roundDiv num den * den ≤ 2 * num + den ∧ 2 * num ≤ 2 * roundDiv num den * den + den) ∧
    ((2 * roundDiv num den * den = 2 * num + den ∨ 2 * num = 2 * roundDiv num den * den + den) →
      roundDiv num den % 2 = 0) := by
  have hr : num % den < den := Nat.mod_lt _ h
  have hq : num = den * (num / den) + num % den := (Nat.div_add_mod num den).symm
  unfold roundDiv
  simp only
  generalize num / den = q at *
  generalize num % den = r at *
  subst hq
  split
  · next hc =>
    rw [show 2 * (q + 1) * den = 2 * (den * q) + 2 * den by ring]
    omega
  · next hc =>
    rw [show 2 * q * den = 2 * (den * q) by ring]
    omega

/-- What the two numbers are that `roundMag` puts together: the exponent steps `k` and the significand `n`, between which and
the exact quotient there is at most half a unit. -/
theorem roundMag_fields (F : FloatFormat) (num : Nat) {den : Nat} (h : 0 < den) :
    ∃ k n, roundMag F num den = min (k * 2 ^ F.fracBits + n) (infBits F) ∧ n = roundDiv num (den * 2 ^ k) ∧
      n ≤ 2 * 2 ^ F.fracBits ∧ (k = 0 ∨ (2 ^ F.fracBits ≤ n ∧ 2 ^ F.fracBits * (den * 2 ^ k) ≤ num)) := by
  have hq : num / den < 2 ^ ((num / den).log2 + 1) := Nat.lt_log2_self
  have hP := Nat.two_pow_pos F.fracBits
  have hp := Nat.two_pow_pos ((num / den).log2 - F.fracBits)
  refine ⟨(num / den).log2 - F.fracBits, _, rfl, rfl, ?_, ?_⟩
  all_goals
    have hD : 0 < den * 2 ^ ((num / den).log2 - F.fracBits) := Nat.mul_pos h hp
    have hs := (roundDiv_spec num hD).1
  · have h1 : num / den < 2 * 2 ^ F.fracBits * 2 ^ ((num / den).log2 - F.fracBits) := by
      rw [← Nat.pow_succ', ← Nat.pow_add]
      exact hq.trans_le (Nat.pow_le_pow_right (by norm_num) (by omega))
    have h2 : num < 2 * 2 ^ F.fracBits * (den * 2 ^ ((num / den).log2 - F.fracBits)) := by
      rw [Nat.mul_left_comm, Nat.mul_comm den]
      exact (Nat.div_lt_iff_lt_mul h).mp h1
    generalize den * 2 ^ ((num / den).log2 - F.fracBits) = D at *
    by_contra hc
    have h3 : (2 * 2 ^ F.fracBits + 1) * D ≤ roundDiv num D * D := Nat.mul_le_mul_right _ (by omega)
    rw [Nat.add_mul] at h3
    rw [Nat.mul_assoc] at hs
    omega
  · by_cases hk : (num / den).log2 - F.fracBits = 0
    · exact .inl hk
    · have h0 : num / den ≠ 0 := by
        intro h0
        rw [h0] at hk
        exact hk (by simp)
      have h1 : 2 ^ F.fracBits * 2 ^ ((num / den).log2 - F.fracBits) ≤ num / den := by
        rw [← Nat.pow_add, show F.fracBits + ((num / den).log2 - F.fracBits) = (num / den).log2 by omega]
        exact Nat.log2_self_le h0
      have h2 : 2 ^ F.fracBits * (den * 2 ^ ((num / den).log2 - F.fracBits)) ≤ num := by
        rw [Nat.mul_left_comm, Nat.mul_comm den]
        exact (Nat.le_div_iff_mul_le h).mp h1
      refine .inr ⟨?_, h2⟩
      generalize den * 2 ^ ((num / den).log2 - F.fracBits) = D at *
      by_contra hc
      have h3 : (roundDiv num D + 1) * D ≤ 2 ^ F.fracBits * D := Nat.mul_le_mul_right _ (by omega)
      rw [Nat.add_mul] at h3
      rw [Nat.mul_assoc] at hs
      omega

/-- A magnitude above the one with the fields `k`, `n` is at least one unit of `k` larger. -/
theorem unitsOf_above {k n b : Nat} (hlo : 2 ^ F.fracBits ≤ n ∨ k = 0) (hhi : n ≤ 2 * 2 ^ F.fracBits)
    (hb : k * 2 ^ F.fracBits + n < b) : (n + 1) * 2 ^ k ≤ unitsOf F b := by
  refine le_trans ?_ ((unitsOf_strictMono F).monotone hb)
  by_cases hn : n < 2 * 2 ^ F.fracBits
  · exact (unitsOf_succ hlo hn).ge
  · have hP := Nat.two_pow_pos F.fracBits
    have h := unitsOf_fields (F := F) (k := k + 1) (n := 2 ^ F.fracBits + 1) (by omega) (by omega)
    obtain rfl : n = 2 * 2 ^ F.fracBits := by omega
    rw [show (k * 2 ^ F.fracBits + 2 * 2 ^ F.fracBits).succ = (k + 1) * 2 ^ F.fracBits + (2 ^ F.fracBits + 1) by
      rw [Nat.succ_eq_add_one]; ring, h, Nat.pow_succ]
    have := Nat.two_pow_pos k
    rw [show (2 ^ F.fracBits + 1) * (2 ^ k * 2) = (2 * 2 ^ F.fracBits + 1) * 2 ^ k + 2 ^ k by ring]
    omega

/-- A magnitude below the one with the fields `k`, `n` is at least one unit of `k` smaller, unless `n` is the first
significand of its exponent. -/
theorem unitsOf_below {k n b : Nat} (hlo : 2 ^ F.fracBits < n ∨ k = 0) (hhi : n ≤ 2 * 2 ^ F.fracBits)
    (hb : b < k * 2 ^ F.fracBits + n) : unitsOf F b + 2 ^ k ≤ n * 2 ^ k := by
  obtain ⟨m, rfl⟩ : ∃ m, n = m + 1 := ⟨n - 1, by
    rcases hlo with h | rfl
    · omega
    · rw [Nat.zero_mul] at hb
      omega⟩
  have h := unitsOf_fields (F := F) (k := k) (n := m) (by omega) (by omega)
  have h1 : unitsOf F b ≤ unitsOf F (k * 2 ^ F.fracBits + m) := (unitsOf_strictMono F).monotone (by omega)
  rw [h] at h1
  rw [Nat.add_mul, Nat.one_mul]
  omega

/-- A value at most half a unit `K` from `n` units is nearer to it than to anything at least a unit above. -/
theorem nearer_than_above {n y K u : ℝ} (hK : 0 < K) (e1 : n ≤ y + 1 / 2) (e2 : y ≤ n + 1 / 2) (hu : (n + 1) * K ≤ u) :
    |n * K - y * K| < |u - y * K| ∨ (|n * K - y * K| = |u - y * K| ∧ y = n + 1 / 2) := by
  have f1 : n * K ≤ (y + 1 / 2) * K := mul_le_mul_of_nonneg_right e1 hK.le
  have a2 : |u - y * K| = u - y * K := abs_of_nonneg (by
    have f2 : y * K ≤ (n + 1 / 2) * K := mul_le_mul_of_nonneg_right e2 hK.le
    linarith)
  rw [a2]
  rcases e2.lt_or_eq with h | h
  · left
    have f2 : y * K < (n + 1 / 2) * K := mul_lt_mul_of_pos_right h hK
    rw [abs_lt]
    constructor <;> linarith
  · have f2 : y * K = (n + 1 / 2) * K := by rw [h]
    have a1 : |n * K - y * K| = 1 / 2 * K := by
      rw [abs_of_nonpos (by linarith)]
      linarith
    rw [a1]
    rcases hu.lt_or_eq with hlt | heq
    · left
      linarith
    · right
      exact ⟨by linarith, h⟩

/-- The same below. -/
theorem nearer_than_below {n y K u : ℝ} (hK : 0 < K) (e1 : n ≤ y + 1 / 2) (e2 : y ≤ n + 1 / 2) (hu : u + K ≤ n * K) :
    |n * K - y * K| < |u - y * K| ∨ (|n * K - y * K| = |u - y * K| ∧ n = y + 1 / 2) := by
  have h := nearer_than_above (n := -n) (y := -y) (u := -u) hK (by linarith) (by linarith) (by linarith)
  rw [show -n * K - -y * K = -(n * K - y * K) by ring, show -u - -y * K = -(u - y * K) by ring, abs_neg, abs_neg] at h
  rcases h with h | ⟨h1, h2⟩
  · exact .inl h
  · exact .inr ⟨h1, by linarith⟩

/-- A value that is no less than `n` units is nearer to them than to anything below. -/
theorem nearer_than_below_of_le {v x u : ℝ} (hv : v ≤ x) (hu : u < v) : |v - x| < |u - x| := by
  rw [abs_of_nonpos (by linarith), abs_of_nonpos (by linarith)]
  linarith

/-- `roundDiv` over the reals. -/
theorem roundDiv_real (num : Nat) {den : Nat} (h : 0 < den) :
    (roundDiv num den : ℝ) ≤ (num : ℝ) / den + 1 / 2 ∧ (num : ℝ) / den ≤ roundDiv num den + 1 / 2 ∧
      ((roundDiv num den : ℝ) = (num : ℝ) / den + 1 / 2 ∨ (num : ℝ) / den = roundDiv num den + 1 / 2 →
        roundDiv num den % 2 = 0) := by
  obtain ⟨⟨h1, h2⟩, h3⟩ := roundDiv_spec num h
  have hd : (0 : ℝ) < den := by exact_mod_cast h
  have c1 : (2 * roundDiv num den * den : ℝ) ≤ 2 * num + den := by exact_mod_cast h1
  have c2 : (2 * num : ℝ) ≤ 2 * roundDiv num den * den + den := by exact_mod_cast h2
  have hy : (num : ℝ) / den * den = num := div_mul_cancel₀ _ hd.ne'
  refine ⟨?_, ?_, fun he => h3 ?_⟩
  · refine le_of_mul_le_mul_right ?_ hd
    rw [add_mul, hy]
    linarith
  · refine le_of_mul_le_mul_right ?_ hd
    rw [add_mul, hy]
    linarith
  · rcases he with he | he
    · left
      have : (2 * roundDiv num den * den : ℝ) = 2 * num + den := by
        rw [he]
        linarith
      exact_mod_cast this
    · right
      have : (2 * num : ℝ) = 2 * roundDiv num den * den + den := by
        rw [← hy, he]
        ring
      exact_mod_cast this

/-- `roundMag` is the magnitude nearest to the quotient, ties to even. -/
theorem roundMag_nearest (F : FloatFormat) (num : Nat) {den : Nat} (h : 0 < den) : IsNearest F ((num : ℝ) / den) (roundMag F num den) := by
  obtain ⟨k, n, hr, hn, hhi, hlo⟩ := roundMag_fields F num h
  have hD : 0 < den * 2 ^ k := Nat.mul_pos h (Nat.two_pow_pos k)
  obtain ⟨e1, e2, e3⟩ := roundDiv_real num hD
  rw [← hn] at e1 e2 e3
  have hK : (0 : ℝ) < 2 ^ k := by positivity
  have hDR : (0 : ℝ) < ((den * 2 ^ k : Nat) : ℝ) := by exact_mod_cast hD
  have hx : (num : ℝ) / den = (num : ℝ) / ((den * 2 ^ k : Nat) : ℝ) * 2 ^ k := by
    have : (den : ℝ) ≠ 0 := by exact_mod_cast h.ne'
    push_cast
    field_simp
  rw [hx]
  generalize hy : (num : ℝ) / ((den * 2 ^ k : Nat) : ℝ) = y at *
  have hu : ((unitsOf F (k * 2 ^ F.fracBits + n) : Nat) : ℝ) = n * 2 ^ k := by
    rw [unitsOf_fields (by omega) hhi]
    push_cast
    ring
  have hbelow : ∀ b < k * 2 ^ F.fracBits + n,
      ((unitsOf F b : ℝ) + 2 ^ k ≤ n * 2 ^ k) ∨ ((unitsOf F b : ℝ) < n * 2 ^ k ∧ (n : ℝ) * 2 ^ k ≤ y * 2 ^ k) := by
    intro b hb
    by_cases hc : 2 ^ F.fracBits < n ∨ k = 0
    · left
      exact_mod_cast unitsOf_below (F := F) hc hhi hb
    · right
      refine ⟨?_, mul_le_mul_of_nonneg_right ?_ hK.le⟩
      · rw [← hu]
        exact_mod_cast unitsOf_strictMono F hb
      · have h4 : n * (den * 2 ^ k) ≤ num := by
          have : n = 2 ^ F.fracBits ∧ 2 ^ F.fracBits * (den * 2 ^ k) ≤ num := by omega
          rw [this.1]
          exact this.2
        rw [← hy, le_div_iff₀ hDR]
        exact_mod_cast h4
  have heven : (k * 2 ^ F.fracBits + n) % 2 = n % 2 := by
    rw [two_pow_fracBits, Nat.mul_left_comm]
    omega
  rw [hr]
  by_cases hinf : k * 2 ^ F.fracBits + n ≤ infBits F
  · rw [Nat.min_eq_left hinf]
    refine ⟨hinf, fun b _ hb => ?_⟩
    rw [hu, heven]
    rcases Nat.lt_or_gt_of_ne hb with hb | hb
    · rcases hbelow b hb with hc | ⟨hc, hny⟩
      · exact (nearer_than_below hK e1 e2 hc).imp_right fun g => ⟨g.1, e3 (.inl g.2)⟩
      · exact .inl (nearer_than_below_of_le hny hc)
    · have hc : ((n : ℝ) + 1) * 2 ^ k ≤ unitsOf F b := by exact_mod_cast unitsOf_above (by omega) hhi hb
      exact (nearer_than_above hK e1 e2 hc).imp_right fun g => ⟨g.1, e3 (.inr g.2)⟩
  · rw [Nat.min_eq_right (by omega)]
    refine ⟨le_refl _, fun b hb hne => .inl (nearer_than_below_of_le ?_ ?_)⟩
    · have f1 : (n : ℝ) * 2 ^ k ≤ (y + 1 / 2) * 2 ^ k := mul_le_mul_of_nonneg_right e1 hK.le
      rcases hbelow (infBits F) (by omega) with hc | ⟨hc, hny⟩ <;> linarith
    · exact_mod_cast unitsOf_strictMono F (lt_of_le_of_ne hb hne)

theorem roundMag_le (F : FloatFormat) (num den : Nat) : roundMag F num den ≤ infBits F := Nat.min_le_right _ _

/-- A magnitude that stands for the quotient itself is what `roundMag` answers. -/
theorem roundMag_exact {num den m : Nat} (h : 0 < den) (hm : m ≤ infBits F) (he : num = unitsOf F m * den) :
    roundMag F num den = m := by
  by_contra hne
  have hd : (den : ℝ) ≠ 0 := by exact_mod_cast h.ne'
  have hx : (num : ℝ) / den = unitsOf F m := by
    rw [he]
    push_cast
    field_simp
  have h1 := (roundMag_nearest F num h).2 m hm (Ne.symm hne)
  rw [hx, sub_self, abs_zero] at h1
  have h2 : (unitsOf F (roundMag F num den) : ℝ) ≠ unitsOf F m := fun hh => hne ((unitsOf_strictMono F).injective (by exact_mod_cast hh))
  have h3 : 0 < |(unitsOf F (roundMag F num den) : ℝ) - unitsOf F m| := abs_pos.mpr (sub_ne_zero.mpr h2)
  rcases h1 with h1 | ⟨h1, -⟩ <;> linarith

/-- The bits of the whole root: each round keeps the square of `r` within `n` and brings the next one out of it. -/
theorem isqrtBits_spec (n : Nat) : ∀ k r, r * r ≤ n → n < (r + 2 ^ k) * (r + 2 ^ k) →
    isqrtBits n k r * isqrtBits n k r ≤ n ∧ n < (isqrtBits n k r + 1) * (isqrtBits n k r + 1)
  | 0, r, h1, h2 => ⟨h1, by simpa [isqrtBits] using h2⟩
  | k + 1, r, h1, h2 => by
    rw [isqrtBits]
    split
    · next h => exact isqrtBits_spec n k _ h (by rwa [Nat.add_assoc, ← Nat.two_mul, ← Nat.pow_succ'])
    · next h => exact isqrtBits_spec n k _ h1 (by omega)

/-- `isqrt` is the whole square root. -/
theorem isqrt_spec (n : Nat) : isqrt n * isqrt n ≤ n ∧ n < (isqrt n + 1) * (isqrt n + 1) := by
  refine isqrtBits_spec n _ 0 (Nat.zero_le _) ?_
  rw [Nat.zero_add, ← Nat.pow_add]
  exact Nat.lt_log2_self.trans_le (Nat.pow_le_pow_right (by norm_num) (by omega))

/-- Two quantities strictly between the same neighbouring halves round alike, because what separates two magnitudes is a
whole number of halves. -/
theorem IsNearest.between {x y : ℝ} {b h : Nat} (hy : IsNearest F y b) (hy1 : (h : ℝ) / 2 < y) (hy2 : y < ((h : ℝ) + 1) / 2)
    (hx1 : (h : ℝ) / 2 < x) (hx2 : x < ((h : ℝ) + 1) / 2) : IsNearest F x b := by
  refine ⟨hy.1, fun b' hb' hne => .inl ?_⟩
  have h0 := hy.2 b' hb' hne
  have hsum : unitsOf F b + unitsOf F b' ≤ h ∨ h + 1 ≤ unitsOf F b + unitsOf F b' := by omega
  have hs : (unitsOf F b : ℝ) + unitsOf F b' ≤ h ∨ (h : ℝ) + 1 ≤ (unitsOf F b : ℝ) + unitsOf F b' := by exact_mod_cast hsum
  have hle : |(unitsOf F b : ℝ) - y| ≤ |(unitsOf F b' : ℝ) - y| := by
    rcases h0 with h0 | h0
    · exact h0.le
    · exact h0.1.le
  rw [← sq_le_sq] at hle
  rw [← sq_lt_sq]
  rcases Nat.lt_or_gt_of_ne hne with hlt | hlt
  · have hu : (unitsOf F b' : ℝ) < unitsOf F b := by exact_mod_cast unitsOf_strictMono F hlt
    rcases hs with hs | hs <;> nlinarith
  · have hu : (unitsOf F b : ℝ) < unitsOf F b' := by exact_mod_cast unitsOf_strictMono F hlt
    rcases hs with hs | hs <;> nlinarith

/-- `rootMag` is the magnitude nearest to the square root, ties to even. -/
theorem rootMag_nearest (F : FloatFormat) (n : Nat) : IsNearest F (Real.sqrt n) (rootMag F n) := by
  obtain ⟨h1, h2⟩ := isqrt_spec (4 * n)
  rw [rootMag]
  generalize isqrt (4 * n) = r at *
  have hn : (0 : ℝ) ≤ n := Nat.cast_nonneg n
  have hr : (0 : ℝ) ≤ r := Nat.cast_nonneg r
  have hm := roundMag_nearest F (2 * r + if r * r = 4 * n then 0 else 1) (den := 4) (by norm_num)
  split at hm
  · next he =>
    rw [if_pos he]
    have hx : Real.sqrt n = ((2 * r + 0 : Nat) : ℝ) / (4 : Nat) := by
      have he' : (r : ℝ) * r = 4 * n := by exact_mod_cast he
      rw [Real.sqrt_eq_iff_mul_self_eq hn (by positivity)]
      push_cast
      linarith
    rw [hx]
    exact hm
  · next he =>
    rw [if_neg he]
    have c1 : (r : ℝ) * r < 4 * n := by exact_mod_cast lt_of_le_of_ne h1 he
    have c2 : (4 : ℝ) * n < (r + 1) * (r + 1) := by exact_mod_cast h2
    refine hm.between (h := r) ?_ ?_ ?_ ?_
    · push_cast
      linarith
    · push_cast
      linarith
    · rw [Real.lt_sqrt (by positivity)]
      linarith
    · rw [Real.sqrt_lt' (by positivity)]
      linarith

theorem rootMag_le (F : FloatFormat) (n : Nat) : rootMag F n ≤ infBits F := roundMag_le F _ _

/-- The fields of a value that is packed from a rounded magnitude. -/
theorem magBits_pack_roundMag (neg : Bool) (num den : Nat) :
    magBits (pack neg (roundMag F num den) : Val F) = roundMag F num den :=
  magBits_pack neg ((roundMag_le F num den).trans_lt (infBits_lt F))

theorem signBit_pack_roundMag (neg : Bool) (num den : Nat) : signBit (pack neg (roundMag F num den) : Val F) = neg :=
  signBit_pack neg ((roundMag_le F num den).trans_lt (infBits_lt F))

theorem magBits_pack_rootMag (neg : Bool) (n : Nat) : magBits (pack neg (rootMag F n) : Val F) = rootMag F n :=
  magBits_pack_roundMag neg _ _

theorem signBit_pack_rootMag (neg : Bool) (n : Nat) : signBit (pack neg (rootMag F n) : Val F) = neg :=
  signBit_pack_roundMag neg _ _

/-- A finite value is neither a NaN nor an infinity. -/
theorem isFinite_cases {a : Val F} (h : isFinite a = true) : isNaN a = false ∧ isInf a = false := by
  simp only [isFinite, isNaN, isInf, decide_eq_true_eq, decide_eq_false_iff_not, beq_eq_false_iff_ne] at *
  omega

/-- On finite values that do not cancel, `fadd` packs the rounded exact sum. -/
theorem fadd_finite (ν : Val F) {a b : Val F} (ha : isFinite a = true) (hb : isFinite b = true) (h : intOf a + intOf b ≠ 0) :
    fadd ν a b = pack (decide (intOf a + intOf b < 0)) (roundMag F (intOf a + intOf b).natAbs 1) := by
  simp [fadd, isFinite_cases ha, isFinite_cases hb, h]

/-- On finite values that cancel, `fadd` answers a zero. -/
theorem fadd_cancel (ν : Val F) {a b : Val F} (ha : isFinite a = true) (hb : isFinite b = true) (h : intOf a + intOf b = 0) :
    fadd ν a b = pack (signBit a && signBit b) 0 := by
  simp [fadd, isFinite_cases ha, isFinite_cases hb, h]

/-- On finite values `fmul` packs the rounded exact product. -/
theorem fmul_finite (ν : Val F) {a b : Val F} (ha : isFinite a = true) (hb : isFinite b = true) :
    fmul ν a b =
      pack (signBit a != signBit b) (roundMag F (unitsOf F (magBits a) * unitsOf F (magBits b)) (2 ^ unitExp F)) := by
  simp [fmul, isFinite_cases ha, isFinite_cases hb]

/-- On finite values with a divisor that is no zero `fdiv` packs the rounded exact quotient. -/
theorem fdiv_finite (ν : Val F) {a b : Val F} (ha : isFinite a = true) (hb : isFinite b = true) (h : isZero b = false) :
    fdiv ν a b =
      pack (signBit a != signBit b) (roundMag F (unitsOf F (magBits a) * 2 ^ unitExp F) (unitsOf F (magBits b))) := by
  simp [fdiv, isFinite_cases ha, isFinite_cases hb, h]

/-- Adding a zero to a finite value that is no zero gives the value. -/
theorem fadd_zero_left (ν : Val F) {z b : Val F} (hz : isZero z = true) (hb : isFinite b = true) (h : isZero b = false) :
    fadd ν z b = b := by
  have hz' : magBits z = 0 := by simpa [isZero] using hz
  have hb' : magBits b ≠ 0 := by simpa [isZero] using h
  have hlt : magBits b < infBits F := by simpa [isFinite] using hb
  have hu : 0 < unitsOf F (magBits b) := by
    have := unitsOf_strictMono F (Nat.pos_of_ne_zero hb')
    rwa [unitsOf_zero] at this
  have hi : intOf z = 0 := by simp [intOf, hz']
  have hs : intOf z + intOf b ≠ 0 ∧ decide (intOf z + intOf b < 0) = signBit b ∧
      (intOf z + intOf b).natAbs = unitsOf F (magBits b) := by
    rw [hi, zero_add]
    cases hsb : signBit b <;> simp [intOf, hsb] <;> omega
  rw [fadd_finite ν (by simp [isFinite, hz', Nat.zero_lt_of_lt hlt]) hb hs.1, hs.2.1, hs.2.2,
    roundMag_exact (m := magBits b) (by norm_num) hlt.le (by simp), pack_eq]

/-! The constants of R16. -/

@[simp] theorem magBits_nearestTo (num den : Nat) :
    magBits (nearestTo num den : Val F) = roundMag F (num * 2 ^ unitExp F) den := magBits_pack_roundMag _ _ _

@[simp] theorem signBit_nearestTo (num den : Nat) : signBit (nearestTo num den : Val F) = false :=
  signBit_pack_roundMag _ _ _

/-- `nearestTo` is the value nearest to its quotient. -/
theorem nearestTo_nearest (num : Nat) {den : Nat} (h : 0 < den) :
    IsNearest F ((num : ℝ) / den * 2 ^ unitExp F) (magBits (nearestTo num den : Val F)) := by
  rw [magBits_nearestTo, show (num : ℝ) / den * 2 ^ unitExp F = ((num * 2 ^ unitExp F : Nat) : ℝ) / den by push_cast; ring]
  exact roundMag_nearest F _ h

/-- Every power of two up to two is a value of `F`. -/
theorem exists_two_pow (F : FloatFormat) {j : Nat} (h : j ≤ unitExp F + 1) : ∃ m < infBits F, unitsOf F m = 2 ^ j := by
  have hP := Nat.two_pow_pos F.fracBits
  have hI := infBits_ge F
  by_cases hj : j < F.fracBits
  · have := Nat.pow_lt_pow_right (a := 2) (by norm_num) hj
    exact ⟨2 ^ j, by omega, unitsOf_low this⟩
  · refine ⟨(j - F.fracBits) * 2 ^ F.fracBits + 2 ^ F.fracBits, ?_, ?_⟩
    · rw [← Nat.succ_mul]
      refine Nat.mul_lt_mul_of_pos_right ?_ hP
      have h1 : 2 ^ F.expBits = 2 * 2 ^ (F.expBits - 1) := by
        rw [← Nat.pow_succ', Nat.succ_eq_add_one, Nat.sub_add_cancel (by have := F.exp_ge; omega)]
      have h2 : 2 ^ 1 ≤ 2 ^ (F.expBits - 1) := Nat.pow_le_pow_right (by norm_num) (by have := F.exp_ge; omega)
      have h3 : unitExp F + 2 = 2 ^ (F.expBits - 1) + F.fracBits := by
        have := F.frac_ge
        rw [unitExp]
        omega
      omega
    · rw [unitsOf_fields (.inl (le_refl _)) (by omega), ← Nat.pow_add]
      congr 1
      omega

/-- The unit is no more than a half. -/
theorem unitExp_pos (F : FloatFormat) : 1 ≤ unitExp F := by
  have h2 : 2 ^ 1 ≤ 2 ^ (F.expBits - 1) := Nat.pow_le_pow_right (by norm_num) (by have := F.exp_ge; omega)
  have := F.frac_ge
  rw [unitExp]
  omega

/-- A quotient that is a power of two up to two is what `nearestTo` answers. -/
theorem unitsOf_nearestTo {num den j : Nat} (hd : 0 < den) (hj : j ≤ unitExp F + 1) (h : num * 2 ^ unitExp F = 2 ^ j * den) :
    unitsOf F (magBits (nearestTo num den : Val F)) = 2 ^ j ∧ isFinite (nearestTo num den : Val F) = true := by
  obtain ⟨m, hm, hu⟩ := exists_two_pow F hj
  rw [isFinite, magBits_nearestTo, roundMag_exact hd hm.le (by rw [hu, h])]
  exact ⟨hu, by simpa using hm⟩

theorem intOf_cOne : intOf (cOne : Val F) = 2 ^ unitExp F ∧ isFinite (cOne : Val F) = true := by
  have h := unitsOf_nearestTo (F := F) (num := 1) (den := 1) (j := unitExp F) (by norm_num) (by omega) (by ring)
  exact ⟨by simp only [intOf, cOne, signBit_nearestTo, h.1]; simp, h.2⟩

theorem intOf_cTwo : intOf (cTwo : Val F) = 2 * 2 ^ unitExp F ∧ isFinite (cTwo : Val F) = true := by
  have h := unitsOf_nearestTo (F := F) (num := 2) (den := 1) (j := unitExp F + 1) (by norm_num) (by omega) (by ring)
  refine ⟨?_, h.2⟩
  simp only [intOf, cTwo, signBit_nearestTo, h.1]
  push_cast
  simp [pow_succ']

theorem intOf_halfF : intOf (halfF : Val F) = 2 ^ (unitExp F - 1) ∧ isFinite (halfF : Val F) = true := by
  have hU := unitExp_pos F
  have h := unitsOf_nearestTo (F := F) (num := 1) (den := 2) (j := unitExp F - 1) (by norm_num) (by omega) (by
    rw [Nat.one_mul, ← Nat.pow_succ, Nat.succ_eq_add_one, Nat.sub_add_cancel hU])
  exact ⟨by simp only [intOf, halfF, signBit_nearestTo, h.1]; simp, h.2⟩

end Sys2Proof.Machine
end

