-- ==== Sys2Proof/Laws/Flags.lean ====
section
/-! SUPPORT. Laws/Flags.lean: the comparisons and the clamp. -/

namespace Sys2Proof.Machine

variable {F : FloatFormat}

theorem flt_nan {a b : Val F} (h : isNaN a = true ∨ isNaN b = true) : flt a b = false := by
  rcases h with h | h <;> simp [flt, h]

theorem fgt_nan {a b : Val F} (h : isNaN a = true ∨ isNaN b = true) : fgt a b = false := by
  rcases h with h | h <;> simp [fgt, h]

theorem feq_nan {a b : Val F} (h : isNaN a = true ∨ isNaN b = true) : feq a b = false := by
  rcases h with h | h <;> simp [feq, h]

/-- Everything a clamp can answer. -/
theorem clamp_cases (v lo hi : Val F) :
    (clamp v lo hi = lo ∧ flt v lo = true) ∨ (clamp v lo hi = hi ∧ flt v lo = false ∧ fgt v hi = true) ∨
      (clamp v lo hi = v ∧ flt v lo = false ∧ fgt v hi = false) := by
  unfold clamp
  by_cases h1 : flt v lo = true
  · simp [h1]
  · by_cases h2 : fgt v hi = true <;> simp [h1, h2]

/-- A NaN passes the clamp. -/
theorem clamp_nan {v : Val F} (h : isNaN v = true) (lo hi : Val F) : clamp v lo hi = v := by
  simp [clamp, flt, fgt, h]

/-- The values that are a zero of either sign. -/
theorem isZero_cases {a : Val F} (h : isZero a = true) :
    isNaN a = false ∧ isInf a = false ∧ isFinite a = true ∧ intOf a = 0 := by
  have := infBits_ge F
  have := Nat.two_pow_pos F.fracBits
  simp only [isZero, beq_iff_eq] at h
  simp only [isNaN, isFinite, isInf, h, intOf, unitsOf_zero]
  simp
  omega

theorem isInf_cases {a : Val F} (h : isInf a = true) : isNaN a = false ∧ isFinite a = false ∧ isZero a = false := by
  have := infBits_ge F
  have := Nat.two_pow_pos F.fracBits
  simp only [isInf, beq_iff_eq] at h
  simp only [isNaN, isFinite, isZero, h]
  simp
  omega

/-- Every value is a NaN, an infinity or finite. -/
theorem word_cases (a : Val F) : isNaN a = true ∨ isInf a = true ∨ isFinite a = true := by
  simp only [isNaN, isInf, isFinite, decide_eq_true_eq, beq_iff_eq]
  omega

end Sys2Proof.Machine
end

