-- ==== Sys2Proof/Laws/Operands.lean ====
section
/-! SUPPORT. Laws/Operands.lean: the register maps the operations use against the register numbers of R90, and which registers
can be written. -/

namespace Sys2Proof.Machine

variable {F : FloatFormat}

theorem piRegOf_isSome : ∀ r : Byte, (piRegOf r).isSome = piRegNums.contains r.toNat := by decide +kernel

theorem pidRegOf_isSome : ∀ r : Byte, (pidRegOf r).isSome = pidRegNums.contains r.toNat := by decide +kernel

theorem lpf1RegOf_isSome : ∀ r : Byte, (lpf1RegOf r).isSome = lpf1RegNums.contains r.toNat := by decide +kernel

theorem lpf2RegOf_isSome : ∀ r : Byte, (lpf2RegOf r).isSome = lpf2RegNums.contains r.toNat := by decide +kernel

theorem ccRegOf_pi_isSome : ∀ r : Byte, (ccRegOf piRegOf r).isSome = (ccRegNums .pi).contains r.toNat := by
  decide +kernel

theorem ccRegOf_pid_isSome : ∀ r : Byte, (ccRegOf pidRegOf r).isSome = (ccRegNums .pid).contains r.toNat := by
  decide +kernel

/-- Whether a PI register is `RW` (R24). -/
def piWritable : PiReg → Bool
  | .kP | .kI | .outMin | .outMax => true
  | .integ | .spLast | .pvLast | .ffLast => false

/-- Whether a PID register is `RW` (R28). -/
def pidWritable : PidReg → Bool
  | .kP | .kI | .kD | .outMin | .outMax | .dB0 | .dB1 | .dA1 => true
  | .integ | .spLast | .pvLast | .ffLast | .dX1 | .dY1 => false

/-- Whether a register of a current controller is `RW` (R33). -/
def ccWritable {ρ : Type} (ctrl : ρ → Bool) : CcReg ρ → Bool
  | .d r | .q r => ctrl r
  | .idRef | .iqRef => true
  | .vAlpha | .vBeta => false

theorem PiRegs.write_isSome (c : PiRegs F) (r : PiReg) (v : Val F) : (c.write r v).isSome = piWritable r := by
  cases r <;> rfl

theorem PidRegs.write_isSome (c : PidRegs F) (r : PidReg) (v : Val F) : (c.write r v).isSome = pidWritable r := by
  cases r <;> rfl

theorem Lpf1Regs.write_isSome (f : Lpf1Regs F) (r : Lpf1Reg) (v : Val F) : (f.write r v).isSome = true := by
  cases r <;> rfl

theorem Lpf2Regs.write_isSome (f : Lpf2Regs F) (r : Lpf2Reg) (v : Val F) : (f.write r v).isSome = true := by
  cases r <;> rfl

theorem CcRegs.write_pi_isSome (cc : CcRegs F (PiRegs F)) (r : CcReg PiReg) (v : Val F) :
    (cc.write PiRegs.write r v).isSome = ccWritable piWritable r := by
  cases r <;> simp [CcRegs.write, ccWritable, PiRegs.write_isSome]

theorem CcRegs.write_pid_isSome (cc : CcRegs F (PidRegs F)) (r : CcReg PidReg) (v : Val F) :
    (cc.write PidRegs.write r v).isSome = ccWritable pidWritable r := by
  cases r <;> simp [CcRegs.write, ccWritable, PidRegs.write_isSome]

theorem piWritable_eq : ∀ (r : Byte) (reg : PiReg), piRegOf r = some reg →
    piWritable reg = !ctrlReadOnlyNums.contains r.toNat := by decide +kernel

theorem pidWritable_eq : ∀ (r : Byte) (reg : PidReg), pidRegOf r = some reg →
    pidWritable reg = !ctrlReadOnlyNums.contains r.toNat := by decide +kernel

/-- The writable registers of a current controller, by number, for each register the number names. -/
theorem ccWritable_pi_eq : ∀ r : Byte,
    (ccRegOf piRegOf r).all (fun reg => ccWritable piWritable reg == !ccReadOnlyNums.contains r.toNat) = true := by
  decide +kernel

theorem ccWritable_pid_eq : ∀ r : Byte,
    (ccRegOf pidRegOf r).all (fun reg => ccWritable pidWritable reg == !ccReadOnlyNums.contains r.toNat) = true := by
  decide +kernel

end Sys2Proof.Machine
end

