-- ==== Sys2Proof/Laws/PerInstr.lean ====
section
/-! SUPPORT. Laws/PerInstr.lean: for every operation, what the spec's opcode table says of its command word: the fixed
bits, and nothing set that must be zero. -/

namespace Sys2Proof.Laws.EncodeFixedBits

open Sys2Proof Sys2Proof.Machine

/-- The row of the opcode table (`match`, `mask`) of an operation. -/
def rowOf : Instr → Nat × Nat
  | .piRun _ => (0x10, 0xFFFF00FF)
  | .piReset _ => (0x11, 0xFFFF00FF)
  | .piRd _ _ => (0x12, 0xFF0000FF)
  | .piWr _ _ => (0x13, 0xFF0000FF)
  | .pidRun _ => (0x20, 0xFFFF00FF)
  | .pidReset _ => (0x21, 0xFFFF00FF)
  | .pidRd _ _ => (0x22, 0xFF0000FF)
  | .pidWr _ _ => (0x23, 0xFF0000FF)
  | .lpf1Run _ => (0x30, 0xFFFF00FF)
  | .lpf1Setic _ => (0x31, 0xFFFF00FF)
  | .lpf1Rd _ _ => (0x32, 0xFF0000FF)
  | .lpf1Wr _ _ => (0x33, 0xFF0000FF)
  | .lpf2Run _ => (0x40, 0xFFFF00FF)
  | .lpf2Setic _ => (0x41, 0xFFFF00FF)
  | .lpf2Rd _ _ => (0x42, 0xFF0000FF)
  | .lpf2Wr _ _ => (0x43, 0xFF0000FF)
  | .clarke => (0x50, 0xFFFFFFFF)
  | .iclarke => (0x51, 0xFFFFFFFF)
  | .park => (0x52, 0xFFFFFFFF)
  | .ipark => (0x53, 0xFFFFFFFF)
  | .ccRunsc _ => (0x60, 0xFFFF00FF)
  | .ccRuna _ => (0x61, 0xFFFF00FF)
  | .ccRd _ _ => (0x62, 0xFF0000FF)
  | .ccWr _ _ => (0x63, 0xFF0000FF)
  | .ccReset _ => (0x64, 0xFFFF00FF)
  | .svmSetvref _ => (0x70, 0xFFFF00FF)
  | .svmAllowovm _ _ => (0x71, 0xFFFE00FF)
  | .svmRun _ => (0x72, 0xFFFF00FF)
  | .svmGeta _ => (0x73, 0xFFFF00FF)
  | .svmGetb _ => (0x74, 0xFFFF00FF)
  | .svmGetc _ => (0x75, 0xFFFF00FF)

/-- The row stands in the spec's table, and the command word of the operation has its fixed bits. -/
def Statement (i : Instr) : Prop :=
  rowOf i ∈ specRows ∧ encode i &&& BitVec.ofNat 32 (rowOf i).2 = BitVec.ofNat 32 (rowOf i).1

/-- The low byte and the must-be-zero bits of a command word. -/
theorem command_and (m : Format) (r i p : Byte) (h : (command r i p).toNat < m.bound) :
    command r i p &&& (m.mbz ||| 0xFF#32) = p.setWidth 32 := by
  have h2 : command r i p &&& 0xFF#32 = p.setWidth 32 := by
    apply BitVec.eq_of_toNat_eq
    rw [BitVec.toNat_and, toNat_command, show (0xFF#32).toNat = 2 ^ 8 - 1 from rfl, Nat.and_two_pow_sub_one_eq_mod,
      BitVec.toNat_setWidth]
    have := p.isLt
    omega
  rw [BitVec.and_or_distrib_left, (and_mbz_eq_zero m _).mpr h, h2, BitVec.zero_or]

/-- A command with the fields of a row of the table has the row's fixed bits. -/
theorem fixed (m : Format) (r i p : Byte) (row : Nat × Nat) (hrow : row ∈ specRows)
    (hmask : BitVec.ofNat 32 row.2 = m.mbz ||| 0xFF#32) (hmatch : BitVec.ofNat 32 row.1 = p.setWidth 32)
    (h : (command r i p).toNat < m.bound) :
    row ∈ specRows ∧ command r i p &&& BitVec.ofNat 32 row.2 = BitVec.ofNat 32 row.1 :=
  ⟨hrow, by rw [hmask, hmatch]; exact command_and m r i p h⟩

theorem bound_i (i p : Byte) : (command 0 i p).toNat < Format.i.bound := by
  have := i.isLt
  have := p.isLt
  rw [toNat_command, show (0 : Byte).toNat = 0 from rfl]
  simp only [Format.bound]
  omega

theorem bound_r (r i p : Byte) : (command r i p).toNat < Format.r.bound := by
  have := r.isLt
  have := i.isLt
  have := p.isLt
  rw [toNat_command]
  simp only [Format.bound]
  omega

theorem bound_f (f : Bool) (i p : Byte) : (command (if f then 1 else 0) i p).toNat < Format.f.bound := by
  have := i.isLt
  have := p.isLt
  rw [toNat_command]
  cases f <;> simp [Format.bound] <;> omega

theorem piRun (i : Byte) : Statement (.piRun i) :=
  fixed .i 0 i 0x10 (0x10, 0xFFFF00FF) (by decide) (by decide) (by decide) (bound_i i 0x10)
theorem piReset (i : Byte) : Statement (.piReset i) :=
  fixed .i 0 i 0x11 (0x11, 0xFFFF00FF) (by decide) (by decide) (by decide) (bound_i i 0x11)
theorem piRd (i : Byte) (r : Byte) : Statement (.piRd i r) :=
  fixed .r r i 0x12 (0x12, 0xFF0000FF) (by decide) (by decide) (by decide) (bound_r r i 0x12)
theorem piWr (i : Byte) (r : Byte) : Statement (.piWr i r) :=
  fixed .r r i 0x13 (0x13, 0xFF0000FF) (by decide) (by decide) (by decide) (bound_r r i 0x13)
theorem pidRun (i : Byte) : Statement (.pidRun i) :=
  fixed .i 0 i 0x20 (0x20, 0xFFFF00FF) (by decide) (by decide) (by decide) (bound_i i 0x20)
theorem pidReset (i : Byte) : Statement (.pidReset i) :=
  fixed .i 0 i 0x21 (0x21, 0xFFFF00FF) (by decide) (by decide) (by decide) (bound_i i 0x21)
theorem pidRd (i : Byte) (r : Byte) : Statement (.pidRd i r) :=
  fixed .r r i 0x22 (0x22, 0xFF0000FF) (by decide) (by decide) (by decide) (bound_r r i 0x22)
theorem pidWr (i : Byte) (r : Byte) : Statement (.pidWr i r) :=
  fixed .r r i 0x23 (0x23, 0xFF0000FF) (by decide) (by decide) (by decide) (bound_r r i 0x23)
theorem lpf1Run (i : Byte) : Statement (.lpf1Run i) :=
  fixed .i 0 i 0x30 (0x30, 0xFFFF00FF) (by decide) (by decide) (by decide) (bound_i i 0x30)
theorem lpf1Setic (i : Byte) : Statement (.lpf1Setic i) :=
  fixed .i 0 i 0x31 (0x31, 0xFFFF00FF) (by decide) (by decide) (by decide) (bound_i i 0x31)
theorem lpf1Rd (i : Byte) (r : Byte) : Statement (.lpf1Rd i r) :=
  fixed .r r i 0x32 (0x32, 0xFF0000FF) (by decide) (by decide) (by decide) (bound_r r i 0x32)
theorem lpf1Wr (i : Byte) (r : Byte) : Statement (.lpf1Wr i r) :=
  fixed .r r i 0x33 (0x33, 0xFF0000FF) (by decide) (by decide) (by decide) (bound_r r i 0x33)
theorem lpf2Run (i : Byte) : Statement (.lpf2Run i) :=
  fixed .i 0 i 0x40 (0x40, 0xFFFF00FF) (by decide) (by decide) (by decide) (bound_i i 0x40)
theorem lpf2Setic (i : Byte) : Statement (.lpf2Setic i) :=
  fixed .i 0 i 0x41 (0x41, 0xFFFF00FF) (by decide) (by decide) (by decide) (bound_i i 0x41)
theorem lpf2Rd (i : Byte) (r : Byte) : Statement (.lpf2Rd i r) :=
  fixed .r r i 0x42 (0x42, 0xFF0000FF) (by decide) (by decide) (by decide) (bound_r r i 0x42)
theorem lpf2Wr (i : Byte) (r : Byte) : Statement (.lpf2Wr i r) :=
  fixed .r r i 0x43 (0x43, 0xFF0000FF) (by decide) (by decide) (by decide) (bound_r r i 0x43)
theorem clarke : Statement .clarke :=
  fixed .n 0 0 0x50 (0x50, 0xFFFFFFFF) (by decide) (by decide) (by decide) (by decide)
theorem iclarke : Statement .iclarke :=
  fixed .n 0 0 0x51 (0x51, 0xFFFFFFFF) (by decide) (by decide) (by decide) (by decide)
theorem park : Statement .park :=
  fixed .n 0 0 0x52 (0x52, 0xFFFFFFFF) (by decide) (by decide) (by decide) (by decide)
theorem ipark : Statement .ipark :=
  fixed .n 0 0 0x53 (0x53, 0xFFFFFFFF) (by decide) (by decide) (by decide) (by decide)
theorem ccRunsc (i : Byte) : Statement (.ccRunsc i) :=
  fixed .i 0 i 0x60 (0x60, 0xFFFF00FF) (by decide) (by decide) (by decide) (bound_i i 0x60)
theorem ccRuna (i : Byte) : Statement (.ccRuna i) :=
  fixed .i 0 i 0x61 (0x61, 0xFFFF00FF) (by decide) (by decide) (by decide) (bound_i i 0x61)
theorem ccRd (i : Byte) (r : Byte) : Statement (.ccRd i r) :=
  fixed .r r i 0x62 (0x62, 0xFF0000FF) (by decide) (by decide) (by decide) (bound_r r i 0x62)
theorem ccWr (i : Byte) (r : Byte) : Statement (.ccWr i r) :=
  fixed .r r i 0x63 (0x63, 0xFF0000FF) (by decide) (by decide) (by decide) (bound_r r i 0x63)
theorem ccReset (i : Byte) : Statement (.ccReset i) :=
  fixed .i 0 i 0x64 (0x64, 0xFFFF00FF) (by decide) (by decide) (by decide) (bound_i i 0x64)
theorem svmSetvref (i : Byte) : Statement (.svmSetvref i) :=
  fixed .i 0 i 0x70 (0x70, 0xFFFF00FF) (by decide) (by decide) (by decide) (bound_i i 0x70)
theorem svmAllowovm (i : Byte) (f : Bool) : Statement (.svmAllowovm i f) :=
  fixed .f _ i 0x71 (0x71, 0xFFFE00FF) (by decide) (by decide) (by decide) (bound_f f i 0x71)
theorem svmRun (i : Byte) : Statement (.svmRun i) :=
  fixed .i 0 i 0x72 (0x72, 0xFFFF00FF) (by decide) (by decide) (by decide) (bound_i i 0x72)
theorem svmGeta (i : Byte) : Statement (.svmGeta i) :=
  fixed .i 0 i 0x73 (0x73, 0xFFFF00FF) (by decide) (by decide) (by decide) (bound_i i 0x73)
theorem svmGetb (i : Byte) : Statement (.svmGetb i) :=
  fixed .i 0 i 0x74 (0x74, 0xFFFF00FF) (by decide) (by decide) (by decide) (bound_i i 0x74)
theorem svmGetc (i : Byte) : Statement (.svmGetc i) :=
  fixed .i 0 i 0x75 (0x75, 0xFFFF00FF) (by decide) (by decide) (by decide) (bound_i i 0x75)

end Sys2Proof.Laws.EncodeFixedBits
end

