-- ==== Sys2Proof/Machine/Pseudo.lean ====
section
/-! DEFINITION. Machine/Pseudo.lean: the nine pseudo-operations of R94, each the list of commands the host presents for it.
They have no command word of their own, and none is atomic as a group. -/

namespace Sys2Proof.Machine

variable {F : FloatFormat}

/-- The pseudo-operations of R94 with their operand words. -/
inductive Pseudo (F : FloatFormat) where
  | piCfg (i : Byte) (kP kI lo hi : Val F)
  | pidCfg (i : Byte) (kP kI kD lo hi : Val F)
  | pidDfilt (i : Byte) (b0 b1 a1 : Val F)
  | lpf1Coef (i : Byte) (b0 b1 a1 : Val F)
  | lpf2Coef (i : Byte) (b0 b1 b2 a1 a2 : Val F)
  | ccSetref (j : Byte) (id iq : Val F)
  | ccCfgd (j : Byte) (kP kI lo hi : Val F)
  | ccCfgq (j : Byte) (kP kI lo hi : Val F)
  | svmGet (i : Byte)
deriving DecidableEq, Repr

/-- The command of an operation with one operand word. The words the operation's rule does not name are ignored (R80). -/
def commandOf (i : Instr) (a0 : Val F) : Input F :=
  .command { cmd := encode i, args := { a0 := a0, a1 := zeroF, a2 := zeroF, a3 := zeroF } }

/-- The expansion of a pseudo-operation, in the order of R94. -/
def Pseudo.expand : Pseudo F → List (Input F)
  | .piCfg i kP kI lo hi =>
    [commandOf (.piWr i 0x00) kP, commandOf (.piWr i 0x01) kI, commandOf (.piWr i 0x03) lo, commandOf (.piWr i 0x04) hi]
  | .pidCfg i kP kI kD lo hi =>
    [commandOf (.pidWr i 0x00) kP, commandOf (.pidWr i 0x01) kI, commandOf (.pidWr i 0x02) kD,
      commandOf (.pidWr i 0x03) lo, commandOf (.pidWr i 0x04) hi]
  | .pidDfilt i b0 b1 a1 =>
    [commandOf (.pidWr i 0x09) b0, commandOf (.pidWr i 0x0A) b1, commandOf (.pidWr i 0x0B) a1]
  | .lpf1Coef i b0 b1 a1 =>
    [commandOf (.lpf1Wr i 0x00) b0, commandOf (.lpf1Wr i 0x01) b1, commandOf (.lpf1Wr i 0x02) a1]
  | .lpf2Coef i b0 b1 b2 a1 a2 =>
    [commandOf (.lpf2Wr i 0x00) b0, commandOf (.lpf2Wr i 0x01) b1, commandOf (.lpf2Wr i 0x02) b2,
      commandOf (.lpf2Wr i 0x03) a1, commandOf (.lpf2Wr i 0x04) a2]
  | .ccSetref j id iq => [commandOf (.ccWr j 0x40) id, commandOf (.ccWr j 0x41) iq]
  | .ccCfgd j kP kI lo hi =>
    [commandOf (.ccWr j 0x00) kP, commandOf (.ccWr j 0x01) kI, commandOf (.ccWr j 0x03) lo, commandOf (.ccWr j 0x04) hi]
  | .ccCfgq j kP kI lo hi =>
    [commandOf (.ccWr j 0x20) kP, commandOf (.ccWr j 0x21) kI, commandOf (.ccWr j 0x23) lo, commandOf (.ccWr j 0x24) hi]
  | .svmGet i => [commandOf (.svmGeta i) zeroF, commandOf (.svmGetb i) zeroF, commandOf (.svmGetc i) zeroF]

end Sys2Proof.Machine
end

