-- ==== Sys2Proof/Tests/Slice0.lean ====
section
/-! SUPPORT. Tests/Slice0.lean: the smoke tests of WellFormed, the decoding of a word written out bit by bit for every
operation, the worked examples of the spec, one step each, and for each obligation with hypotheses a witness that meets
them. Expected words are the spec's (30_encoding.md R85, R96; 40 to 45, the worked examples; 95_test_vectors.md). -/

namespace Sys2Proof.Tests

-- One test after the other: tests waiting for each other would each hold a thread with a stack of its own.
set_option Elab.async false

open Sys2Proof Sys2Proof.Machine

/-- The tests are of the default format: the spec's worked values are binary32 words. -/
abbrev F : FloatFormat := .binary32

/-! ## WellFormed -/

/-- Each check refuses an ill-formed term: no such instance, no such register, a read-only register. -/
theorem test_wellFormed_refuses :
    (Instr.piRun 2).wellFormed Build.default = false ∧ (Instr.piRun 2).verdict Build.default = .badInstance ∧
    (Instr.piRd 0 0x02).wellFormed Build.default = false ∧ (Instr.piRd 0 0x02).verdict Build.default = .badRegister ∧
    (Instr.ccWr 0 0x42).wellFormed Build.default = false ∧ (Instr.ccWr 0 0x42).verdict Build.default = .readOnly ∧
    (Instr.piWr 1 0x04).wellFormed Build.default = true := by decide

/-- The three checks come in the order of R86: `PI.WR 9, 0xFF` names neither an instance nor a register. -/
theorem test_wellFormed_order :
    (Instr.piWr 9 0xFF).verdict Build.default = .badInstance ∧ (Instr.piWr 0 0xFF).verdict Build.default = .badRegister ∧
    (Instr.lpf2Wr 0 0x08).verdict Build.default = .ok ∧ (Instr.lpf2Wr 0 0x09).verdict Build.default = .badRegister ∧
    (Instr.pidRd 0 0x0D).verdict Build.default = .ok ∧ (Instr.pidRd 0 0x0E).verdict Build.default = .badRegister := by
  decide

/-! ## Decoding: `MBZ` or `REG`, `INST` and `OPC` written out bit by bit from R81 and R85 -/

theorem test_decode_pi :
    decode 0b00000000_00000000_00000011_00010000#32 = .ok (.piRun 3) ∧
    decode 0b00000000_00000000_11111111_00010001#32 = .ok (.piReset 255) ∧
    decode 0b00000000_00001000_00000001_00010010#32 = .ok (.piRd 1 8) ∧
    decode 0b00000000_00000100_00000001_00010011#32 = .ok (.piWr 1 4) := by decide

theorem test_decode_pid :
    decode 0b00000000_00000000_00000001_00100000#32 = .ok (.pidRun 1) ∧
    decode 0b00000000_00000000_10000000_00100001#32 = .ok (.pidReset 128) ∧
    decode 0b00000000_00000101_00000000_00100010#32 = .ok (.pidRd 0 5) ∧
    decode 0b00000000_11111111_00000010_00100011#32 = .ok (.pidWr 2 255) := by decide

theorem test_decode_lpf1 :
    decode 0b00000000_00000000_00000101_00110000#32 = .ok (.lpf1Run 5) ∧
    decode 0b00000000_00000000_00000000_00110001#32 = .ok (.lpf1Setic 0) ∧
    decode 0b00000000_00000100_00000000_00110010#32 = .ok (.lpf1Rd 0 4) ∧
    decode 0b00000000_00000010_00000111_00110011#32 = .ok (.lpf1Wr 7 2) := by decide

theorem test_decode_lpf2 :
    decode 0b00000000_00000000_00001001_01000000#32 = .ok (.lpf2Run 9) ∧
    decode 0b00000000_00000000_01000000_01000001#32 = .ok (.lpf2Setic 64) ∧
    decode 0b00000000_00000110_00000011_01000010#32 = .ok (.lpf2Rd 3 6) ∧
    decode 0b00000000_00000001_00000000_01000011#32 = .ok (.lpf2Wr 0 1) := by decide

theorem test_decode_transforms :
    decode 0b00000000_00000000_00000000_01010000#32 = .ok .clarke ∧
    decode 0b00000000_00000000_00000000_01010001#32 = .ok .iclarke ∧
    decode 0b00000000_00000000_00000000_01010010#32 = .ok .park ∧
    decode 0b00000000_00000000_00000000_01010011#32 = .ok .ipark := by decide

theorem test_decode_cc :
    decode 0b00000000_00000000_00000001_01100000#32 = .ok (.ccRunsc 1) ∧
    decode 0b00000000_00000000_00000010_01100001#32 = .ok (.ccRuna 2) ∧
    decode 0b00000000_00100101_00000000_01100010#32 = .ok (.ccRd 0 0x25) ∧
    decode 0b00000000_01000001_00000000_01100011#32 = .ok (.ccWr 0 0x41) ∧
    decode 0b00000000_00000000_00000110_01100100#32 = .ok (.ccReset 6) := by decide

theorem test_decode_svm :
    decode 0b00000000_00000000_00000001_01110000#32 = .ok (.svmSetvref 1) ∧
    decode 0b00000000_00000001_00000000_01110001#32 = .ok (.svmAllowovm 0 true) ∧
    decode 0b00000000_00000000_00001001_01110001#32 = .ok (.svmAllowovm 9 false) ∧
    decode 0b00000000_00000000_00000010_01110010#32 = .ok (.svmRun 2) ∧
    decode 0b00000000_00000000_00000000_01110011#32 = .ok (.svmGeta 0) ∧
    decode 0b00000000_00000000_00000101_01110100#32 = .ok (.svmGetb 5) ∧
    decode 0b00000000_00000000_00000011_01110101#32 = .ok (.svmGetc 3) := by decide

/-- A must-be-zero bit of each format, its lowest and bit 31, and the neighbours of the opcode groups. -/
theorem test_decode_rejects :
    decode 0b00000000_00000000_00000001_01010000#32 = .error .reservedField ∧
    decode 0b00000000_00000001_00000000_00010000#32 = .error .reservedField ∧
    decode 0b00000001_00000000_00000000_00010010#32 = .error .reservedField ∧
    decode 0b00000000_00000010_00000000_01110001#32 = .error .reservedField ∧
    decode 0b10000000_00000000_00000000_01110001#32 = .error .reservedField ∧
    decode 0b00000000_00000000_00000000_00010100#32 = .error .illegalOpcode ∧
    decode 0b00000000_00000000_00000000_01010100#32 = .error .illegalOpcode ∧
    decode 0b00000000_00000000_00000000_01110110#32 = .error .illegalOpcode ∧
    decode 0b11111111_11111111_11111111_11111111#32 = .error .illegalOpcode := by decide

/-- The host's numbering of the bits: the whole command word, bit 0 the lowest. -/
theorem test_decodeTableWord :
    decodeTableWord 32 0x00040113 = some (.piWr 1 4) ∧ decodeTableWord 32 0x01000010 = none := by decide

/-! ## A small machine -/

/-- A PI controller with gains `0.1`, `0.01` and limits `±1` (the source's example, R111). -/
def pi0 : PiRegs F := { PiRegs.fresh (F := F) 0xBF800000#32 0x3F800000#32 with kP := 0x3DCCCCCD#32, kI := 0x3C23D70A#32 }

/-- The same with registers that all differ and limits the wrong way round. -/
def pi1 : PiRegs F :=
  { kP := 0x11#32, kI := 0x12#32, outMin := 0x3F800000#32, outMax := 0xBF800000#32, integ := 0x15#32,
    spLast := 0x16#32, pvLast := 0x17#32, ffLast := 0x18#32 }

/-- The PID controller of R133's example. -/
def pid0 : PidRegs F :=
  { PidRegs.fresh (F := F) 0xC1200000#32 0x41200000#32 0x3E800000#32 0x3E800000#32 0xBF000000#32 with
    kP := 0x3F800000#32, kI := 0x3F000000#32, kD := 0x40000000#32 }

/-- A PID controller without integral and derivative gain, its registers all different. -/
def pid1 : PidRegs F :=
  { kP := 0x3F800000#32, kI := 0x80000000#32, kD := 0x00000000#32, outMin := 0xC1200000#32, outMax := 0x41200000#32,
    integ := 0x3F800001#32, spLast := 0x26#32, pvLast := 0x27#32, ffLast := 0x28#32,
    dB0 := 0x29#32, dB1 := 0x2A#32, dA1 := 0x2B#32, dX1 := 0x3F800002#32, dY1 := 0x3F800003#32 }

/-- The filter of R151's example. -/
def lpf1 : Lpf1Regs F :=
  { b0 := 0x3E800000#32, b1 := 0x3E800000#32, a1 := 0xBF000000#32, x1 := 0x3F800000#32, y1 := 0x3E800000#32 }

/-- The filter of R156's example after its first sample. -/
def lpf2 : Lpf2Regs F :=
  { b0 := 0x3F800000#32, b1 := 0x40000000#32, b2 := 0x40400000#32, a1 := zeroF, a2 := zeroF,
    x1 := 0x3F800000#32, x2 := zeroF, y1 := 0x3F800000#32, y2 := zeroF }

/-- A controller of R192's example. -/
def piCc : PiRegs F := { PiRegs.fresh (F := F) 0xBF800000#32 0x3F800000#32 with kP := 0x3F000000#32, kI := 0x3E800000#32 }

/-- The current controller of R192's example. -/
def cc0 : CcRegs F (PiRegs F) := { CcRegs.fresh piCc piCc with iqRef := 0x3F800000#32 }

/-- A current controller with PID controllers. -/
def ccPid : CcRegs F (PidRegs F) := { CcRegs.fresh pid0 pid0 with iqRef := 0x3F800000#32 }

/-- A current controller whose d limits are the wrong way round. -/
def ccBad : CcRegs F (PiRegs F) := { cc0 with d := pi1 }

/-- The same with PID controllers, a NaN limit of q. -/
def ccPidBad : CcRegs F (PidRegs F) := { ccPid with q := { pid0 with outMax := 0x7FC00000#32 } }

def svm0 : SvmRegs F := SvmRegs.reset .own

/-- A modulator with a vector and flag of its own. -/
def svm1 : SvmRegs F :=
  { variant := .odtv1, va := 0x3F800000#32, vb := 0x3F000000#32, ovm := true, dA := 0x3E800000#32, dB := 0x3F000000#32,
    dC := 0x3F400000#32 }

/-- A machine with two controllers and modulators and one of every other unit. -/
def base : Block F :=
  { banks :=
      { pi := [pi0, pi1], pid := [pid0, pid1], lpf1 := [lpf1], lpf2 := [lpf2], cc := .pi [cc0, ccBad], svm := [svm0, svm1] }
    params := { clarkeMode := .three, dGate := .kd, sqrt := .ieee }
    draws := 1
    inbox := []
    args := { a0 := 0x3F800000#32, a1 := zeroF, a2 := zeroF, a3 := zeroF }
    resp := none }

/-- The same with the other static choices. -/
def baseOther : Block F :=
  { base with
    banks := { base.banks with cc := .pid [ccPid, ccPidBad] }
    params := { clarkeMode := .two, dGate := .ki, sqrt := .other 7 } }

/-- The operand words of a machine. -/
def withArgs (s : Block F) (a b c d : Val F) : Block F := { s with args := { a0 := a, a1 := b, a2 := c, a3 := d } }

/-- The machine after a step or an operation. -/
def after (s : Block F) (o : Outcome) : Block F :=
  match o with
  | .next t => if h : t.fmt = F then h ▸ t.block else s
  | .fault _ => s
  | .refused _ => s

/-- A machine to which the host has presented one command. -/
def offered (s : Block F) (w : Val F) : Block F := { s with inbox := [.command { cmd := w, args := s.args }] }

/-- The response to one command. -/
def answer (s : Block F) (w : Val F) : Option (Response F) := (after s (step ⟨F, offered s w⟩)).resp

/-- Instance `k` of the bank of PI controllers after an operation; likewise below. -/
def piAfter (s : Block F) (i : Instr) (k : Nat) : Option (PiRegs F) := (after s (exec i ⟨F, s⟩)).banks.pi[k]?
def pidAfter (s : Block F) (i : Instr) (k : Nat) : Option (PidRegs F) := (after s (exec i ⟨F, s⟩)).banks.pid[k]?
def svmAfter (s : Block F) (i : Instr) (k : Nat) : Option (SvmRegs F) := (after s (exec i ⟨F, s⟩)).banks.svm[k]?
def ccAfter (s : Block F) (i : Instr) (k : Nat) : Option (CcRegs F (PiRegs F)) :=
  match (after s (exec i ⟨F, s⟩)).banks.cc with
  | .pi l => l[k]?
  | .pid _ => none
def respAfter (s : Block F) (i : Instr) : Option (Response F) := (after s (exec i ⟨F, s⟩)).resp

/-! ## Arithmetic -/

/-- R16, R171, R213: products, quotients, roots and sums of the worked examples, and R12's corners. -/
theorem test_arithmetic :
    fadd (F := F) 0 0x3DCCCCCD#32 0x3C23D70A#32 = 0x3DE147AE#32 ∧ fmul (F := F) 0 c13 0xBF800000#32 = 0xBEAAAAAB#32 ∧
    fsub (F := F) 0 0x3F2AAAAB#32 0xBEAAAAAB#32 = 0x3F800000#32 ∧ fdiv (F := F) 0 0x3F5DB3D7#32 0x40A00000#32 = 0x3E315CAC#32 ∧
    fsqrt (F := F) 0 0x3F000000#32 = 0x3F3504F3#32 ∧ fmul (F := F) 0 0x7F7FFFFF#32 0x40000000#32 = 0x7F800000#32 ∧
    fadd (F := F) 0 0x3F800000#32 0xBF800000#32 = 0x00000000#32 ∧ fadd (F := F) 0 0x80000000#32 0x80000000#32 = 0x80000000#32 ∧
    isNaN (fmul (F := F) 0 0x7F800000#32 0x00000000#32) = true ∧ fmul (F := F) 0 0x00000001#32 0x3F000000#32 = 0x00000000#32 ∧
    fmul (F := F) 0 0x00000003#32 0x3F000000#32 = 0x00000002#32 := by decide +kernel

/-- R16, and with binary64 and binary16 in place of binary32 (R8): the constants, `0.1 + 0.2`, the square root of two, the
largest number doubled and the smallest halved, as IEEE 754 has them. -/
theorem test_constants :
    (c23 : Val F) = 0x3F2AAAAB#32 ∧ (c13 : Val F) = 0x3EAAAAAB#32 ∧ (cSqrt3 : Val F) = 0x3FDDB3D7#32 ∧
    (cSqrt32 : Val F) = 0x3F5DB3D7#32 ∧ (halfF : Val F) = 0x3F000000#32 ∧ (cNegHalf : Val F) = 0xBF000000#32 ∧
    (cTwo : Val F) = 0x40000000#32 ∧ (cOne : Val F) = 0x3F800000#32 := by decide +kernel

/-- IEEE 754 binary64. -/
abbrev F64 : FloatFormat := { expBits := 11, fracBits := 52, exp_ge := by decide, frac_ge := by decide }

/-- IEEE 754 binary16. -/
abbrev F16 : FloatFormat := { expBits := 5, fracBits := 10, exp_ge := by decide, frac_ge := by decide }

theorem test_binary64 :
    (c23 : Val F64) = 0x3FE5555555555555#64 ∧ (cSqrt3 : Val F64) = 0x3FFBB67AE8584CAA#64 ∧
    (cNegHalf : Val F64) = 0xBFE0000000000000#64 ∧
    fadd (F := F64) 0 0x3FB999999999999A#64 0x3FC999999999999A#64 = 0x3FD3333333333334#64 ∧
    fsqrt (F := F64) 0 0x4000000000000000#64 = 0x3FF6A09E667F3BCD#64 ∧
    isInf (fmul (F := F64) 0 0x7FEFFFFFFFFFFFFF#64 cTwo) = true := by decide +kernel

theorem test_binary16 :
    (c13 : Val F16) = 0x3555#16 ∧ (cSqrt3 : Val F16) = 0x3EEE#16 ∧ (cOne : Val F16) = 0x3C00#16 ∧
    fmul (F := F16) 0 0x7BFF#16 cTwo = 0x7C00#16 ∧ fmul (F := F16) 0 0x0001#16 halfF = 0x0000#16 ∧
    fdiv (F := F16) 0 cOne 0x4200#16 = 0x3555#16 ∧ isNaN (fsub (F := F16) 0 0x7C00#16 0x7C00#16) = true := by
  decide +kernel

/-- The machine of a binary64 build after reset: the duties are `0.5`. -/
theorem test_reset_binary64 :
    (Banks.reset F64 0 Build.default).svm.map SvmRegs.dA = [(0x3FE0000000000000#64 : Val F64)] ∧
    (State.resetOf { Build.default with fmt := F64 }).build = { Build.default with fmt := F64 } := by
  refine ⟨?_, rfl⟩
  decide +kernel

/-- R15: a NaN passes, `-0.0` is not raised to `+0.0`, the lower bound is tested first. -/
theorem test_clamp :
    clamp (F := F) 0x7FC00001#32 0xBF800000#32 0x3F800000#32 = 0x7FC00001#32 ∧ clamp (F := F) 0x80000000#32 0x00000000#32 cOne = 0x80000000#32 ∧
    clamp (F := F) 0x40000000#32 0xBF800000#32 0x3F800000#32 = 0x3F800000#32 ∧
    clamp (F := F) 0x00000000#32 0x3F800000#32 0xBF800000#32 = 0x3F800000#32 := by decide +kernel

/-! ## PI -/

/-- R111's worked example. -/
theorem test_piRun :
    respAfter base (.piRun 0) = some ⟨.ok, [0x3DE147AE#32]⟩ ∧
    piAfter base (.piRun 0) 0 = some { pi0 with integ := 0x3C23D70A#32, spLast := 0x3F800000#32 } := by decide +kernel

/-- R113: after R111's example the integrator and the remembered inputs are `+0.0`, gains and limits unchanged. -/
theorem test_piReset :
    piAfter (after base (exec (.piRun 0) ⟨F, base⟩)) (.piReset 0) 0 = some pi0 ∧
    piAfter base (.piReset 1) 1 = some { pi1 with integ := zeroF, spLast := zeroF, pvLast := zeroF, ffLast := zeroF } := by
  decide +kernel

/-- R114's worked example, and the numbers of R24. -/
theorem test_piRd :
    respAfter (after base (exec (.piRun 0) ⟨F, base⟩)) (.piRd 0 0x05) = some ⟨.ok, [0x3C23D70A#32]⟩ ∧
    respAfter base (.piRd 1 0x01) = some ⟨.ok, [0x12#32]⟩ ∧ respAfter base (.piRd 1 0x08) = some ⟨.ok, [0x18#32]⟩ ∧
    respAfter base (.piRd 1 0x02) = some ⟨.badRegister, []⟩ := by decide +kernel

/-- R115: a write stores the word and nothing is clamped again. -/
theorem test_piWr :
    piAfter base (.piWr 1 0x04) 1 = some { pi1 with outMax := 0x3F800000#32 } ∧
    respAfter base (.piWr 0 0x05) = some ⟨.readOnly, []⟩ ∧ respAfter base (.piWr 2 0x00) = some ⟨.badInstance, []⟩ := by
  decide +kernel

/-! ## PID -/

/-- R133's worked example. -/
theorem test_pidRun :
    respAfter (withArgs base 0x3F800000#32 0 0x3E000000#32 0) (.pidRun 0) = some ⟨.ok, [0x40080000#32]⟩ ∧
    pidAfter (withArgs base 0x3F800000#32 0 0x3E000000#32 0) (.pidRun 0) 0 =
      some { pid0 with
        integ := 0x3F000000#32, spLast := 0x3F800000#32, ffLast := 0x3E000000#32, dX1 := 0x40000000#32,
        dY1 := 0x3F000000#32 } := by decide +kernel

/-- R139, `kI` and `kD` zero: the output is `kP × e`, the integrator and the filter memory keep their words. -/
theorem test_pidRun_gates :
    respAfter base (.pidRun 1) = some ⟨.ok, [0x3F800000#32]⟩ ∧
    pidAfter base (.pidRun 1) 1 = some { pid1 with spLast := 0x3F800000#32, pvLast := zeroF, ffLast := zeroF } := by
  decide +kernel

/-- R135: the filter memory is cleared with the rest. -/
theorem test_pidReset :
    pidAfter base (.pidReset 1) 1 =
      some { pid1 with
        integ := zeroF, spLast := zeroF, pvLast := zeroF, ffLast := zeroF, dX1 := zeroF, dY1 := zeroF } := by
  decide +kernel

/-- R136, the numbers of R28. -/
theorem test_pidRd :
    respAfter base (.pidRd 1 0x05) = some ⟨.ok, [0x3F800001#32]⟩ ∧ respAfter base (.pidRd 1 0x09) = some ⟨.ok, [0x29#32]⟩ ∧
    respAfter base (.pidRd 1 0x0D) = some ⟨.ok, [0x3F800003#32]⟩ ∧ respAfter base (.pidRd 1 0x0E) = some ⟨.badRegister, []⟩ := by
  decide +kernel

/-- R137. -/
theorem test_pidWr :
    pidAfter base (.pidWr 1 0x0B) 1 = some { pid1 with dA1 := 0x3F800000#32 } ∧
    pidAfter base (.pidWr 1 0x02) 1 = some { pid1 with kD := 0x3F800000#32 } ∧
    respAfter base (.pidWr 1 0x0C) = some ⟨.readOnly, []⟩ := by decide +kernel

/-! ## Filters -/

/-- R151's second sample. -/
theorem test_lpf1Run :
    respAfter base (.lpf1Run 0) = some ⟨.ok, [0x3F200000#32]⟩ ∧
    (after base (exec (.lpf1Run 0) ⟨F, base⟩)).banks.lpf1 = [{ lpf1 with x1 := 0x3F800000#32, y1 := 0x3F200000#32 }] := by
  decide +kernel

/-- R152: `A0` is the new `x1`, `A1` the new `y1`. -/
theorem test_lpf1Setic :
    (after base (exec (.lpf1Setic 0) ⟨F, withArgs base 0x51#32 0x52#32 0x53#32 0x54#32⟩)).banks.lpf1 =
      [{ lpf1 with x1 := 0x51#32, y1 := 0x52#32 }] := by decide +kernel

/-- R153, R154. -/
theorem test_lpf1Rd_lpf1Wr :
    respAfter base (.lpf1Rd 0 0x04) = some ⟨.ok, [0x3E800000#32]⟩ ∧ respAfter base (.lpf1Rd 0 0x05) = some ⟨.badRegister, []⟩ ∧
    (after base (exec (.lpf1Wr 0 0x02) ⟨F, withArgs base 0xBF000001#32 0 0 0⟩)).banks.lpf1 =
      [{ lpf1 with a1 := 0xBF000001#32 }] := by decide +kernel

/-- R156's second sample, which tells the two-sample shift from the collapsed one. -/
theorem test_lpf2Run :
    respAfter (withArgs base 0 0 0 0) (.lpf2Run 0) = some ⟨.ok, [0x40000000#32]⟩ ∧
    (after base (exec (.lpf2Run 0) ⟨F, withArgs base 0 0 0 0⟩)).banks.lpf2 =
      [{ lpf2 with x1 := zeroF, x2 := 0x3F800000#32, y1 := 0x40000000#32, y2 := 0x3F800000#32 }] := by decide +kernel

/-- R157: `A0` to `A3` are the new `x1`, `x2`, `y1`, `y2`. -/
theorem test_lpf2Setic :
    (after base (exec (.lpf2Setic 0) ⟨F, withArgs base 0x51#32 0x52#32 0x53#32 0x54#32⟩)).banks.lpf2 =
      [{ lpf2 with x1 := 0x51#32, x2 := 0x52#32, y1 := 0x53#32, y2 := 0x54#32 }] := by decide +kernel

/-- R158, R159. -/
theorem test_lpf2Rd_lpf2Wr :
    respAfter base (.lpf2Rd 0 0x01) = some ⟨.ok, [0x40000000#32]⟩ ∧ respAfter base (.lpf2Rd 0 0x09) = some ⟨.badRegister, []⟩ ∧
    (after base (exec (.lpf2Wr 0 0x08) ⟨F, withArgs base 0x3E800000#32 0 0 0⟩)).banks.lpf2 =
      [{ lpf2 with y2 := 0x3E800000#32 }] := by decide +kernel

/-! ## Transforms -/

/-- R171's worked example, `THREE`; in `TWO` mode `alpha` is `A0` and `beta` of `(1, -0.5)` is zero. -/
theorem test_clarke :
    respAfter (withArgs base 0x3F800000#32 0xBF000000#32 0xBF000000#32 0) .clarke = some ⟨.ok, [0x3F800000#32, zeroF]⟩ ∧
    respAfter (withArgs baseOther 0x3F800000#32 0xBF000000#32 0x7FC00000#32 0) .clarke =
      some ⟨.ok, [0x3F800000#32, zeroF]⟩ := by decide +kernel

/-- R172's worked example. -/
theorem test_iclarke :
    respAfter (withArgs base 0 0x3F800000#32 0 0) .iclarke = some ⟨.ok, [zeroF, 0x3F5DB3D7#32, 0xBF5DB3D7#32]⟩ ∧
    respAfter (withArgs base 0x3F800000#32 0 0 0) .iclarke = some ⟨.ok, [0x3F800000#32, 0xBF000000#32, 0xBF000000#32]⟩ := by
  decide +kernel

/-- R173's worked example. -/
theorem test_park :
    respAfter (withArgs base 0x3F800000#32 0x40000000#32 0x3F19999A#32 0x3F4CCCCD#32) .park =
      some ⟨.ok, [0x40000000#32, 0x3F800000#32]⟩ := by decide +kernel

/-- R174's worked examples. -/
theorem test_ipark :
    respAfter (withArgs base 0x40000000#32 0x3F800000#32 0x3F19999A#32 0x3F4CCCCD#32) .ipark =
      some ⟨.ok, [0x3F800000#32, 0x40000000#32]⟩ ∧
    respAfter (withArgs base 0 0x3F800000#32 0x3F800000#32 0) .ipark = some ⟨.ok, [0xBF800000#32, zeroF]⟩ := by
  decide +kernel

/-! ## Current controller -/

/-- R192's worked example. -/
theorem test_ccRunsc :
    respAfter (withArgs base 0 0x3F000000#32 0 0x3F800000#32) (.ccRunsc 0) = some ⟨.ok, [zeroF, 0x3EC00000#32]⟩ ∧
    ((ccAfter (withArgs base 0 0x3F000000#32 0 0x3F800000#32) (.ccRunsc 0) 0).map fun c => (c.q.integ, c.vBeta)) =
      some (0x3E000000#32, 0x3EC00000#32) := by decide +kernel

/-- R193: the controllers run as in R192's example, whatever the backend gives. -/
theorem test_ccRuna :
    ((ccAfter (withArgs base 0 0x3F000000#32 0x42B40000#32 0) (.ccRuna 0) 0).map fun c => (c.d.integ, c.q.integ)) =
      some (zeroF, 0x3E000000#32) := by decide +kernel

/-- R194, the numbers of R33, with either kind of controller. -/
theorem test_ccRd :
    respAfter base (.ccRd 1 0x06) = some ⟨.ok, [0x16#32]⟩ ∧ respAfter base (.ccRd 0 0x20) = some ⟨.ok, [0x3F000000#32]⟩ ∧
    respAfter base (.ccRd 0 0x41) = some ⟨.ok, [0x3F800000#32]⟩ ∧ respAfter base (.ccRd 0 0x02) = some ⟨.badRegister, []⟩ ∧
    respAfter baseOther (.ccRd 0 0x02) = some ⟨.ok, [0x40000000#32]⟩ ∧
    respAfter baseOther (.ccRd 0 0x0E) = some ⟨.badRegister, []⟩ ∧
    respAfter baseOther (.ccRd 0 0x44) = some ⟨.badRegister, []⟩ := by decide +kernel

/-- R195. -/
theorem test_ccWr :
    ccAfter base (.ccWr 0 0x40) 0 = some { cc0 with idRef := 0x3F800000#32 } ∧
    ccAfter base (.ccWr 0 0x24) 0 = some { cc0 with q := { piCc with outMax := 0x3F800000#32 } } ∧
    respAfter base (.ccWr 0 0x43) = some ⟨.readOnly, []⟩ ∧ respAfter baseOther (.ccWr 1 0x2D) = some ⟨.readOnly, []⟩ := by
  decide +kernel

/-- R196: after R192's example `q` is cleared, the reference and the last output stay. -/
theorem test_ccReset :
    (let s := withArgs base 0 0x3F000000#32 0 0x3F800000#32
     ccAfter (after s (exec (.ccRunsc 0) ⟨F, s⟩)) (.ccReset 0) 0) = some { cc0 with vBeta := 0x3EC00000#32 } := by decide +kernel

/-! ## SVPWM -/

/-- R211, R212. -/
theorem test_svmSetters :
    svmAfter base (.svmSetvref 0) 0 = some { svm0 with va := 0x3F800000#32 } ∧
    svmAfter (withArgs base 0x51#32 0x52#32 0 0) (.svmSetvref 1) 1 = some { svm1 with va := 0x51#32, vb := 0x52#32 } ∧
    svmAfter base (.svmAllowovm 1 false) 1 = some { svm1 with ovm := false } ∧
    svmAfter base (.svmAllowovm 0 true) 0 = some { svm0 with ovm := true } := by decide +kernel

/-- R213's worked examples: scaled, unchanged, and scaled on the axis. -/
theorem test_svmLimit :
    svmLimit (F := F) .ieee (fun _ => 0) false 0x40400000#32 0x40800000#32 = (0x3F050581#32, 0x3F315CAC#32) ∧
    svmLimit (F := F) .ieee (fun _ => 0) false 0x3F000000#32 0x3F000000#32 = (0x3F000000#32, 0x3F000000#32) ∧
    svmLimit (F := F) .ieee (fun _ => 0) false 0x3F800000#32 zeroF = (0x3F5DB3D7#32, zeroF) ∧
    svmLimit (F := F) .ieee (fun _ => 0) true 0x40400000#32 0x40800000#32 = (0x40400000#32, 0x40800000#32) := by decide +kernel

/-- R214's worked example: after reset the null vector gives three halves. -/
theorem test_svmRun : svmAfter base (.svmRun 0) 0 = some svm0 := by decide +kernel

/-- R215, R216, R217. -/
theorem test_svmGetters :
    respAfter base (.svmGeta 1) = some ⟨.ok, [0x3E800000#32]⟩ ∧ respAfter base (.svmGetb 1) = some ⟨.ok, [0x3F000000#32]⟩ ∧
    respAfter base (.svmGetc 1) = some ⟨.ok, [0x3F400000#32]⟩ ∧ respAfter base (.svmGetc 2) = some ⟨.badInstance, []⟩ := by
  decide +kernel

/-! ## Step -/

/-- The table of R96 and `95_test_vectors.md`: a command is answered by the first check that fails. -/
theorem test_step_statuses :
    answer base 0x00000000#32 = some ⟨.illegalOpcode, []⟩ ∧ answer base 0x01FF0913#32 = some ⟨.reservedField, []⟩ ∧
    answer base 0x00FF0913#32 = some ⟨.badInstance, []⟩ ∧ answer base 0x00FF0013#32 = some ⟨.badRegister, []⟩ ∧
    answer base 0x00050013#32 = some ⟨.readOnly, []⟩ ∧ answer base 0x00040113#32 = some ⟨.ok, []⟩ := by decide +kernel

/-- R239: with nothing presented the machine stays as it is; and the reset event ends with the registers of R251. -/
theorem test_step_idle_and_reset :
    step ⟨F, base⟩ = .next ⟨F, base⟩ ∧ ((after base (step ⟨F, { base with inbox := [.reset] }⟩)).banks.svm = [svm0, SvmRegs.reset .odtv1]) ∧
    ((after base (step ⟨F, { base with inbox := [.reset] }⟩)).banks.pi.map fun c => (c.kP, c.integ)) = [(zeroF, zeroF), (zeroF, zeroF)] := by
  refine ⟨rfl, ?_, ?_⟩ <;> decide +kernel

/-- `withFetchWord` puts the table word first. -/
theorem test_withFetchWord :
    (after State.reset.block (step (State.reset.withFetchWord 32 0x00000073))).resp = some ⟨.ok, [halfF]⟩ ∧
    (after State.reset.block (step (State.reset.withFetchWord 32 0x00000050))).resp = some ⟨.ok, [zeroF, zeroF]⟩ := by
  decide +kernel

/-- R94: the words of `PI.CFG 1` and of `CC.SETREF 0`, written out from the table. -/
theorem test_pseudo :
    (Pseudo.piCfg (F := F) 1 0x51#32 0x52#32 0x53#32 0x54#32).expand.map (fun x =>
      match x with
      | .command r => (r.cmd, r.args.a0)
      | .reset => (0, 0)) =
      [(0x00000113#32, 0x51#32), (0x00010113#32, 0x52#32), (0x00030113#32, 0x53#32), (0x00040113#32, 0x54#32)] ∧
    (Pseudo.ccSetref (F := F) 0 0x51#32 0x52#32).expand.map (fun x =>
      match x with
      | .command r => (r.cmd, r.args.a0)
      | .reset => (0, 0)) = [(0x00400063#32, 0x51#32), (0x00410063#32, 0x52#32)] := by decide

/-! ## Witnesses: for each obligation with hypotheses, states and operands that meet them, clause by clause. An operation
that "answers next `t`" is shown to do so by `rfl` with `t` the state `after` it. -/

/-- A machine to which nothing but this was presented. -/
def withInbox (s : Block F) (l : List (Input F)) : Block F := { s with inbox := l }

def req (w : Val F) : Request F := { cmd := w, args := base.args }

theorem witness_UnlistedOpcodeIsAnsweredIllegalOpcode :
    (offered base 0x00000014#32).inbox = [.command (req 0x00000014#32)] ∧
    ∀ w ∈ [0x00000000#32, 0x0000000F#32, 0x00000014#32, 0x00000054#32, 0x00000065#32, 0x00000076#32, 0xFFFFFFFF#32],
      ∀ row ∈ specRows, w.toNat % 256 ≠ row.1 := by
  have h : ([0x00000000#32, 0x0000000F#32, 0x00000014#32, 0x00000054#32, 0x00000065#32, 0x00000076#32, 0xFFFFFFFF#32].all
      fun w => specRows.all fun row => w.toNat % 256 != row.1) = true := by decide +kernel
  refine ⟨rfl, ?_⟩
  simpa only [List.all_eq_true, bne_iff_ne] using h

theorem witness_MustBeZeroBitIsAnsweredReservedField :
    (offered base 0x00010010#32).inbox = [.command (req 0x00010010#32)] ∧
    (∀ w ∈ [0x00000150#32, 0x00010010#32, 0x01000012#32, 0x00020071#32, 0x80000071#32],
      ∃ row ∈ specRows, w.toNat % 256 = row.1 ∧ w &&& BitVec.ofNat 32 row.2 ≠ BitVec.ofNat 32 row.1) ∧
    ∀ w ∈ [0x00000050#32, 0x0000FF10#32, 0x00FFFF12#32, 0x0001FF71#32],
      ∃ row ∈ specRows, w.toNat % 256 = row.1 ∧ w &&& BitVec.ofNat 32 row.2 = BitVec.ofNat 32 row.1 := by
  have h1 : ([0x00000150#32, 0x00010010#32, 0x01000012#32, 0x00020071#32, 0x80000071#32].all fun w =>
      specRows.any fun row => w.toNat % 256 == row.1 && w &&& BitVec.ofNat 32 row.2 != BitVec.ofNat 32 row.1) = true := by
    decide +kernel
  have h2 : ([0x00000050#32, 0x0000FF10#32, 0x00FFFF12#32, 0x0001FF71#32].all fun w =>
      specRows.any fun row => w.toNat % 256 == row.1 && w &&& BitVec.ofNat 32 row.2 == BitVec.ofNat 32 row.1) = true := by
    decide +kernel
  simp only [List.all_eq_true, List.any_eq_true, Bool.and_eq_true, beq_iff_eq, bne_iff_ne] at h1 h2
  exact ⟨rfl, h1, h2⟩

theorem witness_EncodeOfDecodeIsTheWord : decode 0x00040113#32 = .ok (.piWr 1 4) := by decide

theorem witness_StepTakesTheOldestInput :
    base.inbox = [] ∧ (withInbox base [.reset, .reset]).inbox = [.reset, .reset] ∧
    (offered base 0x00000110#32).inbox = [.command (req 0x00000110#32)] ∧
    decode (req 0x00000110#32).cmd = .ok (.piRun 1) := ⟨rfl, rfl, rfl, by decide⟩

theorem witness_WellFormedOperationCompletesOk :
    (Instr.piRun 1).wellFormed base.build = true ∧ (Instr.pidWr 1 0x0B).wellFormed base.build = true ∧
    (Instr.ccWr 1 0x22).wellFormed baseOther.build = true ∧ Instr.park.wellFormed base.build = true ∧
    (Instr.svmAllowovm 1 true).wellFormed base.build = true ∧ (Instr.lpf2Rd 0 0x08).wellFormed base.build = true := by
  decide

theorem witness_StatusIsDecidedByTheOrderedChecks :
    (offered base 0x01FF0913#32).inbox = [.command (req 0x01FF0913#32)] ∧
    specStatus base.build 0x01FF0913#32 = .reservedField ∧ specStatus base.build 0x00FF0913#32 = .badInstance ∧
    specStatus base.build 0x00FF0013#32 = .badRegister ∧ specStatus base.build 0x00050013#32 = .readOnly ∧
    specStatus base.build 0x00040113#32 = .ok ∧ specStatus base.build 0x00000000#32 = .illegalOpcode := by
  refine ⟨rfl, ?_⟩
  decide

theorem witness_RejectedCommandChangesNothing :
    (∃ t p, (offered base 0x00050013#32).inbox = [.command (req 0x00050013#32)] ∧
      step ⟨F, offered base 0x00050013#32⟩ = .next ⟨F, t⟩ ∧ t.resp = some p ∧ p.status ≠ .ok) ∧
    ∃ t t' p p', (offered baseOther 0x00050013#32).inbox = [.command (req 0x00050013#32)] ∧
      (offered { baseOther with draws := 9 } 0x00050013#32).inbox = [.command (req 0x00050013#32)] ∧
      (offered baseOther 0x00050013#32).build = (offered { baseOther with draws := 9 } 0x00050013#32).build ∧
      step ⟨F, offered baseOther 0x00050013#32⟩ = .next ⟨F, t⟩ ∧
      step ⟨F, offered { baseOther with draws := 9 } 0x00050013#32⟩ = .next ⟨F, t'⟩ ∧ t.resp = some p ∧ t'.resp = some p' :=
  ⟨⟨_, _, rfl, rfl, rfl, by decide⟩, _, _, _, _, rfl, rfl, rfl, rfl, rfl, rfl, rfl⟩

theorem witness_OldOperandsAndResultsAreNotRead :
    (offered base 0x00000010#32).inbox = [.command (req 0x00000010#32)] := rfl

theorem witness_OperationTouchesOnlyItsInstance :
    exec (.piRun 0) ⟨F, base⟩ = .next ⟨F, after base (exec (.piRun 0) ⟨F, base⟩)⟩ ∧ names (.piRun 0) ≠ some (.pi, 1) ∧
    names (.piRun 0) ≠ some (.cc, 0) ∧ exec (.ccReset 1) ⟨F, base⟩ = .next ⟨F, after base (exec (.ccReset 1) ⟨F, base⟩)⟩ ∧
    names (.ccReset 1) ≠ some (.cc, 0) ∧ exec .park ⟨F, base⟩ = .next ⟨F, after base (exec .park ⟨F, base⟩)⟩ ∧
    names .park ≠ some (.svm, 0) := ⟨rfl, by decide, by decide, rfl, by decide, rfl, by decide⟩

theorem witness_NothingFixedAtBuildChanges :
    step ⟨F, withInbox base [.reset]⟩ = .next ⟨F, after base (step ⟨F, withInbox base [.reset]⟩)⟩ := rfl

theorem witness_ResetPutsEveryRegisterAtItsResetValue : (withInbox base [.reset]).inbox = [.reset] := rfl

theorem witness_ControllerResetEqualsFresh :
    base.banks.pi[(1 : Byte).toNat]? = some pi1 ∧ exec (.piReset 1) ⟨F, base⟩ = .next ⟨F, after base (exec (.piReset 1) ⟨F, base⟩)⟩ ∧
    base.banks.pid[(1 : Byte).toNat]? = some pid1 ∧ exec (.pidReset 1) ⟨F, base⟩ = .next ⟨F, after base (exec (.pidReset 1) ⟨F, base⟩)⟩ ∧
    base.banks.cc = .pi [cc0, ccBad] ∧ [cc0, ccBad][(1 : Byte).toNat]? = some ccBad ∧
    exec (.ccReset 1) ⟨F, base⟩ = .next ⟨F, after base (exec (.ccReset 1) ⟨F, base⟩)⟩ ∧
    baseOther.banks.cc = .pid [ccPid, ccPidBad] ∧ [ccPid, ccPidBad][(1 : Byte).toNat]? = some ccPidBad ∧
    exec (.ccReset 1) ⟨F, baseOther⟩ = .next ⟨F, after baseOther (exec (.ccReset 1) ⟨F, baseOther⟩)⟩ :=
  ⟨rfl, rfl, rfl, rfl, rfl, rfl, rfl, rfl, rfl, rfl⟩

theorem witness_InvariantHoldsAtReset :
    countsOk Build.default = true ∧
    countsOk { Build.default with nPi := 256, nPid := 0, nCc := 256, ccKind := .pid, svmVariants := [] } = true := by
  decide

/-- A machine that meets the invariant and has something to do. -/
def sound : Block F := offered { base with banks := { base.banks with cc := .pi [cc0] } } 0x00000172#32

theorem witness_EveryStepKeepsTheInvariant :
    sound.inv = true ∧ ∃ t, step ⟨F, sound⟩ = .next ⟨F, t⟩ := ⟨by decide +kernel, _, rfl⟩

theorem witness_PiRunFollowsTheControlLaw :
    base.banks.pi[(0 : Byte).toNat]? = some pi0 ∧ limitsOk pi0.outMin pi0.outMax = true ∧
    limitsOk (F := F) 0x80000000#32 0x00000000#32 = true ∧ limitsOk (F := F) 0xFF800000#32 0x7F800000#32 = true := by
  refine ⟨rfl, ?_⟩
  decide +kernel

/-- In `ccBad` the d limits are violated and the q limits valid, in `ccPidBad` the other way round. -/
theorem witness_ControllerRunsCompleteUnderViolatedLimits :
    base.banks.pi[(1 : Byte).toNat]? = some pi1 ∧ limitsOk pi1.outMin pi1.outMax = false ∧
    { base with banks := { base.banks with pid := [ccPidBad.q] } }.banks.pid[(0 : Byte).toNat]? = some ccPidBad.q ∧
    limitsOk ccPidBad.q.outMin ccPidBad.q.outMax = false ∧ limitsOk ccPidBad.d.outMin ccPidBad.d.outMax = true ∧
    base.banks.cc = .pi [cc0, ccBad] ∧ [cc0, ccBad][(1 : Byte).toNat]? = some ccBad ∧
    limitsOk ccBad.d.outMin ccBad.d.outMax = false ∧ limitsOk ccBad.q.outMin ccBad.q.outMax = true ∧
    baseOther.banks.cc = .pid [ccPid, ccPidBad] ∧ [ccPid, ccPidBad][(1 : Byte).toNat]? = some ccPidBad ∧
    limitsOk (F := F) 0x7FC00000#32 0x3F800000#32 = false := by
  refine ⟨rfl, ?_, rfl, ?_, ?_, rfl, rfl, ?_, ?_, rfl, rfl, ?_⟩ <;> decide +kernel

theorem witness_AntiWindupAfterEveryIntegratingRun :
    base.banks.pi[(0 : Byte).toNat]? = some pi0 ∧ feq pi0.kI zeroF = false ∧ limitsOk pi0.outMin pi0.outMax = true ∧
    exec (.piRun 0) ⟨F, base⟩ = .next ⟨F, after base (exec (.piRun 0) ⟨F, base⟩)⟩ ∧
    (piAfter base (.piRun 0) 0).map (fun c => isNaN c.integ) = some false ∧
    base.banks.pid[(0 : Byte).toNat]? = some pid0 ∧ feq pid0.kI zeroF = false ∧
    limitsOk pid0.outMin pid0.outMax = true ∧ exec (.pidRun 0) ⟨F, base⟩ = .next ⟨F, after base (exec (.pidRun 0) ⟨F, base⟩)⟩ ∧
    (pidAfter base (.pidRun 0) 0).map (fun c => isNaN c.integ) = some false := by
  refine ⟨rfl, ?_, ?_, rfl, ?_, rfl, ?_, ?_, rfl, ?_⟩ <;> decide +kernel

/-- A PI controller without integral action, `kI` the zero with the sign bit set, its integrator not zero. -/
def piNoI : PiRegs F := { pi0 with kI := 0x80000000#32, integ := 0x3F000000#32 }

theorem witness_PiWithZeroIntegralGainIsProportional :
    { base with banks := { base.banks with pi := [piNoI] } }.banks.pi[(0 : Byte).toNat]? = some piNoI ∧
    feq piNoI.kI zeroF = true ∧ feq (F := F) zeroF zeroF = true ∧ limitsOk piNoI.outMin piNoI.outMax = true := by
  refine ⟨rfl, ?_⟩
  decide +kernel

theorem witness_PiWithZeroErrorAnswersTheFeedforward :
    (withArgs base 0x3F800000#32 0x3F800000#32 0x7F800000#32 0).banks.pi[(0 : Byte).toNat]? = some pi0 ∧
    limitsOk pi0.outMin pi0.outMax = true ∧ isFinite (F := F) 0x3F800000#32 = true ∧ isFinite pi0.kP = true ∧
    isFinite pi0.kI = true ∧ isNaN (F := F) 0x7F800000#32 = false ∧ isZero pi0.integ = true ∧
    within (F := F) zeroF pi0.outMin pi0.outMax = true ∧
    feq piNoI.kI zeroF = true ∧ isFinite piNoI.kI = true := by
  refine ⟨rfl, ?_⟩
  decide +kernel

theorem witness_NaNReachesThePiOutputAndStays :
    (withArgs base 0x7FC00000#32 0 0 0).banks.pi[(0 : Byte).toNat]? = some pi0 ∧
    limitsOk pi0.outMin pi0.outMax = true ∧ isNaN (F := F) 0x7FC00000#32 = true ∧ isNaN (F := F) 0xFF800001#32 = true ∧
    feq pi0.kI zeroF = false := by
  refine ⟨rfl, ?_⟩
  decide +kernel

theorem witness_PiResetClearsTheController : base.banks.pi[(1 : Byte).toNat]? = some pi1 := rfl

theorem witness_PiRegistersReadAndWrite :
    base.banks.pi[(1 : Byte).toNat]? = some pi1 ∧ ((0x00 : Byte).toNat, pi1.kP) ∈ pi1.table ∧
    ((0x08 : Byte).toNat, pi1.ffLast) ∈ pi1.table ∧ (0x02 : Byte).toNat = 0x02 ∧ 0x09 ≤ (0x09 : Byte).toNat ∧
    ((0x04 : Byte).toNat, { pi1 with outMax := base.args.a0 }) ∈ pi1.writeTable base.args.a0 ∧
    0x05 ≤ (0x05 : Byte).toNat ∧ (0x08 : Byte).toNat ≤ 0x08 := by
  refine ⟨rfl, ?_⟩
  decide

theorem witness_PidRunFollowsTheControlLaw :
    base.banks.pid[(0 : Byte).toNat]? = some pid0 ∧ limitsOk pid0.outMin pid0.outMax = true ∧
    base.params.dGate = .kd ∧ baseOther.params.dGate = .ki := by
  refine ⟨rfl, ?_⟩
  decide +kernel

theorem witness_PidWithZeroIntegralGainUnderEitherGate :
    base.banks.pid[(1 : Byte).toNat]? = some pid1 ∧ feq pid1.kI zeroF = true ∧
    limitsOk pid1.outMin pid1.outMax = true ∧ baseOther.params.dGate = .ki ∧ base.params.dGate = .kd ∧
    { base with banks := { base.banks with pid := [{ pid1 with kD := 0x3F800000#32 }] } }.banks.pid[(0 : Byte).toNat]? =
      some { pid1 with kD := 0x3F800000#32 } ∧
    feq (F := F) 0x3F800000#32 zeroF = false := by
  refine ⟨rfl, ?_⟩
  decide +kernel

theorem witness_PidResetClearsTheController : base.banks.pid[(1 : Byte).toNat]? = some pid1 := rfl

theorem witness_PidRegistersReadAndWrite :
    base.banks.pid[(1 : Byte).toNat]? = some pid1 ∧ ((0x00 : Byte).toNat, pid1.kP) ∈ pid1.table ∧
    ((0x0D : Byte).toNat, pid1.dY1) ∈ pid1.table ∧ 0x0E ≤ (0x0E : Byte).toNat ∧
    ((0x0B : Byte).toNat, { pid1 with dA1 := base.args.a0 }) ∈ pid1.writeTable base.args.a0 ∧
    (0x05 : Byte).toNat ∈ [0x05, 0x06, 0x07, 0x08, 0x0C, 0x0D] ∧
    (0x0D : Byte).toNat ∈ [0x05, 0x06, 0x07, 0x08, 0x0C, 0x0D] := by
  refine ⟨rfl, ?_⟩
  decide

theorem witness_Lpf1RunFiltersOneSample : base.banks.lpf1[(0 : Byte).toNat]? = some lpf1 := rfl

theorem witness_Lpf1RegistersReadAndWrite :
    base.banks.lpf1[(0 : Byte).toNat]? = some lpf1 ∧ ((0x00 : Byte).toNat, lpf1.b0) ∈ lpf1.table ∧
    ((0x04 : Byte).toNat, lpf1.y1) ∈ lpf1.table ∧ 0x05 ≤ (0x05 : Byte).toNat ∧
    ((0x04 : Byte).toNat, { lpf1 with y1 := base.args.a0 }) ∈ lpf1.writeTable base.args.a0 := by
  refine ⟨rfl, ?_⟩
  decide

theorem witness_Lpf2RunFiltersOneSampleAndShifts : base.banks.lpf2[(0 : Byte).toNat]? = some lpf2 := rfl

theorem witness_SeticSeedsTheDelayLine :
    base.banks.lpf1[(0 : Byte).toNat]? = some lpf1 ∧ base.banks.lpf2[(0 : Byte).toNat]? = some lpf2 := ⟨rfl, rfl⟩

theorem witness_Lpf2RegistersReadAndWrite :
    base.banks.lpf2[(0 : Byte).toNat]? = some lpf2 ∧ ((0x00 : Byte).toNat, lpf2.b0) ∈ lpf2.table ∧
    ((0x08 : Byte).toNat, lpf2.y2) ∈ lpf2.table ∧ 0x09 ≤ (0x09 : Byte).toNat ∧
    ((0x08 : Byte).toNat, { lpf2 with y2 := base.args.a0 }) ∈ lpf2.writeTable base.args.a0 := by
  refine ⟨rfl, ?_⟩
  decide

/-- `LPF1.WR` of `b0` and `LPF2.WR` of `a2` change a coefficient. -/
theorem witness_FilterCoefficientsChangeOnlyByWr :
    exec (.lpf1Wr 0 0x00) ⟨F, base⟩ = .next ⟨F, after base (exec (.lpf1Wr 0 0x00) ⟨F, base⟩)⟩ ∧
    base.banks.lpf1[0]? = some lpf1 ∧
    (after base (exec (.lpf1Wr 0 0x00) ⟨F, base⟩)).banks.lpf1[0]? = some { lpf1 with b0 := 0x3F800000#32 } ∧
    (0x3F800000#32, lpf1.b1, lpf1.a1) ≠ (lpf1.b0, lpf1.b1, lpf1.a1) ∧
    exec (.lpf2Wr 0 0x04) ⟨F, base⟩ = .next ⟨F, after base (exec (.lpf2Wr 0 0x04) ⟨F, base⟩)⟩ ∧
    base.banks.lpf2[0]? = some lpf2 ∧
    (after base (exec (.lpf2Wr 0 0x04) ⟨F, base⟩)).banks.lpf2[0]? = some { lpf2 with a2 := 0x3F800000#32 } ∧
    (lpf2.b0, lpf2.b1, lpf2.b2, lpf2.a1, 0x3F800000#32) ≠ (lpf2.b0, lpf2.b1, lpf2.b2, lpf2.a1, lpf2.a2) := by
  refine ⟨rfl, rfl, rfl, ?_, rfl, rfl, rfl, ?_⟩ <;> decide

/-- A reset changes the integrator of each bank of controllers. -/
theorem witness_IntegratorsChangeOnlyByRunAndReset :
    exec (.piReset 1) ⟨F, base⟩ = .next ⟨F, after base (exec (.piReset 1) ⟨F, base⟩)⟩ ∧ base.banks.pi[1]? = some pi1 ∧
    (piAfter base (.piReset 1) 1).map PiRegs.integ = some zeroF ∧ zeroF ≠ pi1.integ ∧
    exec (.pidReset 1) ⟨F, base⟩ = .next ⟨F, after base (exec (.pidReset 1) ⟨F, base⟩)⟩ ∧ base.banks.pid[1]? = some pid1 ∧
    (pidAfter base (.pidReset 1) 1).map PidRegs.dX1 = some zeroF ∧ zeroF ≠ pid1.dX1 ∧
    exec (.ccReset 1) ⟨F, base⟩ = .next ⟨F, after base (exec (.ccReset 1) ⟨F, base⟩)⟩ ∧ base.banks.cc = .pi [cc0, ccBad] ∧
    (ccAfter base (.ccReset 1) 1).map (fun c => c.d.integ) = some zeroF ∧ zeroF ≠ ccBad.d.integ ∧
    (∃ l' cc', exec (.ccRunsc 0) ⟨F, baseOther⟩ = .next ⟨F, after baseOther (exec (.ccRunsc 0) ⟨F, baseOther⟩)⟩ ∧
      baseOther.banks.cc = .pid [ccPid, ccPidBad] ∧
      (after baseOther (exec (.ccRunsc 0) ⟨F, baseOther⟩)).banks.cc = .pid l' ∧ l'[0]? = some cc' ∧
      cc'.q.integ ≠ ccPid.q.integ) := by
  refine ⟨rfl, rfl, rfl, ?_, rfl, rfl, rfl, ?_, rfl, rfl, rfl, ?_, ?_⟩
  · decide
  · decide
  · decide
  · refine ⟨_, _, rfl, rfl, rfl, rfl, ?_⟩
    decide +kernel

theorem witness_ClarkeAnswersAlphaBeta : base.params.clarkeMode = .three ∧ baseOther.params.clarkeMode = .two := ⟨rfl, rfl⟩

theorem witness_TransformsReadOnlyTheirOperands :
    names .ipark = none ∧ base.args = { base with banks := baseOther.banks }.args ∧
    base.draws = { base with banks := baseOther.banks }.draws ∧
    base.params = { base with banks := baseOther.banks }.params := ⟨rfl, rfl, rfl, rfl⟩

theorem witness_CcRunscTicksBothAxes :
    base.banks.cc = .pi [cc0, ccBad] ∧ [cc0, ccBad][(0 : Byte).toNat]? = some cc0 ∧
    limitsOk cc0.d.outMin cc0.d.outMax = true ∧ limitsOk cc0.q.outMin cc0.q.outMax = true ∧
    baseOther.banks.cc = .pid [ccPid, ccPidBad] ∧ [ccPid, ccPidBad][(0 : Byte).toNat]? = some ccPid ∧
    limitsOk ccPid.d.outMin ccPid.d.outMax = true ∧ limitsOk ccPid.q.outMin ccPid.q.outMax = true := by
  refine ⟨rfl, rfl, ?_, ?_, rfl, rfl, ?_, ?_⟩ <;> decide +kernel

theorem witness_CcRunaTicksWithTheBackendsSineAndCosine :
    (1 : Byte).toNat < base.banks.cc.count ∧ (1 : Byte).toNat < baseOther.banks.cc.count := by decide

theorem witness_CcRdAnswersTheNamedRegister :
    base.banks.cc = .pi [cc0, ccBad] ∧ [cc0, ccBad][(1 : Byte).toNat]? = some ccBad ∧
    ((0x00 : Byte).toNat, ccBad.d.kP) ∈ ccBad.table PiRegs.table ∧
    ((0x28 : Byte).toNat, ccBad.q.ffLast) ∈ ccBad.table PiRegs.table ∧
    ((0x43 : Byte).toNat, ccBad.vBeta) ∈ ccBad.table PiRegs.table ∧ (0x22 : Byte).toNat ∉ ccRegNums .pi ∧
    (0x44 : Byte).toNat ∉ ccRegNums .pi ∧
    baseOther.banks.cc = .pid [ccPid, ccPidBad] ∧ [ccPid, ccPidBad][(0 : Byte).toNat]? = some ccPid ∧
    ((0x2D : Byte).toNat, ccPid.q.dY1) ∈ ccPid.table PidRegs.table ∧ (0x2E : Byte).toNat ∉ ccRegNums .pid := by
  refine ⟨rfl, rfl, ?_, ?_, ?_, ?_, ?_, rfl, rfl, ?_, ?_⟩ <;> decide

theorem witness_CcWrStoresInTheNamedRegister :
    base.banks.cc = .pi [cc0, ccBad] ∧ [cc0, ccBad][(0 : Byte).toNat]? = some cc0 ∧
    ((0x41 : Byte).toNat, { cc0 with iqRef := base.args.a0 }) ∈ cc0.writeTable PiRegs.writeTable base.args.a0 ∧
    ((0x24 : Byte).toNat, { cc0 with q := { cc0.q with outMax := base.args.a0 } }) ∈
      cc0.writeTable PiRegs.writeTable base.args.a0 ∧
    (0x05 : Byte).toNat ∈ ccRegNums .pi ∧ (0x05 : Byte).toNat ∈ ccReadOnlyNums ∧ (0x02 : Byte).toNat ∉ ccRegNums .pi ∧
    baseOther.banks.cc = .pid [ccPid, ccPidBad] ∧ [ccPid, ccPidBad][(0 : Byte).toNat]? = some ccPid ∧
    ((0x2B : Byte).toNat, { ccPid with q := { ccPid.q with dA1 := baseOther.args.a0 } }) ∈
      ccPid.writeTable PidRegs.writeTable baseOther.args.a0 ∧
    (0x2D : Byte).toNat ∈ ccRegNums .pid ∧ (0x2D : Byte).toNat ∈ ccReadOnlyNums ∧
    (0x0E : Byte).toNat ∉ ccRegNums .pid := by
  refine ⟨rfl, rfl, ?_, ?_, ?_, ?_, ?_, rfl, rfl, ?_, ?_, ?_, ?_⟩ <;> decide

theorem witness_CcResetClearsBothControllers :
    base.banks.cc = .pi [cc0, ccBad] ∧ [cc0, ccBad][(1 : Byte).toNat]? = some ccBad ∧
    baseOther.banks.cc = .pid [ccPid, ccPidBad] ∧ [ccPid, ccPidBad][(0 : Byte).toNat]? = some ccPid :=
  ⟨rfl, rfl, rfl, rfl⟩

/-- `CC.WR` changes each reference, with either kind of controller. -/
theorem witness_ReferencesHeldUntilWritten :
    (∃ l' cc', exec (.ccWr 0 0x40) ⟨F, base⟩ = .next ⟨F, after base (exec (.ccWr 0 0x40) ⟨F, base⟩)⟩ ∧
      base.banks.cc = .pi [cc0, ccBad] ∧ (after base (exec (.ccWr 0 0x40) ⟨F, base⟩)).banks.cc = .pi l' ∧
      l'[0]? = some cc' ∧ cc'.idRef ≠ cc0.idRef) ∧
    ∃ l' cc', exec (.ccWr 0 0x41) ⟨F, withArgs baseOther 0 0 0 0⟩ =
        .next ⟨F, after baseOther (exec (.ccWr 0 0x41) ⟨F, withArgs baseOther 0 0 0 0⟩)⟩ ∧
      baseOther.banks.cc = .pid [ccPid, ccPidBad] ∧
      (after baseOther (exec (.ccWr 0 0x41) ⟨F, withArgs baseOther 0 0 0 0⟩)).banks.cc = .pid l' ∧
      l'[0]? = some cc' ∧ cc'.iqRef ≠ ccPid.iqRef := by
  refine ⟨⟨_, _, rfl, rfl, rfl, rfl, ?_⟩, _, _, rfl, rfl, rfl, rfl, ?_⟩ <;> decide

/-- Machines that differ in the d axis alone and in the q axis alone, and a NaN for either measurement. -/
theorem witness_CcAxesAreIndependent :
    base.banks.cc = .pi [cc0, ccBad] ∧ [cc0, ccBad][(0 : Byte).toNat]? = some cc0 ∧
    { base with banks := { base.banks with cc := .pi [{ cc0 with d := pi0, idRef := 0x40000000#32 }] } }.banks.cc =
      .pi [{ cc0 with d := pi0, idRef := 0x40000000#32 }] ∧
    { base with banks := { base.banks with cc := .pi [{ cc0 with q := pi0, iqRef := 0x40000000#32 }] } }.banks.cc =
      .pi [{ cc0 with q := pi0, iqRef := 0x40000000#32 }] ∧
    limitsOk cc0.d.outMin cc0.d.outMax = true ∧ limitsOk cc0.q.outMin cc0.q.outMax = true ∧
    limitsOk pi0.outMin pi0.outMax = true ∧ (withArgs base 0x7FC00000#32 0 0x51#32 0x52#32).args.a1 = base.args.a1 ∧
    (withArgs base 0x3F800000#32 0x7FC00000#32 0x51#32 0x52#32).args.a0 = base.args.a0 ∧
    isNaN (F := F) 0x7FC00000#32 = true ∧
    baseOther.banks.cc = .pid [ccPid, ccPidBad] ∧ [ccPid, ccPidBad][(0 : Byte).toNat]? = some ccPid ∧
    limitsOk ccPid.d.outMin ccPid.d.outMax = true ∧ limitsOk ccPid.q.outMin ccPid.q.outMax = true := by
  refine ⟨rfl, rfl, rfl, rfl, ?_, ?_, ?_, rfl, rfl, ?_, rfl, rfl, ?_, ?_⟩ <;> decide +kernel

theorem witness_SvmSettersStoreTheVectorAndTheFlag : base.banks.svm[(1 : Byte).toNat]? = some svm1 := rfl

theorem witness_SvmRunStoresClampedDuties :
    base.banks.svm[(1 : Byte).toNat]? = some svm1 ∧ baseOther.banks.svm[(0 : Byte).toNat]? = some svm0 := ⟨rfl, rfl⟩

theorem witness_SvmGettersAnswerTheStoredDuties : base.banks.svm[(1 : Byte).toNat]? = some svm1 := rfl

theorem witness_NullVectorGivesHalfDuties :
    base.banks.svm[(0 : Byte).toNat]? = some svm0 ∧ isZero svm0.va = true ∧ isZero (F := F) 0x80000000#32 = true := by
  refine ⟨rfl, ?_⟩
  decide

theorem witness_SvmRunForgetsEarlierDuties :
    base.banks.svm[(1 : Byte).toNat]? = some svm1 ∧
    { base with banks := { base.banks with svm := [{ svm1 with dA := zeroF, dB := 0x7FC00000#32 }] } }.banks.svm[
      (0 : Byte).toNat]? = some { svm1 with dA := zeroF, dB := 0x7FC00000#32 } := ⟨rfl, rfl⟩

/-- A modulator with an infinite component and overmodulation disallowed. -/
def svmInf : SvmRegs F := { svm1 with va := 0x7F800000#32, vb := zeroF, ovm := false }

/-- A machine with it, after its first `SVM.RUN`, and after a reading and another modulator's new vector in between. -/
def infBase : Block F := { base with banks := { base.banks with svm := [svm0, svmInf] } }
def inf1 : Block F := after infBase (exec (.svmRun 1) ⟨F, infBase⟩)
def infArgs : Args F := { a0 := 0x3E800000#32, a1 := 0x3F000000#32, a2 := zeroF, a3 := zeroF }
def inf2 : Block F := after infBase (exec (.svmGeta 1) ⟨F, { inf1 with args := infArgs }⟩)
def inf3 : Block F := after infBase (exec (.svmSetvref 0) ⟨F, { inf2 with args := infArgs }⟩)

theorem witness_SvmRunTwiceStoresTheSameDuties :
    exec (.svmRun 1) ⟨F, infBase⟩ = .next ⟨F, inf1⟩ ∧
    performs [(.svmGeta 1, infArgs), (.svmSetvref 0, infArgs)] inf1 inf3 ∧
    (∀ p ∈ [(Instr.svmGeta 1, infArgs), (.svmSetvref 0, infArgs)],
      p.1 ≠ .svmSetvref 1 ∧ ∀ flag, p.1 ≠ .svmAllowovm 1 flag) ∧
    exec (.svmRun 1) ⟨F, inf3⟩ = .next ⟨F, after inf3 (exec (.svmRun 1) ⟨F, inf3⟩)⟩ ∧
    performs [] inf1 inf1 ∧ isInf svmInf.va = true :=
  ⟨rfl, ⟨inf2, rfl, inf3, rfl, rfl⟩, by simp, rfl, rfl, by decide⟩

theorem witness_OvmWrittenOnlyByAllowovm :
    exec (.svmAllowovm 0 true) ⟨F, base⟩ = .next ⟨F, after base (exec (.svmAllowovm 0 true) ⟨F, base⟩)⟩ ∧
    base.banks.svm[0]? = some svm0 ∧ svmAfter base (.svmAllowovm 0 true) 0 = some { svm0 with ovm := true } ∧
    true ≠ svm0.ovm := ⟨rfl, rfl, rfl, by decide⟩

/-- Operands for each clause of R12: finite ones that do not cancel, that cancel, a divisor, a NaN, the infinities, zeros. -/
theorem witness_ArithmeticIsIeee :
    isFinite (F := F) 0x7F7FFFFF#32 = true ∧ isFinite (F := F) 0x00000001#32 = true ∧
    intOf (F := F) 0x7F7FFFFF#32 + intOf (F := F) 0x00000001#32 ≠ 0 ∧ intOf (F := F) 0x3F800000#32 + intOf (F := F) 0xBF800000#32 = 0 ∧
    intOf (F := F) 0x7F7FFFFF#32 - intOf (F := F) 0x00000001#32 ≠ 0 ∧ intOf (F := F) 0x3F800000#32 - intOf (F := F) 0x3F800000#32 = 0 ∧
    isZero (F := F) 0x00000001#32 = false ∧ isNaN (F := F) 0x7F800001#32 = true ∧ isInf (F := F) 0x7F800000#32 = true ∧
    isInf (F := F) 0xFF800000#32 = true ∧ signBit (F := F) 0x7F800000#32 ≠ signBit (F := F) 0xFF800000#32 ∧ isZero (F := F) 0x80000000#32 = true ∧
    isNaN (fmul (F := F) 0 0x3F800000#32 0xBF800000#32) = false ∧ isNaN (fdiv (F := F) 0 0x3F800000#32 0x80000000#32) = false := by
  decide +kernel

theorem witness_SquareRootIsCorrectlyRounded :
    isFinite (F := F) 0x00000001#32 = true ∧ signBit (F := F) 0x00000001#32 = false ∧ isZero (F := F) 0x80000000#32 = true ∧
    isInf (F := F) 0x7F800000#32 = true ∧ signBit (F := F) 0x7F800000#32 = false ∧ isNaN (F := F) 0x7FC00000#32 = true ∧
    signBit (F := F) 0xBF800000#32 = true ∧ isZero (F := F) 0xBF800000#32 = false := by decide +kernel

theorem witness_ComparisonsFollowTheValues :
    isNaN (F := F) 0x7F800001#32 = true ∧ isFinite (F := F) 0x00000001#32 = true ∧ isFinite (F := F) 0x7F7FFFFF#32 = true ∧
    isInf (F := F) 0xFF800000#32 = true ∧ isInf (F := F) 0x7F800000#32 = true ∧
    fgt (F := F) 0x7F800000#32 0xFF800000#32 = true ∧ feq (F := F) 0x7F7FFFFF#32 0x7F800000#32 = false := by decide +kernel

theorem witness_ClampSelectsByComparison :
    flt (F := F) 0xBF800000#32 zeroF = true ∧ flt (F := F) 0x40000000#32 zeroF = false ∧ fgt (F := F) 0x40000000#32 cOne = true ∧
    fgt (F := F) halfF cOne = false ∧ isNaN (F := F) 0x7FC00000#32 = true ∧ fgt (F := F) 0x80000000#32 zeroF = false ∧
    limitsOk (F := F) zeroF cOne = true ∧ limitsOk (F := F) zeroF zeroF = true := by decide +kernel

end Sys2Proof.Tests
end

/-! PROOFS. What is fixed when the block is built (R9): no update of the state, no operation and no step changes it. -/

namespace Sys2Proof.Machine

section Build

variable {F : FloatFormat}

@[simp] theorem Block.build_setPi (s : Block F) (i : Byte) (c : PiRegs F) : (s.setPi i c).build = s.build := by
  simp [Block.build]

@[simp] theorem Block.build_setPid (s : Block F) (i : Byte) (c : PidRegs F) : (s.setPid i c).build = s.build := by
  simp [Block.build]

@[simp] theorem Block.build_setLpf1 (s : Block F) (i : Byte) (f : Lpf1Regs F) : (s.setLpf1 i f).build = s.build := by
  simp [Block.build]

@[simp] theorem Block.build_setLpf2 (s : Block F) (i : Byte) (f : Lpf2Regs F) : (s.setLpf2 i f).build = s.build := by
  simp [Block.build]

/-- One controller of the CC bank takes new registers; the kind and the count of the bank stay. -/
theorem Block.build_setCc_pi {s : Block F} {l : List (CcRegs F (PiRegs F))} (h : s.banks.cc = .pi l) (i : Byte)
    (cc : CcRegs F (PiRegs F)) : (s.setCc (.pi (l.set i.toNat cc))).build = s.build := by
  simp [Block.build, h, CcBank.count, CcBank.kind]

theorem Block.build_setCc_pid {s : Block F} {l : List (CcRegs F (PidRegs F))} (h : s.banks.cc = .pid l) (i : Byte)
    (cc : CcRegs F (PidRegs F)) : (s.setCc (.pid (l.set i.toNat cc))).build = s.build := by
  simp [Block.build, h, CcBank.count, CcBank.kind]

/-- A modulator takes new registers; its algorithm, which is no register (R43), stays. -/
theorem Block.build_setSvm {s : Block F} {i : Byte} {m m' : SvmRegs F} (h : s.banks.svm[i.toNat]? = some m)
    (hv : m'.variant = m.variant) : (s.setSvm i m').build = s.build := by
  have hmap : (s.banks.svm.set i.toNat m').map SvmRegs.variant = s.banks.svm.map SvmRegs.variant := by
    obtain ⟨hlt, rfl⟩ := List.getElem?_eq_some_iff.mp h
    rw [List.map_set, hv, ← List.getElem_map SvmRegs.variant (h := by simpa using hlt), List.set_getElem_self]
  simp [Block.build, hmap]

@[simp] theorem Block.build_drawn (s : Block F) : s.drawn.build = s.build := rfl

@[simp] theorem Block.build_take (s : Block F) (r : Request F) (rest : List (Input F)) :
    (s.take r rest).build = s.build := rfl

@[simp] theorem Block.build_answered (s : Block F) (rs : List (Val F)) : (s.answered rs).build = s.build := rfl

@[simp] theorem Block.build_refusedWith (s : Block F) (st : Status) : (s.refusedWith st).build = s.build := rfl

@[simp] theorem CcBank.count_reset (n : Nat) (kind : CtrlKind) (k : Nat) : (CcBank.reset n kind k : CcBank F).count = k := by
  cases kind <;> simp [CcBank.reset, CcBank.count]

@[simp] theorem CcBank.kind_reset (n : Nat) (kind : CtrlKind) (k : Nat) : (CcBank.reset n kind k : CcBank F).kind = kind := by
  cases kind <;> rfl

@[simp] theorem SvmRegs.variant_reset (v : SvmVariant) : (SvmRegs.reset v : SvmRegs F).variant = v := rfl

/-- The reset event fills the banks of the same build (R250). -/
@[simp] theorem Block.build_resetEvent (s : Block F) (rest : List (Input F)) : (s.resetEvent rest).build = s.build := by
  simp [Block.build, Banks.reset]

/-- Whatever an operation does, it keeps the build. -/
theorem Effect.build_eq {i : Instr} {s t : Block F} (h : Effect i s t) : t.build = s.build := by
  cases h with
  | rejected | read | transform => simp
  | piRun | piReset | piWr => simp
  | pidRun | pidReset | pidWr => simp
  | lpf1Run | lpf1Setic | lpf1Wr => simp
  | lpf2Run | lpf2Setic | lpf2Wr => simp
  | ccTickPi _ _ _ _ _ _ _ hb | ccWrPi _ _ _ _ _ _ _ hb | ccResetPi _ _ _ _ hb => simp [Block.build_setCc_pi hb]
  | ccTickPid _ _ _ _ _ _ _ hb | ccWrPid _ _ _ _ _ _ _ hb | ccResetPid _ _ _ _ hb => simp [Block.build_setCc_pid hb]
  | svmSetvref _ _ _ hm | svmAllowovm _ _ _ _ hm | svmRun _ _ _ hm => exact Block.build_setSvm hm rfl

end Build

section Answers

variable {F : FloatFormat}

/-- The operation answers a next state of the format `F`. -/
def Answers (F : FloatFormat) (o : Outcome) : Prop := ∃ t : Block F, o = .next ⟨F, t⟩

theorem reply_answers (s : Block F) (rs : List (Val F)) : Answers F (s.reply rs) := ⟨_, reply_eq s rs⟩

theorem reject_answers (s : Block F) (st : Status) : Answers F (s.reject st) := ⟨_, reject_eq s st⟩

theorem withInst_answers {α : Type} {bank : List α} {i : Byte} {s : Block F} {k : α → Outcome}
    (hk : ∀ c, Answers F (k c)) : Answers F (withInst bank i s k) := by
  unfold withInst
  split
  · exact hk _
  · exact reject_answers s _

theorem readReg_answers {ρ : Type} {regOf : Byte → Option ρ} {r : Byte} {read : ρ → Val F} {s : Block F} :
    Answers F (readReg regOf r read s) := by
  unfold readReg
  split
  · exact reply_answers s _
  · exact reject_answers s _

theorem writeReg_answers {α ρ : Type} {regOf : Byte → Option ρ} {r : Byte} {write : ρ → Val F → Option α}
    {put : α → Block F} {s : Block F} : Answers F (writeReg regOf r write put s) := by
  unfold writeReg
  split
  · split
    · exact reply_answers _ _
    · exact reject_answers s _
  · exact reject_answers s _

theorem ccTickOf_answers (j : Byte) (sc : Val F × Val F) (s : Block F) : Answers F (ccTickOf j sc s) := by
  unfold ccTickOf
  split <;> exact withInst_answers fun _ => reply_answers _ _

/-- R230: every operation answers a next state, and it is one of the same format. -/
theorem exec_answers (i : Instr) (s : Block F) : Answers F (exec i ⟨F, s⟩) := by
  cases i with
  | piRun | piReset | pidRun | pidReset => exact withInst_answers fun _ => reply_answers _ _
  | lpf1Run | lpf1Setic | lpf2Run | lpf2Setic => exact withInst_answers fun _ => reply_answers _ _
  | piRd | pidRd | lpf1Rd | lpf2Rd => exact withInst_answers fun _ => readReg_answers
  | piWr | pidWr | lpf1Wr | lpf2Wr => exact withInst_answers fun _ => writeReg_answers
  | clarke | iclarke | park | ipark => exact reply_answers _ _
  | ccRunsc j | ccRuna j => exact ccTickOf_answers j _ s
  | ccRd =>
    unfold exec execCcRd
    dsimp only
    split <;> exact withInst_answers fun _ => readReg_answers
  | ccWr =>
    unfold exec execCcWr
    dsimp only
    split <;> exact withInst_answers fun _ => writeReg_answers
  | ccReset =>
    unfold exec execCcReset
    dsimp only
    split <;> exact withInst_answers fun _ => reply_answers _ _
  | svmSetvref | svmAllowovm | svmRun | svmGeta | svmGetb | svmGetc =>
    exact withInst_answers fun _ => reply_answers _ _

/-- Everything a step can do: nothing, the reset event, a rejection by the decoder, or one operation. -/
inductive StepEffect (s : Block F) : Block F → Prop
  | idle (h : s.inbox = []) : StepEffect s s
  | reset (rest : List (Input F)) (h : s.inbox = .reset :: rest) : StepEffect s (s.resetEvent rest)
  | undecoded (r : Request F) (rest : List (Input F)) (st : Status) (h : s.inbox = .command r :: rest)
      (hd : decode r.cmd = .error st) : StepEffect s ((s.take r rest).refusedWith st)
  | performed (r : Request F) (rest : List (Input F)) (i : Instr) (t : Block F) (h : s.inbox = .command r :: rest)
      (hd : decode r.cmd = .ok i) (he : exec i ⟨F, s.take r rest⟩ = .next ⟨F, t⟩) : StepEffect s t

theorem step_effect (s : Block F) : ∃ t, step ⟨F, s⟩ = .next ⟨F, t⟩ ∧ StepEffect s t := by
  unfold step
  dsimp only
  split
  · next h => exact ⟨s, rfl, .idle h⟩
  · next rest h => exact ⟨_, rfl, .reset rest h⟩
  · next r rest h =>
    split
    · next st hd => exact ⟨_, rfl, .undecoded r rest st h hd⟩
    · next i hd =>
      obtain ⟨t, ht⟩ := exec_answers i (s.take r rest)
      exact ⟨t, ht, .performed r rest i t h hd ht⟩

theorem StepEffect.build_eq {s t : Block F} (h : StepEffect s t) : t.build = s.build := by
  cases h with
  | idle => rfl
  | reset rest => exact Block.build_resetEvent s rest
  | undecoded => rfl
  | performed r rest i _ _ _ he => exact (exec_effect he).build_eq

end Answers

/-- Settles O13, by cases over what a step can do. -/
theorem nothingFixedAtBuildChanges : Obligations.NothingFixedAtBuildChanges := by
  rintro ⟨F, s⟩ t h
  obtain ⟨t', ht, he⟩ := step_effect s
  obtain rfl : (⟨F, t'⟩ : State) = t := Host.Outcome.next.inj (ht.symm.trans h)
  exact he.build_eq

end Sys2Proof.Machine

/-! PROOFS. The comparisons and the clamp on the values they compare (R14, R15). -/

namespace Sys2Proof.Machine

section Comparisons

variable {F : FloatFormat} {a b : Val F}

theorem flt_eq_decide (ha : isNaN a = false) (hb : isNaN b = false) : flt a b = decide (intOf a < intOf b) := by
  simp [flt, ha, hb]

theorem fgt_eq_decide (ha : isNaN a = false) (hb : isNaN b = false) : fgt a b = decide (intOf b < intOf a) := by
  simp [fgt, ha, hb]

theorem feq_eq_decide (ha : isNaN a = false) (hb : isNaN b = false) : feq a b = decide (intOf a = intOf b) := by
  simp [feq, ha, hb]

/-- The units that stand for an infinity in a comparison. -/
theorem unitsOf_infBits_pos (F : FloatFormat) : 0 < unitsOf F (infBits F) := by
  have hI := infBits_ge F
  have hP := Nat.two_pow_pos F.fracBits
  simpa using unitsOf_strictMono F (show 0 < infBits F by omega)

theorem intOf_of_isInf (h : isInf a = true) :
    intOf a = if signBit a then -(unitsOf F (infBits F) : Int) else unitsOf F (infBits F) := by
  rw [intOf, show magBits a = infBits F by simpa [isInf] using h]

/-- A finite value lies strictly between the two infinities. -/
theorem abs_intOf_lt_of_isFinite (h : isFinite a = true) : |intOf a| < unitsOf F (infBits F) := by
  have hlt : unitsOf F (magBits a) < unitsOf F (infBits F) :=
    unitsOf_strictMono F (by simpa [isFinite] using h)
  unfold intOf
  split <;> simpa using hlt

/-- An infinity is its sign bit and the exponent of all ones. -/
theorem pack_infBits_of_isInf (h : isInf a = true) : pack (signBit a) (infBits F) = a := by
  rw [← show magBits a = infBits F by simpa [isInf] using h, pack_eq]

/-- A comparison of an infinity with a finite value is decided by the sign of the infinity. -/
theorem comparisons_isInf_isFinite (ha : isInf a = true) (hb : isFinite b = true) :
    flt b a = !signBit a ∧ fgt a b = !signBit a ∧ flt a b = signBit a ∧ fgt b a = signBit a ∧ feq a b = false ∧
      feq b a = false := by
  have hna := (isInf_cases ha).1
  have hnb := (isFinite_cases hb).1
  obtain ⟨hlo, hhi⟩ := abs_lt.mp (abs_intOf_lt_of_isFinite hb)
  simp only [flt_eq_decide hna hnb, flt_eq_decide hnb hna, fgt_eq_decide hna hnb, fgt_eq_decide hnb hna,
    feq_eq_decide hna hnb, feq_eq_decide hnb hna, intOf_of_isInf ha]
  cases signBit a <;> simp <;> omega

/-- A comparison of two infinities is decided by their signs. -/
theorem comparisons_isInf_isInf (ha : isInf a = true) (hb : isInf b = true) :
    (feq a b = true ↔ a = b) ∧ (flt a b = true ↔ signBit a = true ∧ signBit b = false) ∧
      (fgt a b = true ↔ signBit a = false ∧ signBit b = true) := by
  have hna := (isInf_cases ha).1
  have hnb := (isInf_cases hb).1
  have hU := unitsOf_infBits_pos F
  have hab : a = b ↔ signBit a = signBit b :=
    ⟨congrArg signBit, fun h => by rw [← pack_infBits_of_isInf ha, h, pack_infBits_of_isInf hb]⟩
  rw [flt_eq_decide hna hnb, fgt_eq_decide hna hnb, feq_eq_decide hna hnb, hab, intOf_of_isInf ha, intOf_of_isInf hb]
  cases signBit a <;> cases signBit b <;> simp <;> omega

theorem intOf_of_isZero (h : isZero a = true) : intOf a = 0 := by
  obtain ⟨-, -, -, hi⟩ := isZero_cases h
  exact hi

theorem isZero_zeroF : isZero (zeroF : Val F) = true := by simp [isZero]

theorem isZero_fneg_zeroF : isZero (fneg zeroF : Val F) = true := by simp [isZero]

/-- Zeros of either sign are equal. -/
theorem feq_of_isZero (ha : isZero a = true) (hb : isZero b = true) : feq a b = true := by
  obtain ⟨hna, -, -, hia⟩ := isZero_cases ha
  obtain ⟨hnb, -, -, hib⟩ := isZero_cases hb
  simp [feq_eq_decide hna hnb, hia, hib]

/-- No zero is below another. -/
theorem flt_of_isZero (ha : isZero a = true) (hb : isZero b = true) : flt a b = false := by
  obtain ⟨hna, -, -, hia⟩ := isZero_cases ha
  obtain ⟨hnb, -, -, hib⟩ := isZero_cases hb
  simp [flt_eq_decide hna hnb, hia, hib]

end Comparisons

section Clamp

variable {F : FloatFormat} {v lo hi : Val F}

theorem clamp_of_flt (h : flt v lo = true) : clamp v lo hi = lo := by
  simp [clamp, h]

theorem clamp_of_fgt (hl : flt v lo = false) (hh : fgt v hi = true) : clamp v lo hi = hi := by
  simp [clamp, hl, hh]

theorem clamp_of_between (hl : flt v lo = false) (hh : fgt v hi = false) : clamp v lo hi = v := by
  simp [clamp, hl, hh]

/-- Valid limits are no NaNs and in order. -/
theorem limitsOk_iff : limitsOk lo hi = true ↔ isNaN lo = false ∧ isNaN hi = false ∧ intOf lo ≤ intOf hi := by
  simp [limitsOk, and_assoc]

theorem within_iff : within v lo hi = true ↔ limitsOk lo v = true ∧ limitsOk v hi = true := by
  simp [within]

/-- R15: between valid limits a clamped value that is no NaN lies within them. -/
theorem within_clamp (h : limitsOk lo hi = true) (hv : isNaN v = false) : within (clamp v lo hi) lo hi = true := by
  obtain ⟨hl, hh, hle⟩ := limitsOk_iff.mp h
  rw [within_iff, limitsOk_iff, limitsOk_iff]
  obtain ⟨heq, -⟩ | ⟨heq, -, -⟩ | ⟨heq, hlt, hgt⟩ := clamp_cases v lo hi
  · rw [heq]
    exact ⟨⟨hl, hl, le_rfl⟩, hl, hh, hle⟩
  · rw [heq]
    exact ⟨⟨hl, hh, hle⟩, hh, hh, le_rfl⟩
  · rw [flt_eq_decide hv hl, decide_eq_false_iff_not, not_lt] at hlt
    rw [fgt_eq_decide hv hh, decide_eq_false_iff_not, not_lt] at hgt
    rw [heq]
    exact ⟨⟨hl, hv, hlt⟩, hv, hh, hgt⟩

end Clamp

/-- Settles O57: an infinity counts more units than any finite value, so the order of the units is the order of R14. -/
theorem comparisonsFollowTheValues : Obligations.ComparisonsFollowTheValues := by
  intro F a b
  refine ⟨fun h => ⟨flt_nan h, fgt_nan h, feq_nan h⟩, fun ha hb => ?_, comparisons_isInf_isFinite,
    comparisons_isInf_isInf, feq_of_isZero isZero_zeroF isZero_fneg_zeroF, flt_of_isZero isZero_fneg_zeroF isZero_zeroF,
    signBit_fneg a, magBits_fneg a⟩
  have hna := (isFinite_cases ha).1
  have hnb := (isFinite_cases hb).1
  simp [flt_eq_decide hna hnb, fgt_eq_decide hna hnb, feq_eq_decide hna hnb]

/-- Settles O58: the clauses are the three answers of the clamp, and a comparison with a NaN is false. -/
theorem clampSelectsByComparison : Obligations.ClampSelectsByComparison := by
  intro F v lo hi
  refine ⟨clamp_of_flt, clamp_of_fgt, clamp_of_between, fun h => clamp_nan h lo hi, fun h => ?_, fun h => ?_,
    fun h => clamp_of_between (flt_of_isZero isZero_fneg_zeroF isZero_zeroF) h, within_clamp⟩
  · obtain ⟨-, hlt⟩ | ⟨heq, -⟩ | ⟨heq, -⟩ := clamp_cases v lo hi
    · simp [flt_nan (.inr h)] at hlt
    · exact .inr heq
    · exact .inl heq
  · obtain ⟨heq, -⟩ | ⟨-, -, hgt⟩ | ⟨heq, -⟩ := clamp_cases v lo hi
    · exact .inr heq
    · simp [fgt_nan (.inr h)] at hgt
    · exact .inl heq

end Sys2Proof.Machine

/-! PROOFS. The constants of R16 as real numbers. -/

namespace Sys2Proof.Machine

section Constants

variable {F : FloatFormat}

/-- In units, `sqrt 3` is the square root of a whole number. -/
theorem sqrt_three_mul_four_pow (n : Nat) : Real.sqrt ((3 * 4 ^ n : Nat) : ℝ) = Real.sqrt 3 * 2 ^ n := by
  have h4 : ((3 * 4 ^ n : Nat) : ℝ) = 3 * (2 ^ n) ^ 2 := by
    push_cast
    rw [← pow_mul, mul_comm n 2, pow_mul]
    norm_num
  rw [h4, Real.sqrt_mul (by norm_num), Real.sqrt_sq (by positivity)]

theorem cSqrt3_nearest : IsNearest F (Real.sqrt 3 * 2 ^ unitExp F) (magBits (cSqrt3 : Val F)) := by
  rw [cSqrt3, magBits_pack_rootMag, ← sqrt_three_mul_four_pow]
  exact rootMag_nearest F _

theorem cSqrt32_nearest : IsNearest F (Real.sqrt 3 / 2 * 2 ^ unitExp F) (magBits (cSqrt32 : Val F)) := by
  obtain ⟨n, hn⟩ := Nat.exists_eq_add_of_le' (unitExp_pos F)
  have hhalf : Real.sqrt 3 / 2 * 2 ^ (n + 1) = Real.sqrt 3 * 2 ^ n := by ring
  rw [cSqrt32, magBits_pack_rootMag, hn, Nat.add_sub_cancel, hhalf, ← sqrt_three_mul_four_pow]
  exact rootMag_nearest F _

/-- Flipping the sign bit negates the value. -/
@[simp] theorem intOf_fneg (a : Val F) : intOf (fneg a) = -intOf a := by
  cases h : signBit a <;> simp [intOf, h]

/-- Half of the units of one, twice, are the units of one. -/
theorem two_mul_intOf_halfF : 2 * intOf (halfF : Val F) = 2 ^ unitExp F := by
  rw [intOf_halfF.1, ← pow_succ', Nat.sub_add_cancel (unitExp_pos F)]

end Constants

/-- The words of R16's table, computed with binary32. -/
theorem constants_binary32 :
    (c23 : Val .binary32) = 0x3F2AAAAB#32 ∧ (c13 : Val .binary32) = 0x3EAAAAAB#32 ∧
    (cSqrt3 : Val .binary32) = 0x3FDDB3D7#32 ∧ (cSqrt32 : Val .binary32) = 0x3F5DB3D7#32 ∧
    (halfF : Val .binary32) = 0x3F000000#32 ∧ (cNegHalf : Val .binary32) = 0xBF000000#32 ∧
    (cTwo : Val .binary32) = 0x40000000#32 ∧ (cOne : Val .binary32) = 0x3F800000#32 ∧
    (zeroF : Val .binary32) = 0x00000000#32 := by decide +kernel

/-- Settles O59: the quotients and roots are rounded to nearest, and those of powers of two are values of the format. -/
theorem constantsAreNearestToTheirReals : Obligations.ConstantsAreNearestToTheirReals := by
  refine ⟨fun F => ⟨?_, signBit_nearestTo 2 3, ?_, signBit_nearestTo 1 3, cSqrt3_nearest, signBit_pack_rootMag _ _,
    cSqrt32_nearest, signBit_pack_rootMag _ _, two_mul_intOf_halfF, ?_, intOf_cTwo.1, intOf_cOne.1, intOf_cTwo.2,
    intOf_of_isZero isZero_zeroF, signBit_zeroF⟩, constants_binary32⟩
  · exact_mod_cast nearestTo_nearest (F := F) 2 (den := 3) (by norm_num)
  · exact_mod_cast nearestTo_nearest (F := F) 1 (den := 3) (by norm_num)
  · rw [cNegHalf, intOf_fneg, mul_neg, two_mul_intOf_halfF]

end Sys2Proof.Machine

/-! PROOFS. The references of a current controller change only by the write that names them (R35). -/

namespace Sys2Proof.Machine

section References

variable {F : FloatFormat} {κ : Type} {i : Instr}

/-- From `cc` to `cc'` each reference is held, unless `i` is the `CC.WR` to instance `k` that names it. -/
def RefsHeld (i : Instr) (k : Nat) (cc cc' : CcRegs F κ) : Prop :=
  (cc'.idRef ≠ cc.idRef → ∃ x : Byte, i = .ccWr x 0x40 ∧ x.toNat = k) ∧
  (cc'.iqRef ≠ cc.iqRef → ∃ x : Byte, i = .ccWr x 0x41 ∧ x.toNat = k)

/-- The same of every instance that stands in both lists. -/
def AllRefsHeld (i : Instr) (l l' : List (CcRegs F κ)) : Prop :=
  ∀ k cc cc', l[k]? = some cc → l'[k]? = some cc' → RefsHeld i k cc cc'

/-- The same of two banks, which are of one kind. -/
def CcBank.RefsHeld (i : Instr) : CcBank F → CcBank F → Prop
  | .pi l, .pi l' | .pid l, .pid l' => AllRefsHeld i l l'
  | .pi _, .pid _ | .pid _, .pi _ => False

theorem RefsHeld.of_eq {k : Nat} {cc cc' : CcRegs F κ} (hd : cc'.idRef = cc.idRef) (hq : cc'.iqRef = cc.iqRef) :
    RefsHeld i k cc cc' :=
  ⟨fun h => absurd hd h, fun h => absurd hq h⟩

theorem AllRefsHeld.refl (l : List (CcRegs F κ)) : AllRefsHeld i l l := by
  intro k cc cc' hk hk'
  obtain rfl := Option.some.inj (hk.symm.trans hk')
  exact .of_eq rfl rfl

theorem CcBank.RefsHeld.refl (b : CcBank F) : b.RefsHeld i b := by
  cases b <;> exact AllRefsHeld.refl _

/-- Where one instance takes new registers, only its references are in question. -/
theorem AllRefsHeld.set {l : List (CcRegs F κ)} {j : Nat} {cc cc' : CcRegs F κ} (hj : l[j]? = some cc)
    (h : RefsHeld i j cc cc') : AllRefsHeld i l (l.set j cc') := by
  intro k c c' hk hk'
  by_cases hjk : j = k
  · subst hjk
    obtain rfl := Option.some.inj (hj.symm.trans hk)
    rw [List.getElem?_set_self (List.getElem?_eq_some_iff.mp hj).1] at hk'
    obtain rfl := Option.some.inj hk'
    exact h
  · rw [List.getElem?_set_ne hjk] at hk'
    exact AllRefsHeld.refl l k c c' hk hk'

/-- R33: the number of `idRef` is `0x40`, that of `iqRef` is `0x41`; an embedded controller's number names neither. -/
theorem eq_of_ccRegOf_reference {ρ : Type} {regOf : Byte → Option ρ} {r : Byte} {reg : CcReg ρ}
    (h : ccRegOf regOf r = some reg) : (reg = .idRef → r = 0x40) ∧ (reg = .iqRef → r = 0x41) := by
  unfold ccRegOf at h
  split_ifs at h
  · obtain ⟨_, -, rfl⟩ := Option.map_eq_some_iff.mp h
    simp
  · obtain ⟨_, -, rfl⟩ := Option.map_eq_some_iff.mp h
    simp
  · split at h <;> cases h <;> simp

/-- A write of one register of a current controller changes a reference only where its number is that reference's. -/
theorem refsHeld_write {ρ : Type} {regOf : Byte → Option ρ} {write : κ → ρ → Val F → Option κ} {x r : Byte}
    {reg : CcReg ρ} {v : Val F} {cc cc' : CcRegs F κ} (hr : ccRegOf regOf r = some reg)
    (hw : cc.write write reg v = some cc') : RefsHeld (.ccWr x r) x.toNat cc cc' := by
  cases reg with
  | d | q =>
    obtain ⟨c, -, rfl⟩ := Option.map_eq_some_iff.mp hw
    exact .of_eq rfl rfl
  | idRef =>
    obtain rfl := (eq_of_ccRegOf_reference hr).1 rfl
    obtain rfl := Option.some.inj hw
    exact ⟨fun _ => ⟨x, rfl, rfl⟩, fun h => absurd rfl h⟩
  | iqRef =>
    obtain rfl := (eq_of_ccRegOf_reference hr).2 rfl
    obtain rfl := Option.some.inj hw
    exact ⟨fun h => absurd rfl h, fun _ => ⟨x, rfl, rfl⟩⟩
  | vAlpha | vBeta => cases hw

/-- Whatever an operation does, it holds the references it does not write. -/
theorem Effect.refsHeld {s t : Block F} (h : Effect i s t) : s.banks.cc.RefsHeld i t.banks.cc := by
  cases h with
  | rejected | read | transform => exact .refl _
  | piRun | piReset | piWr | pidRun | pidReset | pidWr => exact .refl _
  | lpf1Run | lpf1Setic | lpf1Wr | lpf2Run | lpf2Setic | lpf2Wr => exact .refl _
  | svmSetvref | svmAllowovm | svmRun => exact .refl _
  | ccTickPi _ _ _ _ _ _ _ hb hx | ccTickPid _ _ _ _ _ _ _ hb hx =>
    rw [hb]
    exact AllRefsHeld.set hx (.of_eq rfl rfl)
  | ccResetPi _ _ _ _ hb hx | ccResetPid _ _ _ _ hb hx =>
    rw [hb]
    exact AllRefsHeld.set hx (.of_eq rfl rfl)
  | ccWrPi _ _ _ _ _ _ _ hb hx hr hw | ccWrPid _ _ _ _ _ _ _ hb hx hr hw =>
    rw [hb]
    exact AllRefsHeld.set hx (refsHeld_write hr hw)

end References

/-- Settles O46, by cases over what an operation can do to the CC bank. -/
theorem referencesHeldUntilWritten : Obligations.ReferencesHeldUntilWritten := by
  intro i F s t k h
  have hbank := (exec_effect h).refsHeld
  constructor
  all_goals
    intro l l' cc cc' hs ht
    rw [hs, ht] at hbank
    exact hbank k cc cc'

end Sys2Proof.Machine

/-! PROOFS. `SVM.RUN` forgets the duties a modulator holds (R42). -/

namespace Sys2Proof.Machine

section SvmRun

variable {F : FloatFormat}

/-- What `SVM.RUN` makes of a modulator is read from its vector, its flag and its algorithm. -/
theorem svmRun_congr (backend : SqrtBackend) {m m' : SvmRegs F} (ha : m.va = m'.va) (hb : m.vb = m'.vb)
    (ho : m.ovm = m'.ovm) (hv : m.variant = m'.variant) : svmRun backend m = svmRun backend m' := by
  simp only [svmRun, ha, hb, ho, hv]

/-- `SVM.RUN` of an instance the build has answers no word and leaves the run modulator in its place (R214). -/
theorem exec_svmRun_some {s : Block F} {i : Byte} {m : SvmRegs F} (hm : s.banks.svm[i.toNat]? = some m) :
    exec (.svmRun i) ⟨F, s⟩ = .next ⟨F, (s.setSvm i (svmRun s.params.sqrt m)).answered []⟩ :=
  withInst_some hm s _

theorem Block.setSvm_svm_self {s : Block F} {i : Byte} {m : SvmRegs F} (hm : s.banks.svm[i.toNat]? = some m)
    (m' : SvmRegs F) : (s.setSvm i m').banks.svm[i.toNat]? = some m' :=
  List.getElem?_set_self (List.getElem?_eq_some_iff.mp hm).1

end SvmRun

/-- Settles O52: the stored duties are no argument of what `SVM.RUN` computes. -/
theorem svmRunForgetsEarlierDuties : Obligations.SvmRunForgetsEarlierDuties := by
  intro F s s' i i' m m' hm hm' ha hb ho hv hsqrt
  have hrun : svmRun s.params.sqrt m = svmRun s'.params.sqrt m' := by rw [hsqrt, svmRun_congr _ ha hb ho hv]
  exact ⟨_, _, _, _, exec_svmRun_some hm, exec_svmRun_some hm', Block.setSvm_svm_self hm _,
    Block.setSvm_svm_self hm' _, hrun⟩

end Sys2Proof.Machine

/-! PROOFS. Decoding against the spec's opcode table (R82, R86 to R88): what decoding a word can answer, said once. -/

namespace Sys2Proof

/-- The format R85 gives an operation. -/
def Instr.format : Instr → Format
  | .clarke | .iclarke | .park | .ipark => .n
  | .piRun _ | .piReset _ | .pidRun _ | .pidReset _ | .lpf1Run _ | .lpf1Setic _ | .lpf2Run _ | .lpf2Setic _
  | .ccRunsc _ | .ccRuna _ | .ccReset _ | .svmSetvref _ | .svmRun _ | .svmGeta _ | .svmGetb _ | .svmGetc _ => .i
  | .piRd _ _ | .piWr _ _ | .pidRd _ _ | .pidWr _ _ | .lpf1Rd _ _ | .lpf1Wr _ _ | .lpf2Rd _ _ | .lpf2Wr _ _
  | .ccRd _ _ | .ccWr _ _ => .r
  | .svmAllowovm _ _ => .f

/-- The `INST` byte a format reads from a word, zero where it reads none. -/
def Format.instOf (m : Format) (w : Word) : Byte :=
  match m with
  | .n => 0
  | .i | .r | .f => instField w

/-- The byte above `INST` that a format reads from a word: `REG`, `FLAG` as a byte, or zero where it reads none. -/
def Format.regOf (m : Format) (w : Word) : Byte :=
  match m with
  | .n | .i => 0
  | .r => regField w
  | .f => if flagField w then 1 else 0

theorem Format.instOf_eq {m : Format} {w : Word} (h : w.toNat < m.bound) : m.instOf w = instField w := by
  cases m with
  | n =>
    apply BitVec.eq_of_toNat_eq
    rw [toNat_instField]
    simp only [Format.bound] at h
    change 0 = _
    omega
  | i | r | f => rfl

theorem Format.regOf_eq {m : Format} {w : Word} (h : w.toNat < m.bound) : m.regOf w = regField w := by
  apply BitVec.eq_of_toNat_eq
  rw [toNat_regField]
  cases m with
  | n | i =>
    simp only [Format.bound] at h
    change 0 = _
    omega
  | r => exact toNat_regField w
  | f =>
    simp only [Format.bound] at h
    rw [Format.regOf, flagField_eq]
    split
    · next hf =>
      rw [decide_eq_true_eq] at hf
      change 1 = _
      omega
    · next hf =>
      rw [decide_eq_true_eq] at hf
      change 0 = _
      omega

/-- A word with no must-be-zero bit set is the command of the fields its format reads. -/
theorem command_of_lt_bound {m : Format} {w : Word} (h : w.toNat < m.bound) :
    command (m.regOf w) (m.instOf w) (opcField w) = w := by
  rw [Format.regOf_eq h, Format.instOf_eq h]
  exact command_fields w (h.trans_le (by cases m <;> decide))

/-- The low byte of a word, as a word. -/
theorem and_lowByte (w : Word) : w &&& 0xFF#32 = BitVec.ofNat 32 (w.toNat % 256) := by
  apply BitVec.eq_of_toNat_eq
  rw [BitVec.toNat_and, show (0xFF#32).toNat = 2 ^ 8 - 1 from rfl, Nat.and_two_pow_sub_one_eq_mod, BitVec.toNat_ofNat]
  omega

/-- With the low byte kept, the must-be-zero bits of a word vanish exactly when only its low byte is left. -/
theorem and_mbz_or_lowByte_iff (m : Format) (w : Word) :
    w &&& (m.mbz ||| 0xFF#32) = w &&& 0xFF#32 ↔ w &&& m.mbz = 0#32 := by
  have hdisj : m.mbz &&& 0xFF#32 = 0#32 := by cases m <;> decide
  rw [BitVec.and_or_distrib_left]
  constructor
  · intro h
    have hsub : w &&& m.mbz = (w &&& m.mbz ||| w &&& 0xFF#32) &&& m.mbz := by
      ext j hj; simp only [BitVec.getElem_and, BitVec.getElem_or]; grind
    rw [hsub, h, BitVec.and_assoc, BitVec.and_comm 0xFF#32, hdisj, BitVec.and_zero]
  · intro h
    rw [h, BitVec.zero_or]

end Sys2Proof

namespace Sys2Proof.Machine

open Sys2Proof.Laws.EncodeFixedBits (rowOf)

theorem specRow_eq_none_iff {w : Word} : specRow w = none ↔ ∀ row ∈ specRows, w.toNat % 256 ≠ row.1 := by
  simp only [specRow, List.find?_eq_none, beq_iff_eq, ne_comm, ne_eq]

/-- No two rows of the table have the same opcode. -/
theorem find?_specRows_of_mem : ∀ row ∈ specRows, (specRows.find? fun row' => row'.1 == row.1) = some row := by decide

theorem specRow_of_mem {w : Word} {row : Nat × Nat} (hmem : row ∈ specRows) (hlow : w.toNat % 256 = row.1) :
    specRow w = some row := by
  rw [specRow, hlow]
  exact find?_specRows_of_mem row hmem

theorem rowOf_mem (i : Instr) : rowOf i ∈ specRows := by
  cases i <;> simp [rowOf, specRows]

theorem rowOf_opcode (i : Instr) : (rowOf i).1 = (opcField (encode i)).toNat := by
  cases i <;> simp [rowOf, encode]

/-- The mask of an operation's row: its low byte and the must-be-zero bits of its format (R82). -/
theorem rowOf_mask (i : Instr) : BitVec.ofNat 32 (rowOf i).2 = i.format.mbz ||| 0xFF#32 := by
  have hn : BitVec.ofNat 32 0xFFFFFFFF = Format.n.mbz ||| 0xFF#32 := by decide
  have hi : BitVec.ofNat 32 0xFFFF00FF = Format.i.mbz ||| 0xFF#32 := by decide
  have hr : BitVec.ofNat 32 0xFF0000FF = Format.r.mbz ||| 0xFF#32 := by decide
  have hf : BitVec.ofNat 32 0xFFFE00FF = Format.f.mbz ||| 0xFF#32 := by decide
  cases i <;> simp only [rowOf, Instr.format, hn, hi, hr, hf]

/-- A word with the opcode of an operation has the fixed bits of its row exactly when no must-be-zero bit is set. -/
theorem and_rowOf_mask_iff {i : Instr} {w : Word} (hlow : w.toNat % 256 = (rowOf i).1) :
    w &&& BitVec.ofNat 32 (rowOf i).2 = BitVec.ofNat 32 (rowOf i).1 ↔ w &&& i.format.mbz = 0#32 := by
  rw [rowOf_mask, ← hlow, ← and_lowByte, and_mbz_or_lowByte_iff]

/-- Everything decoding a word can answer: the opcode stands in no row of the table (R87), a must-be-zero bit of its row is
set (R88), or the word is the command of the operation it decodes to. -/
inductive DecodeCase (w : Word) : Except Status Instr → Prop
  | illegal (h : specRow w = none) : DecodeCase w (.error .illegalOpcode)
  | reserved (row : Nat × Nat) (h : specRow w = some row) (hz : w &&& BitVec.ofNat 32 row.2 ≠ BitVec.ofNat 32 row.1) :
      DecodeCase w (.error .reservedField)
  | ok (i : Instr) (h : specRow w = some (rowOf i))
      (hz : w &&& BitVec.ofNat 32 (rowOf i).2 = BitVec.ofNat 32 (rowOf i).1) (he : encode i = w) : DecodeCase w (.ok i)

/-- An arm of the decoder: the opcode `p` selects `i` in its format (R86 steps 1 and 2). -/
theorem DecodeCase.of_select {w : Word} {p : Byte} {m : Format} {i : Instr} (hp : opcField w = p) (hm : i.format = m)
    (he : encode i = command (m.regOf w) (m.instOf w) p) : DecodeCase w (m.select w i) := by
  subst hp hm
  have hlow : w.toNat % 256 = (rowOf i).1 := by rw [rowOf_opcode, he, opcField_command, toNat_opcField]
  have hrow := specRow_of_mem (rowOf_mem i) hlow
  unfold Format.select
  split
  · next hz =>
    exact .ok i hrow ((and_rowOf_mask_iff hlow).mpr hz) (he.trans (command_of_lt_bound ((and_mbz_eq_zero _ w).mp hz)))
  · next hz => exact .reserved _ hrow (mt (and_rowOf_mask_iff hlow).mp hz)

theorem decode_case (w : Word) : DecodeCase w (decode w) := by
  unfold decode
  split
  case h_32 =>
    refine .illegal (specRow_eq_none_iff.mpr ?_)
    simp only [← BitVec.toNat_inj, toNat_opcField, BitVec.reduceToNat, imp_false] at *
    simp [specRows, *]
  all_goals exact .of_select ‹opcField w = _› rfl rfl

/-- R87: an opcode that stands in no row of the table. -/
theorem decode_of_specRow_none {w : Word} (h : specRow w = none) : decode w = .error .illegalOpcode := by
  have hd := decode_case w
  generalize decode w = d at hd ⊢
  cases hd with
  | illegal => rfl
  | reserved _ h' | ok _ h' => simp [h] at h'

/-- R88: a must-be-zero bit of the row is set. -/
theorem decode_of_mask_ne {w : Word} {row : Nat × Nat} (h : specRow w = some row)
    (hz : w &&& BitVec.ofNat 32 row.2 ≠ BitVec.ofNat 32 row.1) : decode w = .error .reservedField := by
  have hd := decode_case w
  generalize decode w = d at hd ⊢
  cases hd with
  | illegal h' => simp [h] at h'
  | reserved => rfl
  | ok i h' hz' =>
    obtain rfl : row = rowOf i := Option.some.inj (h.symm.trans h')
    exact absurd hz' hz

/-- A word with the fixed bits of its row decodes to an operation, whose command it is. -/
theorem decode_of_mask_eq {w : Word} {row : Nat × Nat} (h : specRow w = some row)
    (hz : w &&& BitVec.ofNat 32 row.2 = BitVec.ofNat 32 row.1) : ∃ i, decode w = .ok i ∧ encode i = w := by
  have hd := decode_case w
  generalize decode w = d at hd ⊢
  cases hd with
  | illegal h' => simp [h] at h'
  | reserved row' h' hz' =>
    obtain rfl : row = row' := Option.some.inj (h.symm.trans h')
    exact absurd hz hz'
  | ok i _ _ he => exact ⟨i, rfl, he⟩

end Sys2Proof.Machine

/-! PROOFS. The status a step answers against the ordered checks of R86 and R234. -/

namespace Sys2Proof.Machine

section Status

variable {F : FloatFormat}

theorem step_of_decode_error {s : Block F} {r : Request F} {rest : List (Input F)} {st : Status}
    (h : s.inbox = .command r :: rest) (hd : decode r.cmd = .error st) :
    step ⟨F, s⟩ = .next ⟨F, (s.take r rest).refusedWith st⟩ := by
  simp [step, h, hd]

theorem step_of_decode_ok {s : Block F} {r : Request F} {rest : List (Input F)} {i : Instr}
    (h : s.inbox = .command r :: rest) (hd : decode r.cmd = .ok i) : step ⟨F, s⟩ = exec i ⟨F, s.take r rest⟩ := by
  simp [step, h, hd]

/-- The outcome is a next state of the format `F` that answers with the status `st`. -/
def AnswersWith (F : FloatFormat) (o : Outcome) (st : Status) : Prop :=
  ∃ (t : Block F) (rs : List (Val F)), o = .next ⟨F, t⟩ ∧ t.resp = some { status := st, results := rs }

/-- Steps 3 to 6 of R86 on the answers of the three checks: the instance, the register, the write. -/
def statusOf (instOk regOk wrOk : Bool) : Status :=
  if !instOk then .badInstance else if !regOk then .badRegister else if !wrOk then .readOnly else .ok

theorem verdict_eq_statusOf (i : Instr) (b : Build) :
    i.verdict b = statusOf (i.instanceOk b) (i.registerOk b) i.writableOk := rfl

theorem reply_answersWith (s : Block F) (rs : List (Val F)) : AnswersWith F (s.reply rs) (statusOf true true true) :=
  ⟨_, rs, reply_eq s rs, rfl⟩

theorem withInst_answersWith {α : Type} {bank : List α} {i : Byte} {s : Block F} {k : α → Outcome} {regOk wrOk : Bool}
    (hk : ∀ c, AnswersWith F (k c) (statusOf true regOk wrOk)) :
    AnswersWith F (withInst bank i s k) (statusOf (i.toNat < bank.length) regOk wrOk) := by
  by_cases h : i.toNat < bank.length
  · rw [withInst_some (List.getElem?_eq_getElem h), decide_eq_true h]
    exact hk _
  · rw [withInst_none (not_lt.mp h), decide_eq_false h]
    exact ⟨_, _, rfl, rfl⟩

theorem readReg_answersWith {ρ : Type} {regOf : Byte → Option ρ} {r : Byte} {read : ρ → Val F} {s : Block F} {regOk : Bool}
    (hr : (regOf r).isSome = regOk) : AnswersWith F (readReg regOf r read s) (statusOf true regOk true) := by
  subst hr
  cases h : regOf r with
  | none => exact ⟨_, _, readReg_none h read s, rfl⟩
  | some reg => exact ⟨_, _, readReg_some h read s, rfl⟩

theorem writeReg_answersWith {α ρ : Type} {regOf : Byte → Option ρ} {r : Byte} {write : ρ → Val F → Option α}
    {put : α → Block F} {s : Block F} {regOk wrOk : Bool} (hr : (regOf r).isSome = regOk)
    (hw : ∀ reg, regOf r = some reg → (write reg s.args.a0).isSome = wrOk) :
    AnswersWith F (writeReg regOf r write put s) (statusOf true regOk wrOk) := by
  subst hr
  cases h : regOf r with
  | none => exact ⟨_, _, writeReg_none h write put s, rfl⟩
  | some reg =>
    rw [← hw reg h]
    cases hc : write reg s.args.a0 with
    | none => exact ⟨_, _, writeReg_readOnly h hc put, rfl⟩
    | some c => exact ⟨_, _, writeReg_some h hc put, rfl⟩

theorem ccWrite_pi_isSome (cc : CcRegs F (PiRegs F)) {r : Byte} {reg : CcReg PiReg} (v : Val F)
    (h : ccRegOf piRegOf r = some reg) :
    (cc.write PiRegs.write reg v).isSome = !ccReadOnlyNums.contains r.toNat := by
  simpa [h, cc.write_pi_isSome] using ccWritable_pi_eq r

theorem ccWrite_pid_isSome (cc : CcRegs F (PidRegs F)) {r : Byte} {reg : CcReg PidReg} (v : Val F)
    (h : ccRegOf pidRegOf r = some reg) :
    (cc.write PidRegs.write reg v).isSome = !ccReadOnlyNums.contains r.toNat := by
  simpa [h, cc.write_pid_isSome] using ccWritable_pid_eq r

theorem ccTickOf_answersWith (j : Byte) (sc : Val F × Val F) (s : Block F) :
    AnswersWith F (ccTickOf j sc s) (statusOf (j.toNat < s.banks.cc.count) true true) := by
  unfold ccTickOf
  split <;> next hb => rw [hb]; exact withInst_answersWith fun _ => reply_answersWith _ _

/-- An operation answers the status of its own checks (R86 steps 3 to 6). -/
theorem exec_answersWith (i : Instr) (s : Block F) : AnswersWith F (exec i ⟨F, s⟩) (i.verdict s.build) := by
  rw [verdict_eq_statusOf]
  cases i with
  | piRun | piReset | pidRun | pidReset => exact withInst_answersWith fun _ => reply_answersWith _ _
  | lpf1Run | lpf1Setic | lpf2Run | lpf2Setic => exact withInst_answersWith fun _ => reply_answersWith _ _
  | piRd _ r => exact withInst_answersWith fun _ => readReg_answersWith (piRegOf_isSome r)
  | pidRd _ r => exact withInst_answersWith fun _ => readReg_answersWith (pidRegOf_isSome r)
  | lpf1Rd _ r => exact withInst_answersWith fun _ => readReg_answersWith (lpf1RegOf_isSome r)
  | lpf2Rd _ r => exact withInst_answersWith fun _ => readReg_answersWith (lpf2RegOf_isSome r)
  | piWr _ r =>
    exact withInst_answersWith fun c => writeReg_answersWith (piRegOf_isSome r) fun reg h =>
      (c.write_isSome reg _).trans (piWritable_eq r reg h)
  | pidWr _ r =>
    exact withInst_answersWith fun c => writeReg_answersWith (pidRegOf_isSome r) fun reg h =>
      (c.write_isSome reg _).trans (pidWritable_eq r reg h)
  | lpf1Wr _ r =>
    exact withInst_answersWith fun f => writeReg_answersWith (lpf1RegOf_isSome r) fun reg _ => f.write_isSome reg _
  | lpf2Wr _ r =>
    exact withInst_answersWith fun f => writeReg_answersWith (lpf2RegOf_isSome r) fun reg _ => f.write_isSome reg _
  | clarke | iclarke | park | ipark => exact reply_answersWith _ _
  | ccRunsc j | ccRuna j => exact ccTickOf_answersWith j _ s
  | ccRd j r =>
    change AnswersWith F _ (statusOf (j.toNat < s.banks.cc.count) ((ccRegNums s.banks.cc.kind).contains r.toNat) true)
    unfold exec execCcRd
    dsimp only
    split
    · next hb => rw [hb]; exact withInst_answersWith fun _ => readReg_answersWith (ccRegOf_pi_isSome r)
    · next hb => rw [hb]; exact withInst_answersWith fun _ => readReg_answersWith (ccRegOf_pid_isSome r)
  | ccWr j r =>
    change AnswersWith F _ (statusOf (j.toNat < s.banks.cc.count) ((ccRegNums s.banks.cc.kind).contains r.toNat)
      (!ccReadOnlyNums.contains r.toNat))
    unfold exec execCcWr
    dsimp only
    split
    · next hb =>
      rw [hb]
      exact withInst_answersWith fun c => writeReg_answersWith (ccRegOf_pi_isSome r) fun _ h => ccWrite_pi_isSome c _ h
    · next hb =>
      rw [hb]
      exact withInst_answersWith fun c => writeReg_answersWith (ccRegOf_pid_isSome r) fun _ h => ccWrite_pid_isSome c _ h
  | ccReset j =>
    change AnswersWith F _ (statusOf (j.toNat < s.banks.cc.count) true true)
    unfold exec execCcReset
    dsimp only
    split <;> next hb => rw [hb]; exact withInst_answersWith fun _ => reply_answersWith _ _
  | svmSetvref j | svmAllowovm j | svmRun j | svmGeta j | svmGetb j | svmGetc j =>
    change AnswersWith F _ (statusOf (j.toNat < (s.banks.svm.map SvmRegs.variant).length) true true)
    rw [List.length_map]
    exact withInst_answersWith fun _ => reply_answersWith _ _

end Status

/-! ## The ordered checks on the bits of a word -/

/-- Steps 3 to 6 of R86 on the numbers of the opcode, the instance and the register of a word. -/
def specChecks (b : Build) (opc inst reg : Nat) : Status :=
  if opc / 16 ≠ 5 ∧ specCount b (opc / 16) ≤ inst then .badInstance
  else if opc / 16 ∈ [1, 2, 3, 4, 6] ∧ opc % 16 ∈ [2, 3] ∧ reg ∉ specRegNums b (opc / 16) then .badRegister
  else if opc / 16 ∈ [1, 2, 3, 4, 6] ∧ opc % 16 = 3 ∧ reg ∈ specReadOnlyNums (opc / 16) then .readOnly
  else .ok

theorem specStatus_of_specRow_none {w : Word} (b : Build) (h : specRow w = none) : specStatus b w = .illegalOpcode := by
  simp [specStatus, h]

theorem specStatus_of_mask_ne {w : Word} {row : Nat × Nat} (b : Build) (h : specRow w = some row)
    (hz : w &&& BitVec.ofNat 32 row.2 ≠ BitVec.ofNat 32 row.1) : specStatus b w = .reservedField := by
  simp [specStatus, h, hz]

theorem specStatus_of_mask_eq {w : Word} {row : Nat × Nat} (b : Build) (h : specRow w = some row)
    (hz : w &&& BitVec.ofNat 32 row.2 = BitVec.ofNat 32 row.1) :
    specStatus b w = specChecks b (opcField w).toNat (instField w).toNat (regField w).toNat := by
  rw [toNat_opcField, toNat_instField, toNat_regField]
  simp [specStatus, h, hz, specChecks]

/-- The checks on the bits of an operation's word are the operation's own. -/
theorem specChecks_encode (b : Build) (i : Instr) :
    specChecks b (opcField (encode i)).toNat (instField (encode i)).toNat (regField (encode i)).toNat = i.verdict b := by
  cases i <;> simp [encode, specChecks, specCount, specRegNums, specReadOnlyNums, Instr.verdict, Instr.instanceOk,
    Instr.registerOk, Instr.writableOk]

/-- Settles O3: the decoder rejects a word whose opcode stands in no row of the table. -/
theorem unlistedOpcodeIsAnsweredIllegalOpcode : Obligations.UnlistedOpcodeIsAnsweredIllegalOpcode := by
  intro F s r rest h hlow
  exact step_of_decode_error h (decode_of_specRow_none (specRow_eq_none_iff.mpr hlow))

/-- Settles O4: the fixed bits of the row say whether the decoder rejects the word. -/
theorem mustBeZeroBitIsAnsweredReservedField : Obligations.MustBeZeroBitIsAnsweredReservedField := by
  intro F s r rest h row hmem hlow
  have hrow := specRow_of_mem hmem hlow
  refine ⟨fun hz => step_of_decode_error h (decode_of_mask_ne hrow hz), fun hz => ?_⟩
  obtain ⟨i, hd, -⟩ := decode_of_mask_eq hrow hz
  exact ⟨i, hd⟩

/-- Settles O9: the decoder makes the first two checks and the operation the others; both are those of the word. -/
theorem statusIsDecidedByTheOrderedChecks : Obligations.StatusIsDecidedByTheOrderedChecks := by
  intro F s r rest h
  cases hrow : specRow r.cmd with
  | none =>
    rw [specStatus_of_specRow_none _ hrow]
    exact ⟨_, _, step_of_decode_error h (decode_of_specRow_none hrow), rfl⟩
  | some row =>
    by_cases hz : r.cmd &&& BitVec.ofNat 32 row.2 = BitVec.ofNat 32 row.1
    · obtain ⟨i, hd, he⟩ := decode_of_mask_eq hrow hz
      rw [specStatus_of_mask_eq _ hrow hz, ← he, specChecks_encode, step_of_decode_ok h hd]
      exact exec_answersWith i (s.take r rest)
    · rw [specStatus_of_mask_ne _ hrow hz]
      exact ⟨_, _, step_of_decode_error h (decode_of_mask_ne hrow hz), rfl⟩

end Sys2Proof.Machine

/-! PROOFS. Reading and writing a register by its number against a register table (R90). -/

namespace Sys2Proof.Machine

section RegisterTable

variable {F : FloatFormat} {α ρ : Type} {regOf : Byte → Option ρ} {num : ρ → Nat} {r : Byte}

theorem regOf_of_num_eq (hnum : ∀ reg, regOf (BitVec.ofNat 8 (num reg)) = some reg) {reg : ρ} (h : num reg = r.toNat) :
    regOf r = some reg := by
  rw [← hnum reg, h, BitVec.ofNat_toNat, BitVec.setWidth_eq]

/-- An `RD` of a number that stands in the table of a bank's registers answers the word beside it. -/
theorem readReg_of_mem_table (hnum : ∀ reg, regOf (BitVec.ofNat 8 (num reg)) = some reg) {regs : List ρ} {read : ρ → Val F}
    {v : Val F} (h : (r.toNat, v) ∈ regs.map fun reg => (num reg, read reg)) (s : Block F) :
    readReg regOf r read s = .next ⟨F, s.answered [v]⟩ := by
  obtain ⟨reg, -, heq⟩ := List.mem_map.mp h
  obtain ⟨hr, rfl⟩ := Prod.mk.inj heq
  exact readReg_some (regOf_of_num_eq hnum hr) read s

/-- A `WR` of a number that stands in the table of a bank's `RW` registers puts the instance beside it. -/
theorem writeReg_of_mem_writeTable (hnum : ∀ reg, regOf (BitVec.ofNat 8 (num reg)) = some reg) {regs : List ρ}
    {write : ρ → Val F → Option α} {s : Block F} {c : α}
    (h : (r.toNat, c) ∈ regs.filterMap fun reg => (write reg s.args.a0).map fun c => (num reg, c)) (put : α → Block F) :
    writeReg regOf r write put s = .next ⟨F, (put c).answered []⟩ := by
  obtain ⟨reg, -, hreg⟩ := List.mem_filterMap.mp h
  obtain ⟨c', hw, heq⟩ := Option.map_eq_some_iff.mp hreg
  obtain ⟨hr, rfl⟩ := Prod.mk.inj heq
  exact writeReg_some (regOf_of_num_eq hnum hr) hw put

end RegisterTable

end Sys2Proof.Machine

/-! PROOFS. The registers of a PI controller and its operations on an instance the build has (R24, R110 to R115). -/

namespace Sys2Proof

/-- The number of a PI register (R24). -/
def PiReg.num : PiReg → Nat
  | .kP => 0x00
  | .kI => 0x01
  | .outMin => 0x03
  | .outMax => 0x04
  | .integ => 0x05
  | .spLast => 0x06
  | .pvLast => 0x07
  | .ffLast => 0x08

/-- The PI registers in the order of R24. -/
def PiReg.all : List PiReg := [.kP, .kI, .outMin, .outMax, .integ, .spLast, .pvLast, .ffLast]

end Sys2Proof

namespace Sys2Proof.Machine

section Pi

variable {F : FloatFormat} {s : Block F} {i r : Byte} {c : PiRegs F}

theorem piRegOf_num (reg : PiReg) : piRegOf (BitVec.ofNat 8 reg.num) = some reg := by
  cases reg <;> rfl

theorem piRegOf_eq_none (h : r.toNat = 0x02 ∨ 0x09 ≤ r.toNat) : piRegOf r = none := by
  rw [← Option.not_isSome_iff_eq_none, piRegOf_isSome]
  simp [piRegNums]
  omega

/-- R24: the registers numbered `0x05` to `0x08` are read-only. -/
theorem piRegOf_readOnly (hlo : 0x05 ≤ r.toNat) (hhi : r.toNat ≤ 0x08) (c : PiRegs F) (v : Val F) :
    ∃ reg, piRegOf r = some reg ∧ c.write reg v = none := by
  have hnum : (piRegOf r).isSome = true := by
    rw [piRegOf_isSome]
    simp [piRegNums]
    omega
  obtain ⟨reg, hreg⟩ := Option.isSome_iff_exists.mp hnum
  refine ⟨reg, hreg, ?_⟩
  rw [← Option.not_isSome_iff_eq_none, c.write_isSome, piWritable_eq r reg hreg]
  simp [ctrlReadOnlyNums]
  omega

theorem PiRegs.table_eq (c : PiRegs F) : c.table = PiReg.all.map fun reg => (reg.num, c.read reg) := rfl

theorem PiRegs.writeTable_eq (c : PiRegs F) (v : Val F) :
    c.writeTable v = PiReg.all.filterMap fun reg => (c.write reg v).map fun c' => (reg.num, c') := rfl

/-- The integrator after the integral stage, and its term (R110). -/
theorem integralStage_eq (ν : Nat → Val F) (kI integ lo hi e : Val F) :
    integralStage ν kI integ lo hi e =
      let g := if feq kI zeroF then integ else clamp (fadd (ν 1) integ (fmul (ν 0) kI e)) lo hi
      (g, if feq kI zeroF then zeroF else g) := by
  unfold integralStage
  split <;> rfl

theorem exec_piRun_some (hc : s.banks.pi[i.toNat]? = some c) :
    exec (.piRun i) ⟨F, s⟩ =
      .next ⟨F, (s.setPi i (piRun s.nans c s.args.a0 s.args.a1 s.args.a2).1).drawn.answered
        [(piRun s.nans c s.args.a0 s.args.a1 s.args.a2).2]⟩ :=
  withInst_some hc s _

theorem exec_piReset_some (hc : s.banks.pi[i.toNat]? = some c) :
    exec (.piReset i) ⟨F, s⟩ = .next ⟨F, (s.setPi i (piReset c)).answered []⟩ :=
  withInst_some hc s _

theorem exec_piRd_some (hc : s.banks.pi[i.toNat]? = some c) :
    exec (.piRd i r) ⟨F, s⟩ = readReg piRegOf r c.read s :=
  withInst_some hc s _

theorem exec_piWr_some (hc : s.banks.pi[i.toNat]? = some c) :
    exec (.piWr i r) ⟨F, s⟩ = writeReg piRegOf r c.write (s.setPi i) s :=
  withInst_some hc s _

end Pi

/-- Settles O25: the tables of R24 list the registers with their numbers; the other numbers name none, or one that is
read-only. -/
theorem piRegistersReadAndWrite : Obligations.PiRegistersReadAndWrite := by
  intro F s i r c hc
  rw [exec_piRd_some hc, exec_piWr_some hc]
  refine ⟨fun v h => ?_, fun h => ?_, fun c' h => ?_, fun hlo hhi => ?_⟩
  · rw [c.table_eq] at h
    exact readReg_of_mem_table piRegOf_num h s
  · have hnone := piRegOf_eq_none h
    exact ⟨readReg_none hnone c.read s, writeReg_none hnone c.write (s.setPi i) s⟩
  · rw [c.writeTable_eq] at h
    exact writeReg_of_mem_writeTable piRegOf_num h (s.setPi i)
  · obtain ⟨reg, hreg, hro⟩ := piRegOf_readOnly hlo hhi c s.args.a0
    exact writeReg_readOnly hreg hro (s.setPi i)

/-- Settles O18: the NaNs are those of the operation's draw, and the integral stage is the one place where the law
branches. -/
theorem piRunFollowsTheControlLaw : Obligations.PiRunFollowsTheControlLaw := by
  intro F s i c hc _
  refine ⟨s.nans, ?_⟩
  rw [exec_piRun_some hc, piRun, integralStage_eq]
  rfl

/-- Settles O24: an instance the build has takes the registers of `PiReset`, and the answer has no word. -/
theorem piResetClearsTheController : Obligations.PiResetClearsTheController :=
  fun _ _ _ _ hc => exec_piReset_some hc

end Sys2Proof.Machine

/-! PROOFS. The registers of a PID controller and its operations on an instance the build has (R28, R130 to R137). -/

namespace Sys2Proof

/-- The number of a PID register (R28). -/
def PidReg.num : PidReg → Nat
  | .kP => 0x00
  | .kI => 0x01
  | .kD => 0x02
  | .outMin => 0x03
  | .outMax => 0x04
  | .integ => 0x05
  | .spLast => 0x06
  | .pvLast => 0x07
  | .ffLast => 0x08
  | .dB0 => 0x09
  | .dB1 => 0x0A
  | .dA1 => 0x0B
  | .dX1 => 0x0C
  | .dY1 => 0x0D

/-- The PID registers in the order of R28. -/
def PidReg.all : List PidReg :=
  [.kP, .kI, .kD, .outMin, .outMax, .integ, .spLast, .pvLast, .ffLast, .dB0, .dB1, .dA1, .dX1, .dY1]

end Sys2Proof

namespace Sys2Proof.Machine

section Pid

variable {F : FloatFormat} {s : Block F} {i r : Byte} {c : PidRegs F}

theorem pidRegOf_num (reg : PidReg) : pidRegOf (BitVec.ofNat 8 reg.num) = some reg := by
  cases reg <;> rfl

theorem pidRegOf_eq_none (h : 0x0E ≤ r.toNat) : pidRegOf r = none := by
  rw [← Option.not_isSome_iff_eq_none, pidRegOf_isSome]
  simp [pidRegNums]
  omega

theorem ctrlReadOnlyNums_subset_pidRegNums : ctrlReadOnlyNums ⊆ pidRegNums := by decide

/-- R90: the read-only numbers of a controller name PID registers that no `WR` changes. -/
theorem pidRegOf_readOnly (h : r.toNat ∈ ctrlReadOnlyNums) (c : PidRegs F) (v : Val F) :
    ∃ reg, pidRegOf r = some reg ∧ c.write reg v = none := by
  have hnum : (pidRegOf r).isSome = true := by
    rw [pidRegOf_isSome]
    exact List.contains_iff_mem.mpr (ctrlReadOnlyNums_subset_pidRegNums h)
  obtain ⟨reg, hreg⟩ := Option.isSome_iff_exists.mp hnum
  refine ⟨reg, hreg, ?_⟩
  rw [← Option.not_isSome_iff_eq_none, c.write_isSome, pidWritable_eq r reg hreg, List.contains_iff_mem.mpr h]
  decide

theorem PidRegs.table_eq (c : PidRegs F) : c.table = PidReg.all.map fun reg => (reg.num, c.read reg) := rfl

theorem PidRegs.writeTable_eq (c : PidRegs F) (v : Val F) :
    c.writeTable v = PidReg.all.filterMap fun reg => (c.write reg v).map fun c' => (reg.num, c') := rfl

/-- The filter memory after the derivative stage, and its term (R131). -/
theorem derivStage_eq (gate : DGate) (ν : Nat → Val F) (c : PidRegs F) (e : Val F) :
    derivStage gate ν c e =
      let x := fmul (ν 0) c.kD e
      let y := iir1 (nansFrom ν 1) c.dB0 c.dB1 c.dA1 c.dX1 c.dY1 x
      (if dGateClosed gate c then c.dX1 else x, if dGateClosed gate c then c.dY1 else y,
        if dGateClosed gate c then zeroF else y) := by
  unfold derivStage
  split <;> rfl

theorem exec_pidRun_some (hc : s.banks.pid[i.toNat]? = some c) :
    exec (.pidRun i) ⟨F, s⟩ =
      .next ⟨F, (s.setPid i (pidRun s.params.dGate s.nans c s.args.a0 s.args.a1 s.args.a2).1).drawn.answered
        [(pidRun s.params.dGate s.nans c s.args.a0 s.args.a1 s.args.a2).2]⟩ :=
  withInst_some hc s _

theorem exec_pidReset_some (hc : s.banks.pid[i.toNat]? = some c) :
    exec (.pidReset i) ⟨F, s⟩ = .next ⟨F, (s.setPid i (pidReset c)).answered []⟩ :=
  withInst_some hc s _

theorem exec_pidRd_some (hc : s.banks.pid[i.toNat]? = some c) :
    exec (.pidRd i r) ⟨F, s⟩ = readReg pidRegOf r c.read s :=
  withInst_some hc s _

theorem exec_pidWr_some (hc : s.banks.pid[i.toNat]? = some c) :
    exec (.pidWr i r) ⟨F, s⟩ = writeReg pidRegOf r c.write (s.setPid i) s :=
  withInst_some hc s _

end Pid

/-- Settles O29: the tables of R28 list the registers with their numbers; the other numbers name none, or one that is
read-only. -/
theorem pidRegistersReadAndWrite : Obligations.PidRegistersReadAndWrite := by
  intro F s i r c hc
  rw [exec_pidRd_some hc, exec_pidWr_some hc]
  refine ⟨fun v h => ?_, fun h => ?_, fun c' h => ?_, fun h => ?_⟩
  · rw [c.table_eq] at h
    exact readReg_of_mem_table pidRegOf_num h s
  · have hnone := pidRegOf_eq_none h
    exact ⟨readReg_none hnone c.read s, writeReg_none hnone c.write (s.setPid i) s⟩
  · rw [c.writeTable_eq] at h
    exact writeReg_of_mem_writeTable pidRegOf_num h (s.setPid i)
  · obtain ⟨reg, hreg, hro⟩ := pidRegOf_readOnly h c s.args.a0
    exact writeReg_readOnly hreg hro (s.setPid i)

/-- Settles O26: the NaNs are those of the operation's draw, and the law branches only in the integral stage and on the
derivative gate. -/
theorem pidRunFollowsTheControlLaw : Obligations.PidRunFollowsTheControlLaw := by
  intro F s i c hc _
  refine ⟨s.nans, ?_⟩
  rw [exec_pidRun_some hc, pidRun, integralStage_eq, derivStage_eq]
  rfl

/-- Settles O28: an instance the build has takes the registers of `PidReset`, and the answer has no word. -/
theorem pidResetClearsTheController : Obligations.PidResetClearsTheController :=
  fun _ _ _ _ hc => exec_pidReset_some hc

end Sys2Proof.Machine

/-! PROOFS. The registers of the two filters and their operations on an instance the build has (R30, R31, R150 to R159). -/

namespace Sys2Proof

/-- The number of a register of a first-order filter (R30). -/
def Lpf1Reg.num : Lpf1Reg → Nat
  | .b0 => 0x00
  | .b1 => 0x01
  | .a1 => 0x02
  | .x1 => 0x03
  | .y1 => 0x04

/-- The registers of a first-order filter in the order of R30. -/
def Lpf1Reg.all : List Lpf1Reg := [.b0, .b1, .a1, .x1, .y1]

/-- The number of a register of a second-order filter (R31). -/
def Lpf2Reg.num : Lpf2Reg → Nat
  | .b0 => 0x00
  | .b1 => 0x01
  | .b2 => 0x02
  | .a1 => 0x03
  | .a2 => 0x04
  | .x1 => 0x05
  | .x2 => 0x06
  | .y1 => 0x07
  | .y2 => 0x08

/-- The registers of a second-order filter in the order of R31. -/
def Lpf2Reg.all : List Lpf2Reg := [.b0, .b1, .b2, .a1, .a2, .x1, .x2, .y1, .y2]

end Sys2Proof

namespace Sys2Proof.Machine

section RegisterNumbers

variable {F : FloatFormat} {α ρ : Type} {regOf : Byte → Option ρ} {num : ρ → Nat} {r : Byte} {bound : Nat}

/-- R90 for a bank whose register numbers stop below `bound`: `RD` and `WR` against the tables of its registers, and
`BAD_REGISTER` for the numbers from `bound` on. -/
theorem readReg_writeReg_of_tables (hnum : ∀ reg, regOf (BitVec.ofNat 8 (num reg)) = some reg)
    (hnone : bound ≤ r.toNat → regOf r = none) (regs : List ρ) (read : ρ → Val F) (write : ρ → Val F → Option α)
    (put : α → Block F) (s : Block F) :
    (∀ v, (r.toNat, v) ∈ regs.map (fun reg => (num reg, read reg)) →
      readReg regOf r read s = .next ⟨F, s.answered [v]⟩) ∧
    (bound ≤ r.toNat → readReg regOf r read s = .next ⟨F, s.refusedWith .badRegister⟩ ∧
      writeReg regOf r write put s = .next ⟨F, s.refusedWith .badRegister⟩) ∧
    (∀ c, (r.toNat, c) ∈ regs.filterMap (fun reg => (write reg s.args.a0).map fun c => (num reg, c)) →
      writeReg regOf r write put s = .next ⟨F, (put c).answered []⟩) := by
  refine ⟨fun v h => readReg_of_mem_table hnum h s, fun h => ?_, fun c h => writeReg_of_mem_writeTable hnum h put⟩
  exact ⟨readReg_none (hnone h) read s, writeReg_none (hnone h) write put s⟩

end RegisterNumbers

section Lpf1

variable {F : FloatFormat} {s : Block F} {i r : Byte} {f : Lpf1Regs F}

theorem lpf1RegOf_num (reg : Lpf1Reg) : lpf1RegOf (BitVec.ofNat 8 reg.num) = some reg := by
  cases reg <;> rfl

theorem lpf1RegOf_eq_none (h : 0x05 ≤ r.toNat) : lpf1RegOf r = none := by
  rw [← Option.not_isSome_iff_eq_none, lpf1RegOf_isSome]
  simp [lpf1RegNums]
  omega

theorem Lpf1Regs.table_eq (f : Lpf1Regs F) : f.table = Lpf1Reg.all.map fun reg => (reg.num, f.read reg) := rfl

theorem Lpf1Regs.writeTable_eq (f : Lpf1Regs F) (v : Val F) :
    f.writeTable v = Lpf1Reg.all.filterMap fun reg => (f.write reg v).map fun f' => (reg.num, f') := rfl

theorem exec_lpf1Run_some (hf : s.banks.lpf1[i.toNat]? = some f) :
    exec (.lpf1Run i) ⟨F, s⟩ =
      .next ⟨F, (s.setLpf1 i (lpf1Step s.nans f s.args.a0).1).drawn.answered [(lpf1Step s.nans f s.args.a0).2]⟩ :=
  withInst_some hf s _

theorem exec_lpf1Setic_some (hf : s.banks.lpf1[i.toNat]? = some f) :
    exec (.lpf1Setic i) ⟨F, s⟩ =
      .next ⟨F, (s.setLpf1 i { f with x1 := s.args.a0, y1 := s.args.a1 }).answered []⟩ :=
  withInst_some hf s _

theorem exec_lpf1Rd_some (hf : s.banks.lpf1[i.toNat]? = some f) :
    exec (.lpf1Rd i r) ⟨F, s⟩ = readReg lpf1RegOf r f.read s :=
  withInst_some hf s _

theorem exec_lpf1Wr_some (hf : s.banks.lpf1[i.toNat]? = some f) :
    exec (.lpf1Wr i r) ⟨F, s⟩ = writeReg lpf1RegOf r f.write (s.setLpf1 i) s :=
  withInst_some hf s _

end Lpf1

section Lpf2

variable {F : FloatFormat} {s : Block F} {i r : Byte} {f : Lpf2Regs F}

theorem lpf2RegOf_num (reg : Lpf2Reg) : lpf2RegOf (BitVec.ofNat 8 reg.num) = some reg := by
  cases reg <;> rfl

theorem lpf2RegOf_eq_none (h : 0x09 ≤ r.toNat) : lpf2RegOf r = none := by
  rw [← Option.not_isSome_iff_eq_none, lpf2RegOf_isSome]
  simp [lpf2RegNums]
  omega

theorem Lpf2Regs.table_eq (f : Lpf2Regs F) : f.table = Lpf2Reg.all.map fun reg => (reg.num, f.read reg) := rfl

theorem Lpf2Regs.writeTable_eq (f : Lpf2Regs F) (v : Val F) :
    f.writeTable v = Lpf2Reg.all.filterMap fun reg => (f.write reg v).map fun f' => (reg.num, f') := rfl

theorem exec_lpf2Run_some (hf : s.banks.lpf2[i.toNat]? = some f) :
    exec (.lpf2Run i) ⟨F, s⟩ =
      .next ⟨F, (s.setLpf2 i (lpf2Step s.nans f s.args.a0).1).drawn.answered [(lpf2Step s.nans f s.args.a0).2]⟩ :=
  withInst_some hf s _

theorem exec_lpf2Setic_some (hf : s.banks.lpf2[i.toNat]? = some f) :
    exec (.lpf2Setic i) ⟨F, s⟩ =
      .next ⟨F, (s.setLpf2 i
        { f with x1 := s.args.a0, x2 := s.args.a1, y1 := s.args.a2, y2 := s.args.a3 }).answered []⟩ :=
  withInst_some hf s _

theorem exec_lpf2Rd_some (hf : s.banks.lpf2[i.toNat]? = some f) :
    exec (.lpf2Rd i r) ⟨F, s⟩ = readReg lpf2RegOf r f.read s :=
  withInst_some hf s _

theorem exec_lpf2Wr_some (hf : s.banks.lpf2[i.toNat]? = some f) :
    exec (.lpf2Wr i r) ⟨F, s⟩ = writeReg lpf2RegOf r f.write (s.setLpf2 i) s :=
  withInst_some hf s _

end Lpf2

/-- Settles O31: the tables of R30 list the registers with their numbers, and no number from `0x05` on names one. -/
theorem lpf1RegistersReadAndWrite : Obligations.Lpf1RegistersReadAndWrite := by
  intro F s i r f hf
  rw [exec_lpf1Rd_some hf, exec_lpf1Wr_some hf, f.table_eq, f.writeTable_eq]
  exact readReg_writeReg_of_tables lpf1RegOf_num lpf1RegOf_eq_none _ f.read f.write (s.setLpf1 i) s

/-- Settles O34: the tables of R31 list the registers with their numbers, and no number from `0x09` on names one. -/
theorem lpf2RegistersReadAndWrite : Obligations.Lpf2RegistersReadAndWrite := by
  intro F s i r f hf
  rw [exec_lpf2Rd_some hf, exec_lpf2Wr_some hf, f.table_eq, f.writeTable_eq]
  exact readReg_writeReg_of_tables lpf2RegOf_num lpf2RegOf_eq_none _ f.read f.write (s.setLpf2 i) s

/-- Settles O30: the NaNs are those of the operation's draw, and the formula is that of `Lpf1Step`. -/
theorem lpf1RunFiltersOneSample : Obligations.Lpf1RunFiltersOneSample :=
  fun _ s _ _ hf => ⟨s.nans, exec_lpf1Run_some hf⟩

/-- Settles O32: the NaNs are those of the operation's draw, and the formula and the shift are those of `Lpf2Step`. -/
theorem lpf2RunFiltersOneSampleAndShifts : Obligations.Lpf2RunFiltersOneSampleAndShifts :=
  fun _ s _ _ hf => ⟨s.nans, exec_lpf2Run_some hf⟩

/-- Settles O33: an instance the build has takes the operand words in its delay line, and the answer has no word. -/
theorem seticSeedsTheDelayLine : Obligations.SeticSeedsTheDelayLine :=
  ⟨fun _ _ _ _ hf => exec_lpf1Setic_some hf, fun _ _ _ _ hf => exec_lpf2Setic_some hf⟩

end Sys2Proof.Machine

/-! PROOFS. The Clarke transform in the two modes of `CLARKE_MODE` (R171). -/

namespace Sys2Proof.Machine

section Clarke

variable {F : FloatFormat}

theorem clarkeOf_three (ν : Nat → Val F) (iA iB iC : Val F) :
    clarkeOf .three ν iA iB iC =
      (fsub (ν 3) (fmul (ν 0) c23 iA) (fmul (ν 2) c13 (fadd (ν 1) iB iC)), fdiv (ν 5) (fsub (ν 4) iB iC) cSqrt3) := rfl

theorem clarkeOf_two (ν : Nat → Val F) (iA iB iC : Val F) :
    clarkeOf .two ν iA iB iC = (iA, fadd (ν 3) (fdiv (ν 0) iA cSqrt3) (fdiv (ν 2) (fmul (ν 1) cTwo iB) cSqrt3)) := rfl

theorem exec_clarke {s : Block F} {mode : ClarkeMode} (hm : s.params.clarkeMode = mode) :
    exec .clarke ⟨F, s⟩ =
      .next ⟨F, s.drawn.answered [(clarkeOf mode s.nans s.args.a0 s.args.a1 s.args.a2).1,
        (clarkeOf mode s.nans s.args.a0 s.args.a1 s.args.a2).2]⟩ := by
  subst hm
  exact reply_eq s.drawn _

end Clarke

/-- Settles O37: the NaNs are those of the operation's draw, and the mode picks the formula. -/
theorem clarkeAnswersAlphaBeta : Obligations.ClarkeAnswersAlphaBeta := by
  refine fun F s => ⟨s.nans, fun hm => ?three, fun hm => ?two⟩
  case three =>
    rw [exec_clarke hm, clarkeOf_three]
    rfl
  case two =>
    rw [exec_clarke hm, clarkeOf_two]
    rfl

end Sys2Proof.Machine

/-! PROOFS. The registers of a current controller and its operations on an instance the build has (R33, R194, R196). -/

namespace Sys2Proof

/-- The number of a register of a current controller (R33), given the numbers of its embedded controllers: d at `0x00`, q at
`0x20`. -/
def CcReg.num {ρ : Type} (ctrlNum : ρ → Nat) : CcReg ρ → Nat
  | .d r => ctrlNum r
  | .q r => ctrlNum r + 0x20
  | .idRef => 0x40
  | .iqRef => 0x41
  | .vAlpha => 0x42
  | .vBeta => 0x43

/-- The registers of a current controller in the order of R33, given those of its embedded controllers. -/
def CcReg.all {ρ : Type} (ctrlRegs : List ρ) : List (CcReg ρ) :=
  ctrlRegs.map .d ++ ctrlRegs.map .q ++ [.idRef, .iqRef, .vAlpha, .vBeta]

theorem PiReg.num_lt (reg : PiReg) : reg.num < 0x20 := by
  cases reg <;> decide

theorem PidReg.num_lt (reg : PidReg) : reg.num < 0x20 := by
  cases reg <;> decide

end Sys2Proof

namespace Sys2Proof.Machine

section Cc

variable {F : FloatFormat} {s : Block F} {j r : Byte}

section Kind

variable {κ ρ : Type} {L : Ctrl F κ ρ} {num : ρ → Nat} {regs : List ρ} {ctrlTable : κ → List (Nat × Val F)}
  {l : List (CcRegs F κ)} {cc : CcRegs F κ}

/-- R33: the number of a register names it, when the embedded controllers' numbers do and leave room for both offsets. -/
theorem ccRegOf_num {regOf : Byte → Option ρ} (hnum : ∀ reg, regOf (BitVec.ofNat 8 (num reg)) = some reg)
    (hlt : ∀ reg, num reg < 0x20) (reg : CcReg ρ) : ccRegOf regOf (BitVec.ofNat 8 (reg.num num)) = some reg := by
  cases reg with
  | d r =>
    have hn := hlt r
    have hd : (BitVec.ofNat 8 (num r)).toNat < 0x20 := by
      rw [BitVec.toNat_ofNat]
      omega
    simp only [CcReg.num, ccRegOf, if_pos hd, hnum, Option.map_some]
  | q r =>
    have hn := hlt r
    obtain ⟨hlo, hhi⟩ : ¬ (BitVec.ofNat 8 (num r + 0x20)).toNat < 0x20 ∧
        (BitVec.ofNat 8 (num r + 0x20)).toNat < 0x40 := by
      rw [BitVec.toNat_ofNat]
      omega
    have hsub : BitVec.ofNat 8 (num r + 0x20) - 0x20#8 = BitVec.ofNat 8 (num r) := by
      rw [BitVec.ofNat_add, BitVec.add_sub_cancel]
    simp only [CcReg.num, ccRegOf, if_neg hlo, if_pos hhi, hsub, hnum, Option.map_some]
  | idRef | iqRef | vAlpha | vBeta => rfl

/-- The register table of R33 lists the registers with their numbers, when the embedded controllers' table does. -/
theorem CcRegs.table_eq {read : κ → ρ → Val F} (htable : ∀ c, ctrlTable c = regs.map fun reg => (num reg, read c reg))
    (cc : CcRegs F κ) :
    cc.table ctrlTable = (CcReg.all regs).map fun reg => (reg.num num, cc.read read reg) := by
  simp only [CcRegs.table, CcReg.all, htable, List.map_append, List.map_map]
  rfl

/-- R194 for the embedded controllers `L`: a number of the register table is answered the word beside it, a number that
names no register `BAD_REGISTER`. -/
theorem ccRead_of_table (hnum : ∀ reg, L.regOf (BitVec.ofNat 8 (num reg)) = some reg) (hlt : ∀ reg, num reg < 0x20)
    (htable : ∀ c, ctrlTable c = regs.map fun reg => (num reg, L.read c reg)) (hc : l[j.toNat]? = some cc) :
    (∀ v, (r.toNat, v) ∈ cc.table ctrlTable → ccRead L l j r s = .next ⟨F, s.answered [v]⟩) ∧
    (ccRegOf L.regOf r = none → ccRead L l j r s = .next ⟨F, s.refusedWith .badRegister⟩) := by
  rw [ccRead, withInst_some hc, cc.table_eq htable]
  exact ⟨fun v h => readReg_of_mem_table (ccRegOf_num hnum hlt) h s, fun h => readReg_none h (cc.read L.read) s⟩

theorem ccClear_some (wrap : List (CcRegs F κ) → CcBank F) (hc : l[j.toNat]? = some cc) :
    ccClear L wrap l j s = .next ⟨F, (s.setCc (wrap (l.set j.toNat (ccReset L cc)))).answered []⟩ :=
  withInst_some hc s _

end Kind

theorem ccRegOf_pi_eq_none (h : r.toNat ∉ ccRegNums .pi) : ccRegOf piRegOf r = none := by
  rw [← Option.not_isSome_iff_eq_none, ccRegOf_pi_isSome]
  simpa using h

theorem ccRegOf_pid_eq_none (h : r.toNat ∉ ccRegNums .pid) : ccRegOf pidRegOf r = none := by
  rw [← Option.not_isSome_iff_eq_none, ccRegOf_pid_isSome]
  simpa using h

theorem exec_ccRd_pi {l : List (CcRegs F (PiRegs F))} (hb : s.banks.cc = .pi l) :
    exec (.ccRd j r) ⟨F, s⟩ = ccRead piCtrl l j r s := by
  simp only [exec, execCcRd, hb]

theorem exec_ccRd_pid {l : List (CcRegs F (PidRegs F))} (hb : s.banks.cc = .pid l) :
    exec (.ccRd j r) ⟨F, s⟩ = ccRead (pidCtrl s.params.dGate) l j r s := by
  simp only [exec, execCcRd, hb]

theorem exec_ccReset_pi {l : List (CcRegs F (PiRegs F))} (hb : s.banks.cc = .pi l) :
    exec (.ccReset j) ⟨F, s⟩ = ccClear piCtrl .pi l j s := by
  simp only [exec, execCcReset, hb]

theorem exec_ccReset_pid {l : List (CcRegs F (PidRegs F))} (hb : s.banks.cc = .pid l) :
    exec (.ccReset j) ⟨F, s⟩ = ccClear (pidCtrl s.params.dGate) .pid l j s := by
  simp only [exec, execCcReset, hb]

end Cc

/-- Settles O43: the table of R33 lists the registers with their numbers, whatever the kind of the embedded controllers,
and the numbers outside R90's list name none. -/
theorem ccRdAnswersTheNamedRegister : Obligations.CcRdAnswersTheNamedRegister := by
  refine ⟨fun F s j r l cc hb hc => ?pi, fun F s j r l cc hb hc => ?pid⟩
  case pi =>
    rw [exec_ccRd_pi hb]
    obtain ⟨hword, hbad⟩ := ccRead_of_table (L := piCtrl) piRegOf_num PiReg.num_lt PiRegs.table_eq hc
    exact ⟨hword, fun h => hbad (ccRegOf_pi_eq_none h)⟩
  case pid =>
    rw [exec_ccRd_pid hb]
    obtain ⟨hword, hbad⟩ :=
      ccRead_of_table (L := pidCtrl s.params.dGate) pidRegOf_num PidReg.num_lt PidRegs.table_eq hc
    exact ⟨hword, fun h => hbad (ccRegOf_pid_eq_none h)⟩

/-- Settles O45: an instance the build has takes `ccReset`, which is the reset of its kind in d and in q. -/
theorem ccResetClearsBothControllers : Obligations.CcResetClearsBothControllers := by
  refine ⟨fun F s j l cc hb hc => ?pi, fun F s j l cc hb hc => ?pid⟩
  case pi => exact (exec_ccReset_pi hb).trans (ccClear_some .pi hc)
  case pid => exact (exec_ccReset_pid hb).trans (ccClear_some .pid hc)

end Sys2Proof.Machine

/-! PROOFS. The operations of a modulator on an instance the build has (R211 to R217), and the limited vector of
`SVM.RUN` (R213). -/

namespace Sys2Proof.Machine

section Svm

variable {F : FloatFormat} {s : Block F} {i : Byte} {m : SvmRegs F}

theorem exec_svmSetvref_some (hm : s.banks.svm[i.toNat]? = some m) :
    exec (.svmSetvref i) ⟨F, s⟩ = .next ⟨F, (s.setSvm i { m with va := s.args.a0, vb := s.args.a1 }).answered []⟩ :=
  withInst_some hm s _

theorem exec_svmAllowovm_some (hm : s.banks.svm[i.toNat]? = some m) (flag : Bool) :
    exec (.svmAllowovm i flag) ⟨F, s⟩ = .next ⟨F, (s.setSvm i (m.setOvm flag)).answered []⟩ :=
  withInst_some hm s _

theorem exec_svmGeta_some (hm : s.banks.svm[i.toNat]? = some m) :
    exec (.svmGeta i) ⟨F, s⟩ = .next ⟨F, s.answered [m.dA]⟩ :=
  withInst_some hm s _

theorem exec_svmGetb_some (hm : s.banks.svm[i.toNat]? = some m) :
    exec (.svmGetb i) ⟨F, s⟩ = .next ⟨F, s.answered [m.dB]⟩ :=
  withInst_some hm s _

theorem exec_svmGetc_some (hm : s.banks.svm[i.toNat]? = some m) :
    exec (.svmGetc i) ⟨F, s⟩ = .next ⟨F, s.answered [m.dC]⟩ :=
  withInst_some hm s _

/-- The limited vector by components (R213): both are scaled when overmodulation is not allowed and the vector is too
long, and both are kept otherwise. -/
theorem svmLimit_eq (backend : SqrtBackend) (ν : Nat → Val F) (ovm : Bool) (a b : Val F) :
    svmLimit backend ν ovm a b =
      let len := fsqrtOf backend (ν 3) (fadd (ν 2) (fmul (ν 0) a a) (fmul (ν 1) b b))
      let k := fdiv (ν 4) cSqrt32 len
      let limited := ovm = false ∧ fgt len cSqrt32 = true
      (if limited then fmul (ν 5) a k else a, if limited then fmul (ν 6) b k else b) := by
  cases ovm with
  | true => simp [svmLimit]
  | false =>
    simp only [svmLimit, Bool.false_eq_true, if_false, true_and]
    split <;> rfl

end Svm

/-- Settles O48: an instance the build has takes the operand words or the flag, and the answer has no word. -/
theorem svmSettersStoreTheVectorAndTheFlag : Obligations.SvmSettersStoreTheVectorAndTheFlag :=
  fun _ _ _ flag _ hm => ⟨exec_svmSetvref_some hm, exec_svmAllowovm_some hm flag⟩

/-- Settles O49: the NaNs are those of the algorithm and the vector, and the limiting is the one place where `SVM.RUN`
branches before the sector test. -/
theorem svmRunStoresClampedDuties : Obligations.SvmRunStoresClampedDuties := by
  intro F s i m hm
  refine ⟨Config.svmNaN F m.variant m.va m.vb, ?_⟩
  rw [exec_svmRun_some hm, svmRun, svmLimit_eq]
  rfl

/-- Settles O50: each getter of an instance the build has answers its own duty. -/
theorem svmGettersAnswerTheStoredDuties : Obligations.SvmGettersAnswerTheStoredDuties :=
  fun _ _ _ _ hm => ⟨exec_svmGeta_some hm, exec_svmGetb_some hm, exec_svmGetc_some hm⟩

end Sys2Proof.Machine

/-! PROOFS. Command status (R230, R232): what completes with `OK`, and what a rejection leaves behind. -/

namespace Sys2Proof.Machine

section Rejection

variable {F : FloatFormat} {s t : Block F} {r : Request F} {rest : List (Input F)} {p : Response F}

theorem verdict_of_wellFormed {b : Build} {i : Instr} (h : i.wellFormed b = true) : i.verdict b = .ok := by
  simp only [Instr.wellFormed, Bool.and_eq_true] at h
  obtain ⟨⟨hinst, hreg⟩, hwr⟩ := h
  simp [Instr.verdict, hinst, hreg, hwr]

/-- An operation is either rejected as a whole or answers `OK`. -/
theorem Effect.refusedWith_or_ok {i : Instr} (h : Effect i s t) :
    (∃ st, t = s.refusedWith st) ∨ ∃ rs, t.resp = some { status := .ok, results := rs } := by
  cases h with
  | rejected _ _ st => exact .inl ⟨st, rfl⟩
  | read | transform => exact .inr ⟨_, rfl⟩
  | piRun | piReset | piWr | pidRun | pidReset | pidWr => exact .inr ⟨_, rfl⟩
  | lpf1Run | lpf1Setic | lpf1Wr | lpf2Run | lpf2Setic | lpf2Wr => exact .inr ⟨_, rfl⟩
  | ccTickPi | ccTickPid | ccWrPi | ccWrPid | ccResetPi | ccResetPid => exact .inr ⟨_, rfl⟩
  | svmSetvref | svmAllowovm | svmRun => exact .inr ⟨_, rfl⟩

/-- A step that takes a command either rejects it, in the decoder or in its operation, or answers `OK`. -/
theorem step_refusedWith_or_ok (h : s.inbox = .command r :: rest) (hstep : step ⟨F, s⟩ = .next ⟨F, t⟩) :
    (∃ st, t = (s.take r rest).refusedWith st) ∨ ∃ rs, t.resp = some { status := .ok, results := rs } := by
  cases hd : decode r.cmd with
  | error st => exact .inl ⟨st, (next_inj ((step_of_decode_error h hd).symm.trans hstep)).symm⟩
  | ok i => exact (exec_effect ((step_of_decode_ok h hd).symm.trans hstep)).refusedWith_or_ok

/-- The status of a step that takes a command is that of the checks on its word and the build (R86). -/
theorem step_status_eq_specStatus (h : s.inbox = .command r :: rest) (hstep : step ⟨F, s⟩ = .next ⟨F, t⟩)
    (hp : t.resp = some p) : p.status = specStatus s.build r.cmd := by
  obtain ⟨t', rs, ht', hresp⟩ := statusIsDecidedByTheOrderedChecks F s r rest h
  obtain rfl : t' = t := next_inj (ht'.symm.trans hstep)
  obtain rfl : p = _ := Option.some.inj (hp.symm.trans hresp)
  rfl

end Rejection

/-- Settles O8: an operation answers the status of its own checks, and a well-formed one passes them all. -/
theorem wellFormedOperationCompletesOk : Obligations.WellFormedOperationCompletesOk := by
  intro i F s hwf
  obtain ⟨t, rs, hexec, hresp⟩ := exec_answersWith i s
  exact ⟨t, rs, hexec, verdict_of_wellFormed hwf ▸ hresp⟩

/-- Settles O10: a step that does not answer `OK` has written nothing but the response, and both statuses are that of the
one word and the one build. -/
theorem rejectedCommandChangesNothing : Obligations.RejectedCommandChangesNothing := by
  constructor
  · intro F s t r rest p h hstep hp hne
    obtain ⟨st, rfl⟩ | ⟨rs, hok⟩ := step_refusedWith_or_ok h hstep
    · obtain rfl : _ = p := Option.some.inj hp
      rfl
    · obtain rfl : p = _ := Option.some.inj (hp.symm.trans hok)
      exact absurd rfl hne
  · intro F s s' t t' r r' rest rest' p p' h h' hcmd hbuild hstep hstep' hp hp'
    calc p.status = specStatus s.build r.cmd := step_status_eq_specStatus h hstep hp
      _ = specStatus s'.build r'.cmd := by rw [hbuild, hcmd]
      _ = p'.status := (step_status_eq_specStatus h' hstep' hp').symm

end Sys2Proof.Machine

/-! PROOFS. Encoding and decoding are inverse to each other (R81, R85). -/

namespace Sys2Proof

open Sys2Proof.Laws.EncodeFixedBits (bound_i bound_r bound_f)

/-- The command word of an operation has no must-be-zero bit of its format set. -/
theorem encode_lt_bound (i : Instr) : (encode i).toNat < i.format.bound := by
  cases i with
  | clarke | iclarke | park | ipark => decide
  | piRun x | piReset x | pidRun x | pidReset x => exact bound_i x _
  | lpf1Run x | lpf1Setic x | lpf2Run x | lpf2Setic x => exact bound_i x _
  | ccRunsc x | ccRuna x | ccReset x => exact bound_i x _
  | svmSetvref x | svmRun x | svmGeta x | svmGetb x | svmGetc x => exact bound_i x _
  | piRd x r | piWr x r | pidRd x r | pidWr x r => exact bound_r r x _
  | lpf1Rd x r | lpf1Wr x r | lpf2Rd x r | lpf2Wr x r => exact bound_r r x _
  | ccRd x r | ccWr x r => exact bound_r r x _
  | svmAllowovm x f => exact bound_f f x _

/-- The opcode of an operation's word picks the operation's arm of the decoder, which reads its fields back. -/
theorem decode_encode_eq_select (i : Instr) : decode (encode i) = i.format.select (encode i) i := by
  cases i with
  | svmAllowovm x f =>
    simp only [decode, encode, opcField_command, instField_command, flagField_command]
    rfl
  | _ => simp [decode, encode, Instr.format]

theorem decode_encode (i : Instr) : decode (encode i) = .ok i :=
  (decode_encode_eq_select i).trans (select_of_lt (encode_lt_bound i) i)

end Sys2Proof

namespace Sys2Proof.Machine

/-- Settles O1: the word of an operation picks the operation's arm and passes the test of its must-be-zero bits. -/
theorem decodeOfEncodeIsTheInstr : Obligations.DecodeOfEncodeIsTheInstr := decode_encode

/-- Settles O2, by cases over what decoding a word can answer. -/
theorem encodeOfDecodeIsTheWord : Obligations.EncodeOfDecodeIsTheWord := by
  intro w i h
  have hd := decode_case w
  rw [h] at hd
  cases hd with
  | ok _ _ _ he => exact he

/-- Settles O5: each word that the spec works out is the encoding of its operation, and the verdicts are those of the
default build. -/
theorem workedCommandWordsDecode : Obligations.WorkedCommandWordsDecode := by
  refine ⟨decode_encode (.piRun 0), decode_encode (.piWr 1 4), decode_encode (.pidRd 0 5), decode_encode (.lpf2Setic 0),
    decode_encode .park, decode_encode (.ccRd 0 0x25), decode_encode (.svmAllowovm 0 true), decode_encode (.svmGetc 3),
    ?_, ?_, decode_encode (.piWr 0 5), ?_, decode_encode (.piRd 0 2), ?_⟩
  · exact decode_of_specRow_none (by decide)
  · exact decode_of_mask_ne (row := (0x10, 0xFFFF00FF)) (by decide) (by decide)
  · decide
  · decide

end Sys2Proof.Machine

/-! PROOFS. The cases of a step (R80, R230, R239, R250), and what a step does not read (R21). -/

namespace Sys2Proof.Machine

section Step

variable {F : FloatFormat}

theorem step_of_idle {s : Block F} (h : s.inbox = []) : step ⟨F, s⟩ = .next ⟨F, s⟩ := by
  simp [step, h]

theorem step_of_reset {s : Block F} {rest : List (Input F)} (h : s.inbox = .reset :: rest) :
    step ⟨F, s⟩ = .next ⟨F, s.resetEvent rest⟩ := by
  simp [step, h]

/-- The same machine with another response at the port. -/
def Block.withResp (s : Block F) (p : Option (Response F)) : Block F := { s with resp := p }

/-- No operation reads the response at the port, and every answer replaces it. -/
theorem exec_withResp (i : Instr) (s : Block F) (p : Option (Response F)) :
    exec i ⟨F, s.withResp p⟩ = exec i ⟨F, s⟩ := by
  cases i <;> rfl

end Step

/-- Settles O6: the three cases of the step, read off its definition. -/
theorem stepTakesTheOldestInput : Obligations.StepTakesTheOldestInput :=
  fun _ _ _ => ⟨step_of_idle, step_of_reset, fun _ _ => step_of_decode_ok⟩

/-- Settles O7: each case of the step answers a next state, and each operation does. -/
theorem stepAlwaysAnswersANextState : Obligations.StepAlwaysAnswersANextState := by
  intro F s
  obtain ⟨t, ht, -⟩ := step_effect s
  exact ⟨⟨t, ht⟩, fun i => exec_answers i s⟩

/-- Settles O11: taking the command replaces the operand words, and neither a rejection nor an operation reads the
response. -/
theorem oldOperandsAndResultsAreNotRead : Obligations.OldOperandsAndResultsAreNotRead := by
  intro F s a p r rest h
  have h' : ({ s with args := a, resp := p } : Block F).inbox = .command r :: rest := h
  cases hd : decode r.cmd with
  | error st => rw [step_of_decode_error h' hd, step_of_decode_error h hd]; rfl
  | ok i =>
    rw [step_of_decode_ok h' hd, step_of_decode_ok h hd]
    exact exec_withResp i (s.take r rest) p

end Sys2Proof.Machine

/-! PROOFS. An operation leaves the instances it does not name as they were (R20). -/

namespace Sys2Proof.Machine

section Frame

variable {F : FloatFormat} {i : Instr} {s t : Block F} {x : Byte} {b : Bank} {k : Nat}

theorem CcBank.sameAt_refl (k : Nat) (b : CcBank F) : b.sameAt k b := by
  cases b <;> exact rfl

theorem sameInstance_refl (s : Block F) (k : Nat) (b : Bank) : sameInstance s s k b := by
  cases b with
  | cc => exact CcBank.sameAt_refl k s.banks.cc
  | pi | pid | lpf1 | lpf2 | svm => exact rfl

/-- One instance of a list takes new registers; another place holds what it held. -/
theorem getElem?_set_of_unnamed {α : Type} {l : List α} (hn : some (b, x.toNat) ≠ some (b, k)) (c : α) :
    (l.set x.toNat c)[k]? = l[k]? :=
  List.getElem?_set_ne fun h => hn (by rw [h])

theorem sameInstance_setPi (s : Block F) (c : PiRegs F) (hn : some (.pi, x.toNat) ≠ some (b, k)) :
    sameInstance s (s.setPi x c) k b := by
  cases b with
  | pi => exact getElem?_set_of_unnamed hn c
  | cc => exact CcBank.sameAt_refl k s.banks.cc
  | pid | lpf1 | lpf2 | svm => exact rfl

theorem sameInstance_setPid (s : Block F) (c : PidRegs F) (hn : some (.pid, x.toNat) ≠ some (b, k)) :
    sameInstance s (s.setPid x c) k b := by
  cases b with
  | pid => exact getElem?_set_of_unnamed hn c
  | cc => exact CcBank.sameAt_refl k s.banks.cc
  | pi | lpf1 | lpf2 | svm => exact rfl

theorem sameInstance_setLpf1 (s : Block F) (f : Lpf1Regs F) (hn : some (.lpf1, x.toNat) ≠ some (b, k)) :
    sameInstance s (s.setLpf1 x f) k b := by
  cases b with
  | lpf1 => exact getElem?_set_of_unnamed hn f
  | cc => exact CcBank.sameAt_refl k s.banks.cc
  | pi | pid | lpf2 | svm => exact rfl

theorem sameInstance_setLpf2 (s : Block F) (f : Lpf2Regs F) (hn : some (.lpf2, x.toNat) ≠ some (b, k)) :
    sameInstance s (s.setLpf2 x f) k b := by
  cases b with
  | lpf2 => exact getElem?_set_of_unnamed hn f
  | cc => exact CcBank.sameAt_refl k s.banks.cc
  | pi | pid | lpf1 | svm => exact rfl

theorem sameInstance_setSvm (s : Block F) (m : SvmRegs F) (hn : some (.svm, x.toNat) ≠ some (b, k)) :
    sameInstance s (s.setSvm x m) k b := by
  cases b with
  | svm => exact getElem?_set_of_unnamed hn m
  | cc => exact CcBank.sameAt_refl k s.banks.cc
  | pi | pid | lpf1 | lpf2 => exact rfl

theorem sameInstance_setCc_pi {s : Block F} {l : List (CcRegs F (PiRegs F))} (hb : s.banks.cc = .pi l)
    (cc : CcRegs F (PiRegs F)) (hn : some (.cc, x.toNat) ≠ some (b, k)) :
    sameInstance s (s.setCc (.pi (l.set x.toNat cc))) k b := by
  cases b with
  | cc =>
    rw [sameInstance, hb]
    exact getElem?_set_of_unnamed hn cc
  | pi | pid | lpf1 | lpf2 | svm => exact rfl

theorem sameInstance_setCc_pid {s : Block F} {l : List (CcRegs F (PidRegs F))} (hb : s.banks.cc = .pid l)
    (cc : CcRegs F (PidRegs F)) (hn : some (.cc, x.toNat) ≠ some (b, k)) :
    sameInstance s (s.setCc (.pid (l.set x.toNat cc))) k b := by
  cases b with
  | cc =>
    rw [sameInstance, hb]
    exact getElem?_set_of_unnamed hn cc
  | pi | pid | lpf1 | lpf2 | svm => exact rfl

/-- The draw counter and the response are no registers. -/
theorem sameInstance_of_banks_eq {t t' : Block F} (h : t'.banks = t.banks) (hs : sameInstance s t k b) :
    sameInstance s t' k b := by
  cases b <;> simpa only [sameInstance, h] using hs

/-- Both ticks of a current controller name the instance they run. -/
theorem names_of_ccTick {sc p q : Val F × Val F} (hi : (i = .ccRunsc x ∧ sc = p) ∨ (i = .ccRuna x ∧ sc = q)) :
    names i = some (.cc, x.toNat) := by
  obtain ⟨rfl, -⟩ | ⟨rfl, -⟩ := hi <;> rfl

/-- Whatever an operation does, it does to the instance it names. -/
theorem Effect.sameInstance (h : Effect i s t) (hn : names i ≠ some (b, k)) : sameInstance s t k b := by
  cases h with
  | rejected | read | transform => exact sameInstance_of_banks_eq rfl (sameInstance_refl s k b)
  | piRun | piReset | piWr => exact sameInstance_of_banks_eq rfl (sameInstance_setPi s _ hn)
  | pidRun | pidReset | pidWr => exact sameInstance_of_banks_eq rfl (sameInstance_setPid s _ hn)
  | lpf1Run | lpf1Setic | lpf1Wr => exact sameInstance_of_banks_eq rfl (sameInstance_setLpf1 s _ hn)
  | lpf2Run | lpf2Setic | lpf2Wr => exact sameInstance_of_banks_eq rfl (sameInstance_setLpf2 s _ hn)
  | ccTickPi _ _ _ _ _ _ hi hb =>
    rw [names_of_ccTick hi] at hn
    exact sameInstance_of_banks_eq rfl (sameInstance_setCc_pi hb _ hn)
  | ccTickPid _ _ _ _ _ _ hi hb =>
    rw [names_of_ccTick hi] at hn
    exact sameInstance_of_banks_eq rfl (sameInstance_setCc_pid hb _ hn)
  | ccWrPi _ _ _ _ _ _ _ hb | ccResetPi _ _ _ _ hb =>
    exact sameInstance_of_banks_eq rfl (sameInstance_setCc_pi hb _ hn)
  | ccWrPid _ _ _ _ _ _ _ hb | ccResetPid _ _ _ _ hb =>
    exact sameInstance_of_banks_eq rfl (sameInstance_setCc_pid hb _ hn)
  | svmSetvref | svmAllowovm | svmRun => exact sameInstance_of_banks_eq rfl (sameInstance_setSvm s _ hn)

end Frame

/-- Settles O12, by cases over what an operation can do. -/
theorem operationTouchesOnlyItsInstance : Obligations.OperationTouchesOnlyItsInstance :=
  fun _ _ _ _ _ _ h hn => (exec_effect h).sameInstance hn

end Sys2Proof.Machine

/-! PROOFS. Registers that only some operations of their own instance change: filter coefficients (R32), integrators and the
memory of embedded filters (R26, R29), the overmodulation flag (R44). -/

namespace Sys2Proof.Machine

section HeldUnless

variable {α β : Type} {view : α → β} {allowed : Nat → β → Prop} {l : List α} {j : Nat} {c c' : α}

/-- From the list `l` to `l'` an instance `k` keeps what `view` shows of it, unless a change to what it shows then is
allowed. -/
def HeldUnless (view : α → β) (allowed : Nat → β → Prop) (l l' : List α) : Prop :=
  ∀ k c c', l[k]? = some c → l'[k]? = some c' → view c' ≠ view c → allowed k (view c')

theorem HeldUnless.refl : HeldUnless view allowed l l := by
  intro k c c' hk hk' hne
  obtain rfl := Option.some.inj (hk.symm.trans hk')
  exact absurd rfl hne

/-- Where one instance takes new registers, only its own change is in question. -/
theorem HeldUnless.set (h : ∀ c, l[j]? = some c → view c' ≠ view c → allowed j (view c')) :
    HeldUnless view allowed l (l.set j c') := by
  intro k x x' hk hk'
  by_cases hjk : j = k
  · subst hjk
    rw [List.getElem?_set_self (List.getElem?_eq_some_iff.mp hk).1] at hk'
    obtain rfl := Option.some.inj hk'
    exact h x hk
  · rw [List.getElem?_set_ne hjk] at hk'
    exact HeldUnless.refl k x x' hk hk'

theorem HeldUnless.set_kept (hj : l[j]? = some c) (hv : view c' = view c) : HeldUnless view allowed l (l.set j c') :=
  .set fun _ hx hne => absurd (hv.trans (congrArg view (Option.some.inj (hj.symm.trans hx)))) hne

theorem HeldUnless.set_allowed (ha : allowed j (view c')) : HeldUnless view allowed l (l.set j c') :=
  .set fun _ _ _ => ha

end HeldUnless

section WriteKeeps

variable {F : FloatFormat} {v : Val F}

/-! R24, R28: the integrator, the remembered inputs and the filter memory are read-only. -/

theorem PiRegs.integ_of_write {c c' : PiRegs F} {reg : PiReg} (h : c.write reg v = some c') : c'.integ = c.integ := by
  cases reg <;> cases h <;> rfl

theorem PiRegs.ffLast_of_write {c c' : PiRegs F} {reg : PiReg} (h : c.write reg v = some c') : c'.ffLast = c.ffLast := by
  cases reg <;> cases h <;> rfl

theorem PidRegs.ffLast_of_write {c c' : PidRegs F} {reg : PidReg} (h : c.write reg v = some c') :
    c'.ffLast = c.ffLast := by
  cases reg <;> cases h <;> rfl

/-- The integrator and the filter memory of a PID controller (R28, R29). -/
def PidRegs.memory (c : PidRegs F) : Val F × Val F × Val F := (c.integ, c.dX1, c.dY1)

theorem PidRegs.memory_of_write {c c' : PidRegs F} {reg : PidReg} (h : c.write reg v = some c') :
    c'.memory = c.memory := by
  cases reg <;> cases h <;> rfl

/-- What `view` shows of both embedded controllers. -/
def CcRegs.both {κ β : Type} (view : κ → β) (cc : CcRegs F κ) : β × β := (view cc.d, view cc.q)

/-- What a `WR` keeps of each embedded controller, a `CC.WR` keeps of both. -/
theorem CcRegs.both_of_write {κ ρ β : Type} {write : κ → ρ → Val F → Option κ} {view : κ → β}
    (hview : ∀ {c reg c'}, write c reg v = some c' → view c' = view c) {cc cc' : CcRegs F κ} {reg : CcReg ρ}
    (h : cc.write write reg v = some cc') : cc'.both view = cc.both view := by
  cases reg with
  | d =>
    obtain ⟨c, hc, rfl⟩ := Option.map_eq_some_iff.mp h
    exact congrArg (·, view cc.q) (hview hc)
  | q =>
    obtain ⟨c, hc, rfl⟩ := Option.map_eq_some_iff.mp h
    exact congrArg (view cc.d, ·) (hview hc)
  | idRef | iqRef => cases h; rfl
  | vAlpha | vBeta => cases h

end WriteKeeps

section Filters

variable {F : FloatFormat} {i : Instr} {s t : Block F}

/-- The coefficients of a first-order filter (R30). -/
def Lpf1Regs.coefs (f : Lpf1Regs F) : Val F × Val F × Val F := (f.b0, f.b1, f.a1)

/-- The coefficients of a second-order filter (R31). -/
def Lpf2Regs.coefs (f : Lpf2Regs F) : Val F × Val F × Val F × Val F × Val F := (f.b0, f.b1, f.b2, f.a1, f.a2)

theorem Effect.lpf1_coefs (h : Effect i s t) :
    HeldUnless Lpf1Regs.coefs (fun k _ => ∃ x r : Byte, i = .lpf1Wr x r ∧ x.toNat = k) s.banks.lpf1 t.banks.lpf1 := by
  cases h with
  | lpf1Run _ _ _ hf | lpf1Setic _ _ _ hf => exact .set_kept hf rfl
  | lpf1Wr _ x r => exact .set_allowed ⟨x, r, rfl, rfl⟩
  | _ => exact .refl

theorem Effect.lpf2_coefs (h : Effect i s t) :
    HeldUnless Lpf2Regs.coefs (fun k _ => ∃ x r : Byte, i = .lpf2Wr x r ∧ x.toNat = k) s.banks.lpf2 t.banks.lpf2 := by
  cases h with
  | lpf2Run _ _ _ hf | lpf2Setic _ _ _ hf => exact .set_kept hf rfl
  | lpf2Wr _ x r => exact .set_allowed ⟨x, r, rfl, rfl⟩
  | _ => exact .refl

end Filters

section Memory

variable {F : FloatFormat} {i : Instr} {s t : Block F}

/-- The operation is a tick or the `RESET` of current controller `k`. -/
def IsCcRunOrReset (i : Instr) (k : Nat) : Prop :=
  ∃ x : Byte, (i = .ccRunsc x ∨ i = .ccRuna x ∨ i = .ccReset x) ∧ x.toNat = k

/-- Between two banks, which are of one kind, the memory of the embedded controllers of an instance is held, unless `i` is
its tick or its `RESET`. -/
inductive CcBank.MemoryHeld (i : Instr) : CcBank F → CcBank F → Prop
  | pi {l l' : List (CcRegs F (PiRegs F))}
      (h : HeldUnless (CcRegs.both PiRegs.integ) (fun k _ => IsCcRunOrReset i k) l l') : MemoryHeld i (.pi l) (.pi l')
  | pid {l l' : List (CcRegs F (PidRegs F))}
      (h : HeldUnless (CcRegs.both PidRegs.memory) (fun k _ => IsCcRunOrReset i k) l l') : MemoryHeld i (.pid l) (.pid l')

theorem CcBank.memoryHeld_refl (b : CcBank F) : b.MemoryHeld i b := by
  cases b with
  | pi => exact .pi .refl
  | pid => exact .pid .refl

/-- A tick is `CC.RUNSC` or `CC.RUNA` of its instance. -/
theorem isCcRunOrReset_of_ccTick {x : Byte} {sc p q : Val F × Val F}
    (hi : (i = .ccRunsc x ∧ sc = p) ∨ (i = .ccRuna x ∧ sc = q)) : IsCcRunOrReset i x.toNat := by
  obtain ⟨rfl, -⟩ | ⟨rfl, -⟩ := hi
  · exact ⟨x, .inl rfl, rfl⟩
  · exact ⟨x, .inr (.inl rfl), rfl⟩

theorem Effect.pi_integ (h : Effect i s t) :
    HeldUnless PiRegs.integ (fun k _ => ∃ x : Byte, (i = .piRun x ∨ i = .piReset x) ∧ x.toNat = k)
      s.banks.pi t.banks.pi := by
  cases h with
  | piRun _ x => exact .set_allowed ⟨x, .inl rfl, rfl⟩
  | piReset _ x => exact .set_allowed ⟨x, .inr rfl, rfl⟩
  | piWr _ _ _ _ _ _ hc _ hw => exact .set_kept hc (PiRegs.integ_of_write hw)
  | _ => exact .refl

theorem Effect.pid_memory (h : Effect i s t) :
    HeldUnless PidRegs.memory (fun k _ => ∃ x : Byte, (i = .pidRun x ∨ i = .pidReset x) ∧ x.toNat = k)
      s.banks.pid t.banks.pid := by
  cases h with
  | pidRun _ x => exact .set_allowed ⟨x, .inl rfl, rfl⟩
  | pidReset _ x => exact .set_allowed ⟨x, .inr rfl, rfl⟩
  | pidWr _ _ _ _ _ _ hc _ hw => exact .set_kept hc (PidRegs.memory_of_write hw)
  | _ => exact .refl

theorem Effect.cc_memory (h : Effect i s t) : s.banks.cc.MemoryHeld i t.banks.cc := by
  cases h with
  | ccTickPi _ _ _ _ _ _ hi hb =>
    rw [hb]
    exact .pi (.set_allowed (isCcRunOrReset_of_ccTick hi))
  | ccTickPid _ _ _ _ _ _ hi hb =>
    rw [hb]
    exact .pid (.set_allowed (isCcRunOrReset_of_ccTick hi))
  | ccResetPi _ x _ _ hb =>
    rw [hb]
    exact .pi (.set_allowed ⟨x, .inr (.inr rfl), rfl⟩)
  | ccResetPid _ x _ _ hb =>
    rw [hb]
    exact .pid (.set_allowed ⟨x, .inr (.inr rfl), rfl⟩)
  | ccWrPi _ _ _ _ _ _ _ hb hc _ hw =>
    rw [hb]
    exact .pi (.set_kept hc (CcRegs.both_of_write PiRegs.integ_of_write hw))
  | ccWrPid _ _ _ _ _ _ _ hb hc _ hw =>
    rw [hb]
    exact .pid (.set_kept hc (CcRegs.both_of_write PidRegs.memory_of_write hw))
  | _ => exact CcBank.memoryHeld_refl _

end Memory

/-- R44: `SVM.ALLOWOVM` is the one operation that writes the flag. -/
theorem Effect.svm_ovm {F : FloatFormat} {i : Instr} {s t : Block F} (h : Effect i s t) :
    HeldUnless SvmRegs.ovm (fun k ovm => ∃ x : Byte, i = .svmAllowovm x ovm ∧ x.toNat = k) s.banks.svm t.banks.svm := by
  cases h with
  | svmSetvref _ _ _ hm | svmRun _ _ _ hm => exact .set_kept hm rfl
  | svmAllowovm _ x => exact .set_allowed ⟨x, rfl, rfl⟩
  | _ => exact .refl

/-- Settles O35: of the operations that write a filter only `WR` writes a coefficient. -/
theorem filterCoefficientsChangeOnlyByWr : Obligations.FilterCoefficientsChangeOnlyByWr :=
  fun _ _ _ _ k h => ⟨(exec_effect h).lpf1_coefs k, (exec_effect h).lpf2_coefs k⟩

/-- Settles O36: a `WR` of a controller does not reach its memory, alone or embedded. -/
theorem integratorsChangeOnlyByRunAndReset : Obligations.IntegratorsChangeOnlyByRunAndReset := by
  intro i F s t k h
  have hcc := (exec_effect h).cc_memory
  refine ⟨(exec_effect h).pi_integ k, (exec_effect h).pid_memory k, fun l l' cc cc' hs ht hk hk' hne => ?pi,
    fun l l' cc cc' hs ht hk hk' hne => ?pid⟩
  case pi =>
    rw [hs, ht] at hcc
    cases hcc with
    | pi hheld => exact hheld k cc cc' hk hk' hne
  case pid =>
    rw [hs, ht] at hcc
    cases hcc with
    | pid hheld =>
      refine hheld k cc cc' hk hk' fun heq => hne ?_
      simpa only [CcRegs.both, PidRegs.memory, Prod.mk.injEq, and_assoc] using heq

/-- Settles O54, by cases over what an operation can do to the SVM bank. -/
theorem ovmWrittenOnlyByAllowovm : Obligations.OvmWrittenOnlyByAllowovm :=
  fun _ _ _ _ k m m' h => (exec_effect h).svm_ovm k m m'

end Sys2Proof.Machine

/-! PROOFS. Reset (R250 to R253), and the invariant of the machine (R8, R41, R80, R191, R232). -/

namespace Sys2Proof.Machine

section Reset

variable {F : FloatFormat}

theorem CcBank.atReset_reset (n : Nat) (kind : CtrlKind) (k : Nat) : (CcBank.reset n kind k : CcBank F).atReset := by
  cases kind with
  | pi =>
    refine List.forall_mem_map.mpr fun _ _ => ?_
    exact ⟨⟨rfl, rfl, rfl, rfl, rfl, rfl⟩, ⟨rfl, rfl, rfl, rfl, rfl, rfl⟩, rfl, rfl, rfl, rfl⟩
  | pid =>
    refine List.forall_mem_map.mpr fun _ _ => ?_
    exact ⟨⟨rfl, rfl, rfl, rfl, rfl, rfl, rfl, rfl, rfl⟩, ⟨rfl, rfl, rfl, rfl, rfl, rfl, rfl, rfl, rfl⟩,
      rfl, rfl, rfl, rfl⟩

/-- R251, whatever the draw and the build. -/
theorem Banks.atReset_reset (F : FloatFormat) (n : Nat) (b : Build) : (Banks.reset F n b).atReset := by
  refine ⟨List.forall_mem_map.mpr fun _ _ => ?pi, List.forall_mem_map.mpr fun _ _ => ?pid,
    List.forall_mem_map.mpr fun _ _ => ?lpf1, List.forall_mem_map.mpr fun _ _ => ?lpf2,
    CcBank.atReset_reset n b.ccKind b.nCc, List.forall_mem_map.mpr fun _ _ => ?svm⟩
  case pi => exact ⟨rfl, rfl, rfl, rfl, rfl, rfl⟩
  case pid => exact ⟨rfl, rfl, rfl, rfl, rfl, rfl, rfl, rfl, rfl⟩
  case lpf1 => exact ⟨rfl, rfl⟩
  case lpf2 => exact ⟨rfl, rfl, rfl, rfl⟩
  case svm => exact ⟨rfl, rfl, rfl, rfl, rfl, rfl⟩

/-- Power-on reset fills the banks of the build it is given. -/
theorem State.build_resetOf (b : Build) : (State.resetOf b).build = b := by
  simp [State.build, State.resetOf, Block.build, Banks.reset, Function.comp_def]

theorem Block.setPi_pi_self {s : Block F} {i : Byte} {c : PiRegs F} (hc : s.banks.pi[i.toNat]? = some c)
    (c' : PiRegs F) : (s.setPi i c').banks.pi[i.toNat]? = some c' :=
  List.getElem?_set_self (List.getElem?_eq_some_iff.mp hc).1

theorem Block.setPid_pid_self {s : Block F} {i : Byte} {c : PidRegs F} (hc : s.banks.pid[i.toNat]? = some c)
    (c' : PidRegs F) : (s.setPid i c').banks.pid[i.toNat]? = some c' :=
  List.getElem?_set_self (List.getElem?_eq_some_iff.mp hc).1

end Reset

/-- Settles O14: both resets fill the banks of one build with reset values, the event those of the machine's own. -/
theorem resetPutsEveryRegisterAtItsResetValue : Obligations.ResetPutsEveryRegisterAtItsResetValue := by
  refine ⟨fun b => ⟨Banks.atReset_reset b.fmt 0 b, State.build_resetOf b⟩, fun F s rest h => ?_⟩
  exact ⟨s.resetEvent rest, step_of_reset h, Banks.atReset_reset F s.draws s.build, Block.build_resetEvent s rest,
    State.resetEvent_inbox s rest⟩

/-- Settles O15: what `RESET` leaves of a controller, and what a fresh one takes from it, are the gains, limits and
coefficients; the rest is `+0.0` in both. -/
theorem controllerResetEqualsFresh : Obligations.ControllerResetEqualsFresh := by
  refine ⟨fun F s t i c n k hc h => ?pi, fun F s t i c n k hc h => ?pid, fun F s t j l cc hb hc h => ?ccPi,
    fun F s t j l cc hb hc h => ?ccPid⟩
  case pi =>
    obtain rfl := next_inj ((exec_piReset_some hc).symm.trans h)
    exact Block.setPi_pi_self hc _
  case pid =>
    obtain rfl := next_inj ((exec_pidReset_some hc).symm.trans h)
    exact Block.setPid_pid_self hc _
  case ccPi =>
    obtain rfl := next_inj (((exec_ccReset_pi hb).trans (ccClear_some .pi hc)).symm.trans h)
    exact ⟨_, _, rfl, List.getElem?_set_self (List.getElem?_eq_some_iff.mp hc).1, rfl, rfl⟩
  case ccPid =>
    obtain rfl := next_inj (((exec_ccReset_pid hb).trans (ccClear_some .pid hc)).symm.trans h)
    exact ⟨_, _, rfl, List.getElem?_set_self (List.getElem?_eq_some_iff.mp hc).1, rfl, rfl⟩

section Duties

variable {F : FloatFormat}

theorem limitsOk_zeroF_halfF : limitsOk (zeroF : Val F) halfF = true := by
  obtain ⟨hval, hfin⟩ := intOf_halfF (F := F)
  obtain ⟨hnan, -, -, hzero⟩ := isZero_cases (isZero_zeroF (F := F))
  refine limitsOk_iff.mpr ⟨hnan, (isFinite_cases hfin).1, ?_⟩
  rw [hzero, hval]
  positivity

theorem limitsOk_halfF_cOne : limitsOk (halfF : Val F) cOne = true := by
  obtain ⟨hhalf, hfin⟩ := intOf_halfF (F := F)
  obtain ⟨hone, hfin'⟩ := intOf_cOne (F := F)
  refine limitsOk_iff.mpr ⟨(isFinite_cases hfin).1, (isFinite_cases hfin').1, ?_⟩
  rw [hhalf, hone]
  exact pow_le_pow_right₀ (by norm_num) (Nat.sub_le _ _)

theorem limitsOk_trans {a b c : Val F} (hab : limitsOk a b = true) (hbc : limitsOk b c = true) : limitsOk a c = true := by
  obtain ⟨ha, -, hle⟩ := limitsOk_iff.mp hab
  obtain ⟨-, hc, hle'⟩ := limitsOk_iff.mp hbc
  exact limitsOk_iff.mpr ⟨ha, hc, hle.trans hle'⟩

/-- A value within the limits passes the clamp as it is. -/
theorem clamp_of_within {v lo hi : Val F} (h : within v lo hi = true) : clamp v lo hi = v := by
  obtain ⟨hlo, hhi⟩ := within_iff.mp h
  obtain ⟨hnlo, hnv, hle⟩ := limitsOk_iff.mp hlo
  obtain ⟨-, hnhi, hle'⟩ := limitsOk_iff.mp hhi
  refine clamp_of_between ?_ ?_
  · simpa [flt_eq_decide hnv hnlo] using hle
  · simpa [fgt_eq_decide hnv hnhi] using hle'

theorem clampDuty_halfF : clampDuty (halfF : Val F) = halfF :=
  clamp_of_within (within_iff.mpr ⟨limitsOk_zeroF_halfF, limitsOk_halfF_cOne⟩)

/-- R41: a clamped duty is in `[0, 1]` or a NaN. -/
theorem dutyOk_clampDuty (d : Val F) : dutyOk (clampDuty d) = true := by
  cases hd : isNaN d with
  | true => rw [clampDuty, clamp_nan hd, dutyOk, hd, Bool.true_or]
  | false =>
    rw [dutyOk, clampDuty, within_clamp (limitsOk_trans limitsOk_zeroF_halfF limitsOk_halfF_cOne) hd, Bool.or_true]

theorem SvmRegs.dutiesOk_svmRun (backend : SqrtBackend) (m : SvmRegs F) : (svmRun backend m).dutiesOk = true := by
  simp [svmRun, SvmRegs.dutiesOk, dutyOk_clampDuty]

theorem SvmRegs.dutiesOk_reset (v : SvmVariant) : (SvmRegs.reset v : SvmRegs F).dutiesOk = true := by
  have hhalf : dutyOk (halfF : Val F) = true := by
    rw [← clampDuty_halfF]
    exact dutyOk_clampDuty _
  simp [SvmRegs.reset, SvmRegs.dutiesOk, hhalf]

end Duties

section Invariant

variable {F : FloatFormat} {i : Instr} {s t : Block F}

/-- The four parts of the invariant. -/
theorem Block.inv_iff : s.inv = true ↔
    (∀ m ∈ s.banks.svm, m.dutiesOk = true) ∧ s.banks.cc.ffZero = true ∧ s.resp.all Response.ok = true ∧
      countsOk s.build = true := by
  simp [Block.inv, and_assoc]

theorem CcBank.ffZero_pi_iff {l : List (CcRegs F (PiRegs F))} :
    (CcBank.pi l).ffZero = true ↔ ∀ cc ∈ l, cc.both PiRegs.ffLast = (zeroF, zeroF) := by
  simp [CcBank.ffZero, CcRegs.both]

theorem CcBank.ffZero_pid_iff {l : List (CcRegs F (PidRegs F))} :
    (CcBank.pid l).ffZero = true ↔ ∀ cc ∈ l, cc.both PidRegs.ffLast = (zeroF, zeroF) := by
  simp [CcBank.ffZero, CcRegs.both]

theorem CcBank.ffZero_reset (n : Nat) (kind : CtrlKind) (k : Nat) : (CcBank.reset n kind k : CcBank F).ffZero = true := by
  cases kind with
  | pi => exact ffZero_pi_iff.mpr (List.forall_mem_map.mpr fun _ _ => rfl)
  | pid => exact ffZero_pid_iff.mpr (List.forall_mem_map.mpr fun _ _ => rfl)

/-- What holds of every instance of a bank holds on, when the one that takes new registers has it. -/
theorem forall_mem_set {α : Type} {P : α → Prop} {l : List α} {c : α} (hl : ∀ x ∈ l, P x) (hc : P c) (j : Nat) :
    ∀ x ∈ l.set j c, P x := by
  intro x hx
  obtain hx | rfl := List.mem_or_eq_of_mem_set hx
  · exact hl x hx
  · exact hc

/-- R41: `SVM.RUN` is the one operation that writes duties, and it clamps them. -/
theorem Effect.svm_dutiesOk (h : Effect i s t) (hs : ∀ m ∈ s.banks.svm, m.dutiesOk = true) :
    ∀ m ∈ t.banks.svm, m.dutiesOk = true := by
  cases h with
  | svmSetvref _ _ m hm | svmAllowovm _ _ _ m hm =>
    refine forall_mem_set hs ?_ _
    exact hs m (List.mem_of_getElem? hm)
  | svmRun _ _ m => exact forall_mem_set hs (m.dutiesOk_svmRun s.params.sqrt) _
  | _ => exact hs

/-- R191: a tick runs both axes with feedforward `+0.0`, a reset clears `ffLast`, and no write reaches it. -/
theorem Effect.cc_ffZero (h : Effect i s t) (hs : s.banks.cc.ffZero = true) : t.banks.cc.ffZero = true := by
  cases h with
  | ccTickPi _ _ _ _ _ _ _ hb | ccResetPi _ _ _ _ hb =>
    rw [hb] at hs
    exact CcBank.ffZero_pi_iff.mpr (forall_mem_set (CcBank.ffZero_pi_iff.mp hs) rfl _)
  | ccTickPid _ _ _ _ _ _ _ hb | ccResetPid _ _ _ _ hb =>
    rw [hb] at hs
    exact CcBank.ffZero_pid_iff.mpr (forall_mem_set (CcBank.ffZero_pid_iff.mp hs) rfl _)
  | ccWrPi _ _ _ _ _ cc cc' hb hc _ hw =>
    rw [hb, CcBank.ffZero_pi_iff] at hs
    have hkept : cc'.both PiRegs.ffLast = cc.both PiRegs.ffLast :=
      CcRegs.both_of_write PiRegs.ffLast_of_write hw
    exact CcBank.ffZero_pi_iff.mpr (forall_mem_set hs (hkept.trans (hs cc (List.mem_of_getElem? hc))) _)
  | ccWrPid _ _ _ _ _ cc cc' hb hc _ hw =>
    rw [hb, CcBank.ffZero_pid_iff] at hs
    have hkept : cc'.both PidRegs.ffLast = cc.both PidRegs.ffLast :=
      CcRegs.both_of_write PidRegs.ffLast_of_write hw
    exact CcBank.ffZero_pid_iff.mpr (forall_mem_set hs (hkept.trans (hs cc (List.mem_of_getElem? hc))) _)
  | _ => exact hs

/-- R80, R232: every operation answers, a rejection without a result word, the others with at most three. -/
theorem Effect.resp_ok (h : Effect i s t) : t.resp.all Response.ok = true := by
  cases h with
  | transform _ _ _ _ hl => simpa [Response.ok] using hl
  | rejected => simp [Response.ok]
  | _ => rfl

theorem Effect.inv (h : Effect i s t) (hs : s.inv = true) : t.inv = true := by
  obtain ⟨hduty, hff, -, hcount⟩ := Block.inv_iff.mp hs
  exact Block.inv_iff.mpr ⟨h.svm_dutiesOk hduty, h.cc_ffZero hff, h.resp_ok, h.build_eq ▸ hcount⟩

theorem Banks.dutiesOk_reset (F : FloatFormat) (n : Nat) (b : Build) :
    ∀ m ∈ (Banks.reset F n b).svm, m.dutiesOk = true :=
  List.forall_mem_map.mpr fun v _ => SvmRegs.dutiesOk_reset v

theorem StepEffect.inv (h : StepEffect s t) (hs : s.inv = true) : t.inv = true := by
  obtain ⟨hduty, hff, hresp, hcount⟩ := Block.inv_iff.mp hs
  cases h with
  | idle => exact hs
  | reset rest =>
    exact Block.inv_iff.mpr ⟨Banks.dutiesOk_reset F s.draws s.build, CcBank.ffZero_reset s.draws _ _, rfl,
      (Block.build_resetEvent s rest).symm ▸ hcount⟩
  | undecoded => exact Block.inv_iff.mpr ⟨hduty, hff, by simp [Response.ok], hcount⟩
  | performed r rest _ _ _ _ he =>
    have htake : (s.take r rest).inv = true := Block.inv_iff.mpr ⟨hduty, hff, hresp, hcount⟩
    exact (exec_effect he).inv htake

/-- The reset state of a build with instance counts in range meets the invariant. -/
theorem State.inv_resetOf {b : Build} (h : countsOk b = true) : (State.resetOf b).inv = true := by
  refine Block.inv_iff.mpr ⟨Banks.dutiesOk_reset b.fmt 0 b, CcBank.ffZero_reset 0 _ _, rfl, ?_⟩
  exact (congrArg countsOk (State.build_resetOf b)).trans h

end Invariant

/-- Settles O17, by cases over what a step can do, each part of the invariant by cases over what an operation can do. -/
theorem everyStepKeepsTheInvariant : Obligations.EveryStepKeepsTheInvariant := by
  rintro ⟨F, s⟩ t hs h
  obtain ⟨t', ht, he⟩ := step_effect s
  obtain rfl : (⟨F, t'⟩ : State) = t := Host.Outcome.next.inj (ht.symm.trans h)
  exact he.inv hs

/-- Settles O16: the default build has its instance counts in range. -/
theorem invariantHoldsAtReset : Obligations.InvariantHoldsAtReset :=
  ⟨State.inv_resetOf (b := Build.default) (by decide), fun _ => State.inv_resetOf⟩

end Sys2Proof.Machine

/-! PROOFS. The named properties of the two controllers (R111 (c), R116 to R118, R138, R139). -/

namespace Sys2Proof.Machine

section Zeros

variable {F : FloatFormat}

/-- The product of a zero and a finite value is a zero. -/
theorem isZero_fmul (ν : Val F) {a b : Val F} (hz : isZero a = true ∨ isZero b = true) (ha : isFinite a = true)
    (hb : isFinite b = true) : isZero (fmul ν a b) = true := by
  have hprod : unitsOf F (magBits a) * unitsOf F (magBits b) = 0 := by
    obtain h | h := hz
    all_goals
      rw [isZero, beq_iff_eq] at h
      simp [h]
  have hround : roundMag F 0 (2 ^ unitExp F) = 0 :=
    roundMag_exact (Nat.two_pow_pos _) (Nat.zero_le _) (by rw [unitsOf_zero, Nat.zero_mul])
  rw [fmul_finite ν ha hb, hprod, hround, isZero, magBits_pack _ (Nat.two_pow_pos _), beq_self_eq_true]

/-- Finite values that cancel have a zero sum. -/
theorem isZero_fadd_of_cancel (ν : Val F) {a b : Val F} (ha : isFinite a = true) (hb : isFinite b = true)
    (h : intOf a + intOf b = 0) : isZero (fadd ν a b) = true := by
  rw [fadd_cancel ν ha hb h, isZero, magBits_pack _ (Nat.two_pow_pos _), beq_self_eq_true]

theorem isZero_fadd (ν : Val F) {a b : Val F} (ha : isZero a = true) (hb : isZero b = true) :
    isZero (fadd ν a b) = true := by
  obtain ⟨-, -, hfa, hia⟩ := isZero_cases ha
  obtain ⟨-, -, hfb, hib⟩ := isZero_cases hb
  exact isZero_fadd_of_cancel ν hfa hfb (by rw [hia, hib, add_zero])

@[simp] theorem isFinite_fneg (a : Val F) : isFinite (fneg a) = isFinite a := by simp [isFinite]

/-- A finite value less itself is a zero. -/
theorem isZero_fsub_self (ν : Val F) {a : Val F} (ha : isFinite a = true) : isZero (fsub ν a a) = true :=
  isZero_fadd_of_cancel ν ha (by rwa [isFinite_fneg]) (by rw [intOf_fneg, add_neg_cancel])

theorem feq_self {a : Val F} (h : isNaN a = false) : feq a a = true := by
  simp [feq_eq_decide h h]

/-- Adding a zero to a value that is no NaN gives the value, up to the sign of a zero. -/
theorem feq_fadd_zero_left (ν : Val F) {z b : Val F} (hz : isZero z = true) (hb : isNaN b = false) :
    feq (fadd ν z b) b = true := by
  obtain ⟨hnz, hiz, -, -⟩ := isZero_cases hz
  obtain hnan | hinf | hfin := word_cases b
  · simp [hb] at hnan
  · have hsum : fadd ν z b = b := by simp [fadd, hnz, hb, hiz, hinf]
    rw [hsum, feq_self hb]
  · cases hzb : isZero b with
    | true => exact feq_of_isZero (isZero_fadd ν hz hzb) hzb
    | false => rw [fadd_zero_left ν hz hfin hzb, feq_self hb]

/-- Equal values are clamped to equal values. -/
theorem feq_clamp {u v lo hi : Val F} (h : feq u v = true) (hlim : limitsOk lo hi = true) :
    feq (clamp u lo hi) (clamp v lo hi) = true := by
  obtain ⟨hlo, hhi, -⟩ := limitsOk_iff.mp hlim
  have hu : isNaN u = false := Bool.eq_false_iff.mpr fun hu => by simp [feq_nan (.inl hu)] at h
  have hv : isNaN v = false := Bool.eq_false_iff.mpr fun hv => by simp [feq_nan (.inr hv)] at h
  rw [feq_eq_decide hu hv, decide_eq_true_eq] at h
  simp only [clamp, flt_eq_decide hu hlo, flt_eq_decide hv hlo, fgt_eq_decide hu hhi, fgt_eq_decide hv hhi, h]
  split
  · exact feq_self hlo
  · split
    · exact feq_self hhi
    · simp [feq_eq_decide hu hv, h]

end Zeros

section IntegralStage

variable {F : FloatFormat} {kI integ lo hi e : Val F}

theorem integralStage_of_zero (ν : Nat → Val F) (integ lo hi e : Val F) (h : feq kI zeroF = true) :
    integralStage ν kI integ lo hi e = (integ, zeroF) := by
  simp [integralStage, h]

theorem integralStage_of_nonzero (ν : Nat → Val F) (integ lo hi e : Val F) (h : feq kI zeroF = false) :
    integralStage ν kI integ lo hi e =
      (clamp (fadd (ν 1) integ (fmul (ν 0) kI e)) lo hi, clamp (fadd (ν 1) integ (fmul (ν 0) kI e)) lo hi) := by
  simp [integralStage, h]

/-- R116: with integral action on, an integrator that is no NaN ends within valid limits. -/
theorem within_integralStage (ν : Nat → Val F) (hkI : feq kI zeroF = false) (hlim : limitsOk lo hi = true)
    (hnan : isNaN (integralStage ν kI integ lo hi e).1 = false) :
    within (integralStage ν kI integ lo hi e).1 lo hi = true := by
  rw [integralStage_of_nonzero ν integ lo hi e hkI] at hnan ⊢
  refine within_clamp hlim (Bool.eq_false_iff.mpr fun hv => ?_)
  rw [clamp_nan hv] at hnan
  exact Bool.eq_false_iff.mp hnan hv

/-- The integral term of a zero error is a zero, when the integrator is one that the limits let stand. -/
theorem isZero_integralStage (ν : Nat → Val F) (hfin : isFinite kI = true) (he : isZero e = true)
    (hkI : feq kI zeroF = true ∨ (isZero integ = true ∧ within zeroF lo hi = true)) :
    isZero (integralStage ν kI integ lo hi e).2 = true := by
  cases hz : feq kI zeroF with
  | true =>
    rw [integralStage_of_zero ν integ lo hi e hz]
    exact isZero_zeroF
  | false =>
    obtain h | ⟨hinteg, hwithin⟩ := hkI
    · simp [hz] at h
    · obtain ⟨-, -, hfe, -⟩ := isZero_cases he
      have hsum : isZero (fadd (ν 1) integ (fmul (ν 0) kI e)) = true :=
        isZero_fadd (ν 1) hinteg (isZero_fmul (ν 0) (.inr he) hfin hfe)
      have hsum' : within (fadd (ν 1) integ (fmul (ν 0) kI e)) lo hi = true := by
        obtain ⟨hnsum, -, -, hisum⟩ := isZero_cases hsum
        simpa [within, limitsOk, hnsum, hisum, isZero_cases isZero_zeroF] using hwithin
      rw [integralStage_of_nonzero ν integ lo hi e hz, clamp_of_within hsum']
      exact hsum

/-- With integral action on, a NaN error and a NaN integrator each leave the integrator a NaN. -/
theorem isNaN_integralStage (ν : Nat → Val F) (hkI : feq kI zeroF = false)
    (h : isNaN e = true ∨ isNaN integ = true) : isNaN (integralStage ν kI integ lo hi e).1 = true := by
  have hsum : isNaN (fadd (ν 1) integ (fmul (ν 0) kI e)) = true :=
    fadd_nan _ _ _ (h.symm.imp_right fun he => fmul_nan _ _ _ (.inr he))
  rw [integralStage_of_nonzero ν integ lo hi e hkI, clamp_nan hsum]
  exact hsum

end IntegralStage

section Runs

variable {F : FloatFormat}

/-- The NaNs of a rule whose stages between its second primitive and a later one run no primitive: those of the first two
places, and those `n` places further on. -/
def nansSkipping (ν : Nat → Val F) (n : Nat) : Nat → Val F := fun k => if k < 2 then ν k else ν (k + n)

/-- R111 (c): a NaN in an operand or in `kP` reaches the output. -/
theorem isNaN_piRun_output (ν : Nat → Val F) (c : PiRegs F) {sp pv ff : Val F}
    (h : isNaN sp = true ∨ isNaN pv = true ∨ isNaN ff = true ∨ isNaN c.kP = true) :
    isNaN (piRun ν c sp pv ff).2 = true := by
  have hu (p g : Val F) (hpf : isNaN p = true ∨ isNaN ff = true) : isNaN (fadd (ν 5) (fadd (ν 4) p g) ff) = true :=
    fadd_nan _ _ _ (hpf.imp_left fun hp => fadd_nan _ _ _ (.inl hp))
  have hp : isNaN (fmul (ν 1) c.kP (fsub (ν 0) sp pv)) = true ∨ isNaN ff = true := by
    obtain h | h | h | h := h
    · exact .inl (fmul_nan _ _ _ (.inr (fsub_nan _ _ _ (.inl h))))
    · exact .inl (fmul_nan _ _ _ (.inr (fsub_nan _ _ _ (.inr h))))
    · exact .inr h
    · exact .inl (fmul_nan _ _ _ (.inl h))
  rw [piRun]
  dsimp only
  rw [clamp_nan (hu _ _ hp)]
  exact hu _ _ hp

/-- R117: with no error and a zero integral term the output is the clamped feedforward, up to the sign of a zero. -/
theorem feq_piRun_output (ν : Nat → Val F) (c : PiRegs F) {sp ff : Val F} (hlim : limitsOk c.outMin c.outMax = true)
    (hsp : isFinite sp = true) (hkP : isFinite c.kP = true) (hkI : isFinite c.kI = true) (hff : isNaN ff = false)
    (hterm : feq c.kI zeroF = true ∨ (isZero c.integ = true ∧ within zeroF c.outMin c.outMax = true)) :
    feq (piRun ν c sp sp ff).2 (clamp ff c.outMin c.outMax) = true := by
  have he := isZero_fsub_self (ν 0) hsp
  obtain ⟨-, -, hfe, -⟩ := isZero_cases he
  have hp := isZero_fmul (ν 1) (.inr he) hkP hfe
  have hg := isZero_integralStage (nansFrom ν 2) hkI he hterm
  exact feq_clamp (feq_fadd_zero_left (ν 5) (isZero_fadd (ν 4) hp hg) hff) hlim

end Runs

/-- Settles O20: both runs take the integrator from the integral stage and keep the limits. -/
theorem antiWindupAfterEveryIntegratingRun : Obligations.AntiWindupAfterEveryIntegratingRun := by
  refine ⟨fun F s t i c c' hc hkI hlim h hc' hnan => ?pi, fun F s t i c c' hc hkI hlim h hc' hnan => ?pid⟩
  case pi =>
    obtain rfl := next_inj ((exec_piRun_some hc).symm.trans h)
    obtain rfl := Option.some.inj ((Block.setPi_pi_self hc _).symm.trans hc')
    exact within_integralStage _ hkI hlim hnan
  case pid =>
    obtain rfl := next_inj ((exec_pidRun_some hc).symm.trans h)
    obtain rfl := Option.some.inj ((Block.setPid_pid_self hc _).symm.trans hc')
    exact within_integralStage _ hkI hlim hnan

/-- Settles O21: with `kI` zero the integral stage runs no primitive and its term is `+0.0`. -/
theorem piWithZeroIntegralGainIsProportional : Obligations.PiWithZeroIntegralGainIsProportional := by
  intro F s i c hc hkI _
  have hrun := exec_piRun_some hc
  rw [piRun, integralStage_of_zero _ _ _ _ _ hkI] at hrun
  exact ⟨_, _, nansSkipping s.nans 2, hrun, Block.setPi_pi_self hc _, rfl, rfl⟩

/-- Settles O22: error, proportional term and integral term are zeros. -/
theorem piWithZeroErrorAnswersTheFeedforward : Obligations.PiWithZeroErrorAnswersTheFeedforward := by
  intro F s i c hc hlim heq hsp hkP hkI hff hterm
  refine ⟨_, _, exec_piRun_some hc, rfl, ?_⟩
  rw [← heq]
  exact feq_piRun_output s.nans c hlim hsp hkP hkI hff hterm

/-- Settles O23: every primitive and the clamp pass a NaN on. -/
theorem naNReachesThePiOutputAndStays : Obligations.NaNReachesThePiOutputAndStays := by
  intro F s i c hc _
  refine ⟨_, _, _, exec_piRun_some hc, Block.setPi_pi_self hc _, rfl, isNaN_piRun_output s.nans c, fun hkI h => ?_⟩
  refine isNaN_integralStage _ hkI ?_
  rw [← or_assoc] at h
  exact h.imp_left (fsub_nan _ _ _)

/-- Settles O27: with `kI` zero the integral stage runs no primitive, and under `D_GATE = KI` the derivative stage none
either. -/
theorem pidWithZeroIntegralGainUnderEitherGate : Obligations.PidWithZeroIntegralGainUnderEitherGate := by
  intro F s i c hc hkI _
  have hrun := exec_pidRun_some hc
  rw [pidRun, integralStage_of_zero _ _ _ _ _ hkI, derivStage_eq] at hrun
  refine ⟨_, _, nansSkipping s.nans 8, _, hrun, Block.setPid_pid_self hc _, rfl, rfl, fun hgate => ?_, fun hgate hkD => ?_⟩
  · simp [dGateClosed, hgate, hkI]
  · simp [dGateClosed, hgate, hkD]

end Sys2Proof.Machine

/-! PROOFS. The transforms (R170, R172 to R174), and the ticks and writes of a current controller (R190 to R195). -/

namespace Sys2Proof.Machine

section Transforms

variable {F : FloatFormat}

theorem exec_iclarke (s : Block F) :
    exec .iclarke ⟨F, s⟩ =
      .next ⟨F, s.drawn.answered [(iclarkeOf s.nans s.args.a0 s.args.a1).1, (iclarkeOf s.nans s.args.a0 s.args.a1).2.1,
        (iclarkeOf s.nans s.args.a0 s.args.a1).2.2]⟩ :=
  reply_eq s.drawn _

theorem exec_park (s : Block F) :
    exec .park ⟨F, s⟩ =
      .next ⟨F, s.drawn.answered [(parkOf s.nans s.args.a0 s.args.a1 s.args.a2 s.args.a3).1,
        (parkOf s.nans s.args.a0 s.args.a1 s.args.a2 s.args.a3).2]⟩ :=
  reply_eq s.drawn _

theorem exec_ipark (s : Block F) :
    exec .ipark ⟨F, s⟩ =
      .next ⟨F, s.drawn.answered [(invPark s.nans s.args.a0 s.args.a1 s.args.a2 s.args.a3).1,
        (invPark s.nans s.args.a0 s.args.a1 s.args.a2 s.args.a3).2]⟩ :=
  reply_eq s.drawn _

/-- The result words of a transform, of its operand words and NaNs alone; another operation is none. -/
def transformResults (mode : ClarkeMode) (ν : Nat → Val F) (a : Args F) : Instr → List (Val F)
  | .clarke => [(clarkeOf mode ν a.a0 a.a1 a.a2).1, (clarkeOf mode ν a.a0 a.a1 a.a2).2]
  | .iclarke => [(iclarkeOf ν a.a0 a.a1).1, (iclarkeOf ν a.a0 a.a1).2.1, (iclarkeOf ν a.a0 a.a1).2.2]
  | .park => [(parkOf ν a.a0 a.a1 a.a2 a.a3).1, (parkOf ν a.a0 a.a1 a.a2 a.a3).2]
  | .ipark => [(invPark ν a.a0 a.a1 a.a2 a.a3).1, (invPark ν a.a0 a.a1 a.a2 a.a3).2]
  | _ => []

/-- R170: an operation that names no instance is a transform, which answers its results and changes no register. -/
theorem exec_transform {i : Instr} (hi : names i = none) (s : Block F) :
    exec i ⟨F, s⟩ = .next ⟨F, s.drawn.answered (transformResults s.params.clarkeMode s.nans s.args i)⟩ := by
  cases i with
  | clarke => exact exec_clarke rfl
  | iclarke => exact exec_iclarke s
  | park => exact exec_park s
  | ipark => exact exec_ipark s
  | _ => cases hi

end Transforms

/-- Settles O38: the NaNs are those of the operation's draw. -/
theorem inverseClarkeAnswersThreePhases : Obligations.InverseClarkeAnswersThreePhases :=
  fun _ s => ⟨s.nans, exec_iclarke s⟩

/-- Settles O39: the NaNs of either operation are those of its draw. -/
theorem parkAndInverseParkRotate : Obligations.ParkAndInverseParkRotate :=
  fun _ s => ⟨s.nans, exec_park s, exec_ipark s⟩

/-- Settles O40: the results are computed from what the two machines share. -/
theorem transformsReadOnlyTheirOperands : Obligations.TransformsReadOnlyTheirOperands := by
  intro i F s s' hi ha hd hp
  refine ⟨_, _, _, exec_transform hi s, exec_transform hi s', rfl, rfl, rfl, ?_⟩
  simp only [Block.answered_resp, Block.nans, ha, hd, hp]

section CcTick

variable {F : FloatFormat} {κ ρ : Type} {s : Block F} {j : Byte}

theorem ccTick_some (L : Ctrl F κ ρ) (wrap : List (CcRegs F κ) → CcBank F) {l : List (CcRegs F κ)} {cc : CcRegs F κ}
    (hc : l[j.toNat]? = some cc) (sc : Val F × Val F) (s : Block F) :
    ccTick L wrap l j sc s =
      .next ⟨F, (s.setCc (wrap (l.set j.toNat (ccRun L s.nans cc s.args.a0 s.args.a1 sc.1 sc.2).1))).drawn.answered
        [(ccRun L s.nans cc s.args.a0 s.args.a1 sc.1 sc.2).2.1, (ccRun L s.nans cc s.args.a0 s.args.a1 sc.1 sc.2).2.2]⟩ :=
  withInst_some hc s _

theorem exec_ccRunsc (j : Byte) (s : Block F) : exec (.ccRunsc j) ⟨F, s⟩ = ccTickOf j (s.args.a2, s.args.a3) s := rfl

theorem exec_ccRuna (j : Byte) (s : Block F) : exec (.ccRuna j) ⟨F, s⟩ = ccTickOf j (Config.sincosDeg F s.args.a2) s := rfl

theorem ccTickOf_pi {l : List (CcRegs F (PiRegs F))} (hb : s.banks.cc = .pi l) (sc : Val F × Val F) :
    ccTickOf j sc s = ccTick piCtrl .pi l j sc s := by
  simp only [ccTickOf, hb]

theorem ccTickOf_pid {l : List (CcRegs F (PidRegs F))} (hb : s.banks.cc = .pid l) (sc : Val F × Val F) :
    ccTickOf j sc s = ccTick (pidCtrl s.params.dGate) .pid l j sc s := by
  simp only [ccTickOf, hb]

/-- `CC.RUNSC` of an instance the build has, with `CC_KIND = PI`. -/
theorem exec_ccRunsc_pi {l : List (CcRegs F (PiRegs F))} {cc : CcRegs F (PiRegs F)} (hb : s.banks.cc = .pi l)
    (hc : l[j.toNat]? = some cc) :
    exec (.ccRunsc j) ⟨F, s⟩ =
      .next ⟨F, (s.setCc (.pi (l.set j.toNat
        (ccRun piCtrl s.nans cc s.args.a0 s.args.a1 s.args.a2 s.args.a3).1))).drawn.answered
          [(ccRun piCtrl s.nans cc s.args.a0 s.args.a1 s.args.a2 s.args.a3).2.1,
            (ccRun piCtrl s.nans cc s.args.a0 s.args.a1 s.args.a2 s.args.a3).2.2]⟩ :=
  (ccTickOf_pi hb _).trans (ccTick_some piCtrl .pi hc _ s)

/-- The same with `CC_KIND = PID`. -/
theorem exec_ccRunsc_pid {l : List (CcRegs F (PidRegs F))} {cc : CcRegs F (PidRegs F)} (hb : s.banks.cc = .pid l)
    (hc : l[j.toNat]? = some cc) :
    exec (.ccRunsc j) ⟨F, s⟩ =
      .next ⟨F, (s.setCc (.pid (l.set j.toNat
        (ccRun (pidCtrl s.params.dGate) s.nans cc s.args.a0 s.args.a1 s.args.a2 s.args.a3).1))).drawn.answered
          [(ccRun (pidCtrl s.params.dGate) s.nans cc s.args.a0 s.args.a1 s.args.a2 s.args.a3).2.1,
            (ccRun (pidCtrl s.params.dGate) s.nans cc s.args.a0 s.args.a1 s.args.a2 s.args.a3).2.2]⟩ :=
  (ccTickOf_pid hb _).trans (ccTick_some (pidCtrl s.params.dGate) .pid hc _ s)

/-- A tick of an instance the build has answers two words, and it reads of the operand words `A0` and `A1` alone. -/
theorem ccTick_withArgs (L : Ctrl F κ ρ) (wrap : List (CcRegs F κ) → CcBank F) {l : List (CcRegs F κ)}
    (h : j.toNat < l.length) (sc : Val F × Val F) {a : Args F} (h0 : a.a0 = s.args.a0) (h1 : a.a1 = s.args.a1) :
    ∃ (t : Block F) (va vb : Val F), ccTick L wrap l j sc s = .next ⟨F, t⟩ ∧
      ccTick L wrap l j sc { s with args := a } = .next ⟨F, { t with args := a }⟩ ∧ t.args = s.args ∧
      t.resp = some { status := .ok, results := [va, vb] } := by
  have hc := List.getElem?_eq_getElem h
  refine ⟨_, _, _, ccTick_some L wrap hc sc s, ?_, rfl, rfl⟩
  rw [ccTick_some L wrap hc]
  dsimp only
  rw [h0, h1]
  rfl

/-- The same whatever the kind. -/
theorem ccTickOf_withArgs (h : j.toNat < s.banks.cc.count) (sc : Val F × Val F) {a : Args F} (h0 : a.a0 = s.args.a0)
    (h1 : a.a1 = s.args.a1) :
    ∃ (t : Block F) (va vb : Val F), ccTickOf j sc s = .next ⟨F, t⟩ ∧
      ccTickOf j sc { s with args := a } = .next ⟨F, { t with args := a }⟩ ∧ t.args = s.args ∧
      t.resp = some { status := .ok, results := [va, vb] } := by
  cases hb : s.banks.cc with
  | pi =>
    rw [hb] at h
    rw [ccTickOf_pi hb, ccTickOf_pi (s := { s with args := a }) hb]
    exact ccTick_withArgs piCtrl .pi h sc h0 h1
  | pid =>
    rw [hb] at h
    rw [ccTickOf_pid hb, ccTickOf_pid (s := { s with args := a }) hb]
    exact ccTick_withArgs (pidCtrl s.params.dGate) .pid h sc h0 h1

/-- R174: a NaN in either component of the rotated vector reaches both results. -/
theorem isNaN_invPark (ν : Nat → Val F) {d q : Val F} (s c : Val F) (h : isNaN d = true ∨ isNaN q = true) :
    isNaN (invPark ν d q s c).1 = true ∧ isNaN (invPark ν d q s c).2 = true := by
  have hmul (μ x : Val F) (hx : isNaN x = true) (y : Val F) : isNaN (fmul μ x y) = true := fmul_nan _ _ _ (.inl hx)
  exact ⟨fsub_nan _ _ _ (h.imp (hmul _ _ · _) (hmul _ _ · _)), fadd_nan _ _ _ (h.imp (hmul _ _ · _) (hmul _ _ · _))⟩

/-- R192: where a NaN measurement reaches the output of its own axis, a NaN in either reaches both words of the tick. -/
theorem isNaN_ccRun {L : Ctrl F κ ρ} (hrun : ∀ ν c sp pv, isNaN pv = true → isNaN (L.run ν c sp pv zeroF).2 = true)
    (ν : Nat → Val F) (cc : CcRegs F κ) {id iq : Val F} (s c : Val F) (h : isNaN id = true ∨ isNaN iq = true) :
    isNaN (ccRun L ν cc id iq s c).2.1 = true ∧ isNaN (ccRun L ν cc id iq s c).2.2 = true :=
  isNaN_invPark (nansFrom ν 32) s c (h.imp (hrun _ _ _ _) (hrun _ _ _ _))

theorem isNaN_piCtrl_run (ν : Nat → Val F) (c : PiRegs F) (sp pv : Val F) (h : isNaN pv = true) :
    isNaN (piCtrl.run ν c sp pv zeroF).2 = true :=
  isNaN_piRun_output ν c (.inr (.inl h))

theorem isNaN_pidCtrl_run (gate : DGate) (ν : Nat → Val F) (c : PidRegs F) (sp pv : Val F) (h : isNaN pv = true) :
    isNaN ((pidCtrl gate).run ν c sp pv zeroF).2 = true := by
  have hu (g d : Val F) :
      isNaN (fadd (ν 12) (fadd (ν 11) (fadd (ν 10) (fmul (ν 1) c.kP (fsub (ν 0) sp pv)) g) d) zeroF) = true :=
    fadd_nan _ _ _ (.inl (fadd_nan _ _ _ (.inl (fadd_nan _ _ _ (.inl (fmul_nan _ _ _ (.inr (fsub_nan _ _ _ (.inr h)))))))))
  simp only [pidCtrl, pidRun, clamp_nan (hu _ _), hu]

end CcTick

section ViolatedLimits

variable {F : FloatFormat}

/-- R110 with any limits: the integrator and the output are literal clamps (U1, log entry 3). -/
theorem PiRegs.ranTo_piRun (ν : Nat → Val F) (c : PiRegs F) (sp pv ff : Val F) :
    c.ranTo (piRun ν c sp pv ff).1 sp pv ff (piRun ν c sp pv ff).2 := by
  refine ⟨fadd (ν 3) c.integ (fmul (ν 2) c.kI (fsub (ν 0) sp pv)), _, ν, ?_, rfl, fun _ => rfl⟩
  rw [piRun, integralStage_eq]
  rfl

/-- R131 with any limits. -/
theorem PidRegs.ranTo_pidRun (gate : DGate) (ν : Nat → Val F) (c : PidRegs F) (sp pv ff : Val F) :
    c.ranTo gate (pidRun gate ν c sp pv ff).1 sp pv ff (pidRun gate ν c sp pv ff).2 := by
  refine ⟨fadd (ν 3) c.integ (fmul (ν 2) c.kI (fsub (ν 0) sp pv)), _, ν, ?_, rfl, fun _ => rfl⟩
  rw [pidRun, integralStage_eq, derivStage_eq]
  rfl

end ViolatedLimits

/-- Settles O41: the d axis takes the NaNs of the draw from its first place on, the q axis and the transform from later
ones. -/
theorem ccRunscTicksBothAxes : Obligations.CcRunscTicksBothAxes := by
  refine ⟨fun F s j l cc hb hc _ _ => ⟨s.nans, nansFrom s.nans 16, nansFrom s.nans 32, ?pi⟩,
    fun F s j l cc hb hc _ _ => ⟨s.nans, nansFrom s.nans 16, nansFrom s.nans 32, ?pid⟩⟩
  case pi =>
    rw [exec_ccRunsc_pi hb hc]
    rfl
  case pid =>
    rw [exec_ccRunsc_pid hb hc]
    rfl

/-- Settles O42: both operations are the tick, with the same sine and cosine. -/
theorem ccRunaTicksWithTheBackendsSineAndCosine : Obligations.CcRunaTicksWithTheBackendsSineAndCosine := by
  intro F s j h
  obtain ⟨t, va, vb, hrun, hrun', hargs, hresp⟩ := ccTickOf_withArgs h (Config.sincosDeg F s.args.a2)
    (a := { s.args with a2 := (Config.sincosDeg F s.args.a2).1, a3 := (Config.sincosDeg F s.args.a2).2 }) rfl rfl
  exact ⟨t, _, [va, vb], hrun, hrun', rfl, hargs, hresp, rfl⟩

/-- Settles O19: the two runs, and with them the two axes of a tick, do what they do whatever the limits are. -/
theorem controllerRunsCompleteUnderViolatedLimits : Obligations.ControllerRunsCompleteUnderViolatedLimits := by
  refine ⟨fun F s i c hc _ => ?pi, fun F s i c hc _ => ?pid, fun F s j l cc hb hc _ => ?ccPi,
    fun F s j l cc hb hc _ => ?ccPid⟩
  case pi => exact ⟨_, _, c.ranTo_piRun s.nans _ _ _, exec_piRun_some hc⟩
  case pid => exact ⟨_, _, c.ranTo_pidRun s.params.dGate s.nans _ _ _, exec_pidRun_some hc⟩
  case ccPi =>
    have hd := cc.d.ranTo_piRun s.nans cc.idRef s.args.a0 zeroF
    have hq := cc.q.ranTo_piRun (nansFrom s.nans 16) cc.iqRef s.args.a1 zeroF
    refine ⟨_, _, _, _, nansFrom s.nans 32, hd, hq, ?_⟩
    rw [exec_ccRunsc_pi hb hc]
    rfl
  case ccPid =>
    have hd := cc.d.ranTo_pidRun s.params.dGate s.nans cc.idRef s.args.a0 zeroF
    have hq := cc.q.ranTo_pidRun s.params.dGate (nansFrom s.nans 16) cc.iqRef s.args.a1 zeroF
    refine ⟨_, _, _, _, nansFrom s.nans 32, hd, hq, ?_⟩
    rw [exec_ccRunsc_pid hb hc]
    rfl

/-- Settles O47: each axis of a tick is run on its own registers and measurement, with the NaNs of its own places in the
draw. -/
theorem ccAxesAreIndependent : Obligations.CcAxesAreIndependent := by
  refine ⟨fun F s s' j l l' cc cc' hb hb' hc hc' _ _ _ _ hd => ?pi,
    fun F s s' j l l' cc cc' hb hb' hc hc' _ _ _ _ hd hg => ?pid⟩
  case pi =>
    refine ⟨_, _, _, _, _, _, _, _, exec_ccRunsc_pi hb hc, exec_ccRunsc_pi hb' hc', rfl, rfl,
      List.getElem?_set_self (List.getElem?_eq_some_iff.mp hc).1,
      List.getElem?_set_self (List.getElem?_eq_some_iff.mp hc').1, fun hq hr ha => ?_, fun hq hr ha => ?_, rfl,
      isNaN_ccRun isNaN_piCtrl_run s.nans cc _ _⟩
    · simp only [ccRun, Block.nans, hd, hq, hr, ha]
    · simp only [ccRun, Block.nans, hd, hq, hr, ha]
  case pid =>
    refine ⟨_, _, _, _, _, _, _, _, exec_ccRunsc_pid hb hc, exec_ccRunsc_pid hb' hc', rfl, rfl,
      List.getElem?_set_self (List.getElem?_eq_some_iff.mp hc).1,
      List.getElem?_set_self (List.getElem?_eq_some_iff.mp hc').1, fun hq hr ha => ?_, fun hq hr ha => ?_, rfl,
      isNaN_ccRun (isNaN_pidCtrl_run s.params.dGate) s.nans cc _ _⟩
    · simp only [ccRun, Block.nans, hd, hg, hq, hr, ha]
    · simp only [ccRun, Block.nans, hd, hg, hq, hr, ha]

section CcWrite

variable {F : FloatFormat} {κ ρ : Type} {L : Ctrl F κ ρ} {num : ρ → Nat} {regs : List ρ}
  {ctrlWrites : κ → Val F → List (Nat × κ)} {l : List (CcRegs F κ)} {cc : CcRegs F κ} {s : Block F} {j r : Byte}

/-- The `RW` rows of R33 list the registers that take a word with their numbers, when the embedded controllers' do. -/
theorem CcRegs.writeTable_eq {write : κ → ρ → Val F → Option κ}
    (hwrites : ∀ c v, ctrlWrites c v = regs.filterMap fun reg => (write c reg v).map fun c' => (num reg, c'))
    (cc : CcRegs F κ) (v : Val F) :
    cc.writeTable ctrlWrites v =
      (CcReg.all regs).filterMap fun reg => (cc.write write reg v).map fun cc' => (reg.num num, cc') := by
  simp only [CcRegs.writeTable, CcReg.all, hwrites, List.filterMap_append, List.filterMap_map, List.map_filterMap]
  simp [Function.comp_def, CcRegs.write, CcReg.num]

/-- R195 for the embedded controllers `L`: a number of the `RW` rows stores `A0` in its register, one whose register takes
no word is answered `READ_ONLY`, and one that names no register `BAD_REGISTER`. -/
theorem ccWrite_of_writeTable (hnum : ∀ reg, L.regOf (BitVec.ofNat 8 (num reg)) = some reg) (hlt : ∀ reg, num reg < 0x20)
    (hwrites : ∀ c v, ctrlWrites c v = regs.filterMap fun reg => (L.write c reg v).map fun c' => (num reg, c'))
    (hc : l[j.toNat]? = some cc) (wrap : List (CcRegs F κ) → CcBank F) :
    (∀ cc', (r.toNat, cc') ∈ cc.writeTable ctrlWrites s.args.a0 →
      ccWrite L wrap l j r s = .next ⟨F, (s.setCc (wrap (l.set j.toNat cc'))).answered []⟩) ∧
    (∀ reg, ccRegOf L.regOf r = some reg → cc.write L.write reg s.args.a0 = none →
      ccWrite L wrap l j r s = .next ⟨F, s.refusedWith .readOnly⟩) ∧
    (ccRegOf L.regOf r = none → ccWrite L wrap l j r s = .next ⟨F, s.refusedWith .badRegister⟩) := by
  rw [ccWrite, withInst_some hc, cc.writeTable_eq hwrites]
  exact ⟨fun _ h => writeReg_of_mem_writeTable (ccRegOf_num hnum hlt) h _, fun _ h hw => writeReg_readOnly h hw _,
    fun h => writeReg_none h _ _ s⟩

/-- R90 with `CC_KIND = PI`: a read-only number names a register that takes no word. -/
theorem ccRegOf_pi_readOnly (hr : r.toNat ∈ ccRegNums .pi) (hro : r.toNat ∈ ccReadOnlyNums) (cc : CcRegs F (PiRegs F))
    (v : Val F) : ∃ reg, ccRegOf piRegOf r = some reg ∧ cc.write PiRegs.write reg v = none := by
  have hnum : (ccRegOf piRegOf r).isSome = true := (ccRegOf_pi_isSome r).trans (List.contains_iff_mem.mpr hr)
  obtain ⟨reg, hreg⟩ := Option.isSome_iff_exists.mp hnum
  refine ⟨reg, hreg, ?_⟩
  rw [← Option.not_isSome_iff_eq_none, ccWrite_pi_isSome cc v hreg, List.contains_iff_mem.mpr hro]
  decide

/-- The same with `CC_KIND = PID`. -/
theorem ccRegOf_pid_readOnly (hr : r.toNat ∈ ccRegNums .pid) (hro : r.toNat ∈ ccReadOnlyNums)
    (cc : CcRegs F (PidRegs F)) (v : Val F) :
    ∃ reg, ccRegOf pidRegOf r = some reg ∧ cc.write PidRegs.write reg v = none := by
  have hnum : (ccRegOf pidRegOf r).isSome = true := (ccRegOf_pid_isSome r).trans (List.contains_iff_mem.mpr hr)
  obtain ⟨reg, hreg⟩ := Option.isSome_iff_exists.mp hnum
  refine ⟨reg, hreg, ?_⟩
  rw [← Option.not_isSome_iff_eq_none, ccWrite_pid_isSome cc v hreg, List.contains_iff_mem.mpr hro]
  decide

theorem exec_ccWr_pi {l : List (CcRegs F (PiRegs F))} (hb : s.banks.cc = .pi l) :
    exec (.ccWr j r) ⟨F, s⟩ = ccWrite piCtrl .pi l j r s := by
  simp only [exec, execCcWr, hb]

theorem exec_ccWr_pid {l : List (CcRegs F (PidRegs F))} (hb : s.banks.cc = .pid l) :
    exec (.ccWr j r) ⟨F, s⟩ = ccWrite (pidCtrl s.params.dGate) .pid l j r s := by
  simp only [exec, execCcWr, hb]

end CcWrite

/-- Settles O44: the `RW` rows of R33 list the registers that take a word, whatever the kind of the embedded controllers;
the other numbers name a register that takes none, or no register. -/
theorem ccWrStoresInTheNamedRegister : Obligations.CcWrStoresInTheNamedRegister := by
  refine ⟨fun F s j r l cc hb hc => ?pi, fun F s j r l cc hb hc => ?pid⟩
  case pi =>
    rw [exec_ccWr_pi hb]
    obtain ⟨hword, hro, hbad⟩ :=
      ccWrite_of_writeTable (L := piCtrl) (s := s) (r := r) piRegOf_num PiReg.num_lt PiRegs.writeTable_eq hc .pi
    refine ⟨hword, fun hr h => ?_, fun h => hbad (ccRegOf_pi_eq_none h)⟩
    obtain ⟨reg, hreg, hw⟩ := ccRegOf_pi_readOnly hr h cc s.args.a0
    exact hro reg hreg hw
  case pid =>
    rw [exec_ccWr_pid hb]
    obtain ⟨hword, hro, hbad⟩ := ccWrite_of_writeTable (L := pidCtrl s.params.dGate) (s := s) (r := r) pidRegOf_num
      PidReg.num_lt PidRegs.writeTable_eq hc .pid
    refine ⟨hword, fun hr h => ?_, fun h => hbad (ccRegOf_pid_eq_none h)⟩
    obtain ⟨reg, hreg, hw⟩ := ccRegOf_pid_readOnly hr h cc s.args.a0
    exact hro reg hreg hw

end Sys2Proof.Machine

/-! PROOFS. The arithmetic primitives against the exact results (R12), and the default square root (R8, U7). -/

namespace Sys2Proof.Machine

section Arithmetic

variable {F : FloatFormat} {a b : Val F}

theorem magBits_of_isZero (h : isZero a = true) : magBits a = 0 := by simpa [isZero] using h

theorem isZero_pack (neg : Bool) : isZero (pack neg 0 : Val F) = true := by
  rw [isZero, magBits_pack neg (Nat.two_pow_pos _), beq_self_eq_true]

theorem signBit_pack_zero (neg : Bool) : signBit (pack neg 0 : Val F) = neg := signBit_pack neg (Nat.two_pow_pos _)

theorem isInf_pack (neg : Bool) : isInf (pack neg (infBits F) : Val F) = true := by
  rw [isInf, magBits_pack neg (infBits_lt F), beq_self_eq_true]

@[simp] theorem isInf_fneg (a : Val F) : isInf (fneg a) = isInf a := by simp [isInf]

/-- The units of a value that is no zero. -/
theorem unitsOf_pos (h : isZero a = false) : 0 < unitsOf F (magBits a) := by
  have hpos : 0 < magBits a := Nat.pos_of_ne_zero (by simpa [isZero] using h)
  simpa using unitsOf_strictMono F hpos

/-- The exact sum of finite values that do not cancel is rounded once. -/
theorem fadd_correct (ν : Val F) (ha : isFinite a = true) (hb : isFinite b = true) (h : intOf a + intOf b ≠ 0) :
    signBit (fadd ν a b) = decide (intOf a + intOf b < 0) ∧
      IsNearest F |((intOf a + intOf b : Int) : ℝ)| (magBits (fadd ν a b)) := by
  rw [fadd_finite ν ha hb h, signBit_pack_roundMag, magBits_pack_roundMag]
  refine ⟨rfl, ?_⟩
  have habs : |((intOf a + intOf b : Int) : ℝ)| = ((intOf a + intOf b).natAbs : ℝ) / (1 : Nat) := by
    rw [Nat.cast_natAbs, Int.cast_abs, Nat.cast_one, div_one]
  rw [habs]
  exact roundMag_nearest F _ one_pos

/-- The sum of finite values that cancel is the IEEE zero. -/
theorem fadd_cancel_correct (ν : Val F) (ha : isFinite a = true) (hb : isFinite b = true) (h : intOf a + intOf b = 0) :
    isZero (fadd ν a b) = true ∧ signBit (fadd ν a b) = (signBit a && signBit b) := by
  rw [fadd_cancel ν ha hb h]
  exact ⟨isZero_pack _, signBit_pack_zero _⟩

/-- The exact product of finite values is rounded once. -/
theorem fmul_correct (ν : Val F) (ha : isFinite a = true) (hb : isFinite b = true) :
    signBit (fmul ν a b) = (signBit a != signBit b) ∧
      IsNearest F ((unitsOf F (magBits a) : ℝ) * unitsOf F (magBits b) / 2 ^ unitExp F) (magBits (fmul ν a b)) := by
  rw [fmul_finite ν ha hb, signBit_pack_roundMag, magBits_pack_roundMag]
  refine ⟨rfl, ?_⟩
  exact_mod_cast roundMag_nearest F (unitsOf F (magBits a) * unitsOf F (magBits b)) (Nat.two_pow_pos (unitExp F))

/-- The exact quotient of finite values is rounded once. -/
theorem fdiv_correct (ν : Val F) (ha : isFinite a = true) (hb : isFinite b = true) (h : isZero b = false) :
    signBit (fdiv ν a b) = (signBit a != signBit b) ∧
      IsNearest F ((unitsOf F (magBits a) : ℝ) * 2 ^ unitExp F / unitsOf F (magBits b)) (magBits (fdiv ν a b)) := by
  rw [fdiv_finite ν ha hb h, signBit_pack_roundMag, magBits_pack_roundMag]
  refine ⟨rfl, ?_⟩
  exact_mod_cast roundMag_nearest F (unitsOf F (magBits a) * 2 ^ unitExp F) (unitsOf_pos h)

/-! The special operands: infinities, and zeros where they are not finite values like others. -/

theorem fadd_inf_left (ν : Val F) (ha : isInf a = true) (hb : isFinite b = true) : fadd ν a b = a := by
  simp [fadd, isInf_cases ha, isFinite_cases hb, ha]

theorem fadd_inf_right (ν : Val F) (ha : isFinite a = true) (hb : isInf b = true) : fadd ν a b = b := by
  simp [fadd, isInf_cases hb, isFinite_cases ha, hb]

theorem fadd_inf_inf_of_eq (ν : Val F) (ha : isInf a = true) (hb : isInf b = true) (h : signBit a = signBit b) :
    fadd ν a b = a := by
  simp [fadd, isInf_cases ha, isInf_cases hb, ha, h]

theorem isNaN_fadd_inf_inf_of_ne (ν : Val F) (ha : isInf a = true) (hb : isInf b = true) (h : signBit a ≠ signBit b) :
    isNaN (fadd ν a b) = true := by
  simp [fadd, isInf_cases ha, isInf_cases hb, ha, hb, h]

theorem isNaN_fmul_zero_inf (ν : Val F) (ha : isZero a = true) (hb : isInf b = true) :
    isNaN (fmul ν a b) = true ∧ isNaN (fmul ν b a) = true := by
  simp [fmul, isZero_cases ha, isInf_cases hb, ha, hb]

theorem isInf_fmul_inf (ν : Val F) (hna : isNaN a = false) (hza : isZero a = false) (hb : isInf b = true) :
    isInf (fmul ν a b) = true ∧ isInf (fmul ν b a) = true := by
  simp [fmul, isInf_cases hb, hna, hza, hb, isInf_pack]

theorem isNaN_fdiv_inf_inf (ν : Val F) (ha : isInf a = true) (hb : isInf b = true) : isNaN (fdiv ν a b) = true := by
  simp [fdiv, isInf_cases ha, isInf_cases hb, ha, hb]

theorem isInf_fdiv_inf_left (ν : Val F) (ha : isInf a = true) (hb : isFinite b = true) : isInf (fdiv ν a b) = true := by
  simp [fdiv, isInf_cases ha, isFinite_cases hb, ha, isInf_pack]

theorem isZero_fdiv_inf_right (ν : Val F) (ha : isFinite a = true) (hb : isInf b = true) : isZero (fdiv ν a b) = true := by
  simp [fdiv, isFinite_cases ha, isInf_cases hb, hb, isZero_pack]

theorem isNaN_fdiv_zero_zero (ν : Val F) (ha : isZero a = true) (hb : isZero b = true) : isNaN (fdiv ν a b) = true := by
  simp [fdiv, isZero_cases ha, isZero_cases hb, ha, hb]

theorem isInf_fdiv_by_zero (ν : Val F) (ha : isFinite a = true) (hza : isZero a = false) (hb : isZero b = true) :
    isInf (fdiv ν a b) = true := by
  simp [fdiv, isFinite_cases ha, isZero_cases hb, hza, hb, isInf_pack]

theorem signBit_pack_infBits (neg : Bool) : signBit (pack neg (infBits F) : Val F) = neg := signBit_pack neg (infBits_lt F)

/-- A product that is no NaN has the sign of its factors. -/
theorem signBit_fmul (ν : Val F) (hna : isNaN a = false) (hnb : isNaN b = false) (h : isNaN (fmul ν a b) = false) :
    signBit (fmul ν a b) = (signBit a != signBit b) := by
  by_cases hinf : isInf a = true ∨ isInf b = true
  · by_cases hz : isZero a = true ∨ isZero b = true
    · simp [fmul, hna, hnb, hinf, hz] at h
    · simp [fmul, hna, hnb, hinf, hz, signBit_pack_infBits]
  · simp [fmul, hna, hnb, hinf, signBit_pack_roundMag]

/-- A quotient that is no NaN has the sign of its operands. -/
theorem signBit_fdiv (ν : Val F) (hna : isNaN a = false) (hnb : isNaN b = false) (h : isNaN (fdiv ν a b) = false) :
    signBit (fdiv ν a b) = (signBit a != signBit b) := by
  cases hia : isInf a <;> cases hib : isInf b
  case true.true => simp [isNaN_fdiv_inf_inf ν hia hib] at h
  case true.false => simp [fdiv, hna, hnb, hia, hib, signBit_pack_infBits]
  case false.true => simp [fdiv, hna, hnb, hia, hib, signBit_pack_zero]
  case false.false =>
    cases hza : isZero a <;> cases hzb : isZero b
    case true.true => simp [isNaN_fdiv_zero_zero ν hza hzb] at h
    case false.true => simp [fdiv, hna, hnb, hia, hib, hza, hzb, signBit_pack_infBits]
    all_goals simp [fdiv, hna, hnb, hia, hib, hzb, signBit_pack_roundMag]

end Arithmetic

/-- Settles O55: on finite operands the exact result is rounded once, and a special operand decides the answer alone. -/
theorem arithmeticIsIeee : Obligations.ArithmeticIsIeee := by
  intro F ν a b
  refine ⟨fadd_correct ν, fadd_cancel_correct ν, fun ha hb h => ?sub, fun ha hb h => ?subCancel, fmul_correct ν,
    fdiv_correct ν, fun h => ⟨fadd_nan ν a b h, fsub_nan ν a b h, fmul_nan ν a b h, fdiv_nan ν a b h⟩,
    fun ha hb => ⟨fun h => ?infNe, fun h => ?infEq, isNaN_fdiv_inf_inf ν ha hb⟩,
    fun ha hb => ⟨fadd_inf_left ν ha hb, ?infLeft, isInf_fdiv_inf_left ν ha hb⟩,
    fun ha hb => ⟨fadd_inf_right ν ha hb, ?infRight, isZero_fdiv_inf_right ν ha hb⟩, isNaN_fmul_zero_inf ν,
    isInf_fmul_inf ν, isNaN_fdiv_zero_zero ν, isInf_fdiv_by_zero ν, signBit_fmul ν, signBit_fdiv ν⟩
  case sub =>
    have hval : intOf a - intOf b = intOf a + intOf (fneg b) := by rw [intOf_fneg, sub_eq_add_neg]
    rw [hval] at h ⊢
    exact fadd_correct ν ha (by rwa [isFinite_fneg]) h
  case subCancel =>
    rw [← signBit_fneg]
    exact fadd_cancel_correct ν ha (by rwa [isFinite_fneg]) (by rw [intOf_fneg, ← sub_eq_add_neg, h])
  case infNe =>
    refine ⟨isNaN_fadd_inf_inf_of_ne ν ha hb h, fadd_inf_inf_of_eq ν ha (by rwa [isInf_fneg]) ?_⟩
    rw [signBit_fneg]
    exact Bool.eq_not_of_ne h
  case infEq =>
    refine ⟨fadd_inf_inf_of_eq ν ha hb h, isNaN_fadd_inf_inf_of_ne ν ha (by rwa [isInf_fneg]) ?_⟩
    rw [signBit_fneg, h]
    exact Bool.self_ne_not _
  case infLeft => exact fadd_inf_left ν ha (by rwa [isFinite_fneg])
  case infRight => exact fadd_inf_right ν ha (by rwa [isInf_fneg])

section SquareRoot

variable {F : FloatFormat}

theorem rootMag_zero (F : FloatFormat) : rootMag F 0 = 0 := by
  have hroot : isqrt 0 = 0 := by decide
  rw [rootMag, Nat.mul_zero, hroot]
  exact roundMag_exact (by norm_num) (Nat.zero_le _) (by simp)

/-- The root of a value without a sign bit: a finite value, or the infinity. -/
theorem fsqrt_of_finite (ν : Val F) {a : Val F} (ha : isFinite a = true) (hs : signBit a = false) :
    fsqrt ν a = pack false (rootMag F (unitsOf F (magBits a) * 2 ^ unitExp F)) := by
  cases hz : isZero a with
  | true =>
    have hm := magBits_of_isZero hz
    rw [hm, unitsOf_zero, Nat.zero_mul, rootMag_zero, ← hs, ← hm, pack_eq]
    simp [fsqrt, isZero_cases hz, hz]
  | false => simp [fsqrt, isFinite_cases ha, hz, hs]

end SquareRoot

/-- Settles O56: a finite value's root is rounded once, a zero being its own; the other values are tested for. -/
theorem squareRootIsCorrectlyRounded : Obligations.SquareRootIsCorrectlyRounded := by
  intro F ν a
  refine ⟨fun ha hs => ?finite, fun hz => ?zero, fun hi hs => ?inf, fun h => ?nan⟩
  case finite =>
    rw [fsqrt_of_finite ν ha hs, signBit_pack_rootMag, magBits_pack_rootMag]
    exact ⟨rfl, by exact_mod_cast rootMag_nearest F (unitsOf F (magBits a) * 2 ^ unitExp F)⟩
  case zero => simp [fsqrt, isZero_cases hz, hz]
  case inf => simp [fsqrt, isInf_cases hi, hi, hs]
  case nan =>
    obtain hnan | ⟨hs, hz⟩ := h
    · simp [fsqrt, hnan]
    · simp [fsqrt, hs, hz]

end Sys2Proof.Machine

/-! PROOFS. `SVM.RUN` at the null vector (R218 (a)), and what it stores when it is run again (R214). -/

namespace Sys2Proof.Machine

section NullVector

variable {F : FloatFormat} {a b : Val F}

/-- A quotient of at most `unitsOf F m` units is rounded to at most the fields `m`. -/
theorem roundMag_le_of_le {num den m : Nat} (hden : 0 < den) (hm : m ≤ infBits F) (h : num ≤ unitsOf F m * den) :
    roundMag F num den ≤ m := by
  by_contra hlt
  have hd : (0 : ℝ) < den := by exact_mod_cast hden
  have hx : (num : ℝ) / den ≤ unitsOf F m := by
    rw [div_le_iff₀ hd]
    exact_mod_cast h
  have hu : (unitsOf F m : ℝ) < unitsOf F (roundMag F num den) := by
    exact_mod_cast unitsOf_strictMono F (not_le.mp hlt)
  have hfar : |(unitsOf F m : ℝ) - num / den| < |(unitsOf F (roundMag F num den) : ℝ) - num / den| := by
    rw [abs_of_nonneg (by linarith), abs_of_nonneg (by linarith)]
    linarith
  obtain ⟨-, hnear⟩ := roundMag_nearest F num hden
  obtain h | ⟨h, -⟩ := hnear m hm (by omega) <;> linarith

theorem unitsOf_cOne : unitsOf F (magBits (cOne : Val F)) = 2 ^ unitExp F := by
  have hval := (intOf_cOne (F := F)).1
  rw [intOf, cOne, signBit_nearestTo, if_neg Bool.false_ne_true] at hval
  exact_mod_cast hval

theorem signBit_cSqrt32 : signBit (cSqrt32 : Val F) = false := signBit_pack_rootMag _ _

/-- A value over one of larger magnitude is at most one, so it is finite. -/
theorem isFinite_fdiv_of_magBits_lt (ν : Val F) (hb : isNaN b = false) (h : magBits a < magBits b) :
    isFinite (fdiv ν a b) = true := by
  have hle : magBits b ≤ infBits F := by simpa [isNaN] using hb
  have hfa : isFinite a = true := by simpa [isFinite] using h.trans_le hle
  cases hib : isInf b with
  | true =>
    obtain ⟨-, -, hfin, -⟩ := isZero_cases (isZero_fdiv_inf_right ν hfa hib)
    exact hfin
  | false =>
    have hne : magBits b ≠ infBits F := by simpa [isInf] using hib
    have hfb : isFinite b = true := by
      rw [isFinite, decide_eq_true_eq]
      omega
    have hzb : isZero b = false := by
      rw [isZero, beq_eq_false_iff_ne]
      omega
    have hcOne : magBits (cOne : Val F) < infBits F := by simpa [isFinite] using intOf_cOne.2
    have hround : roundMag F (unitsOf F (magBits a) * 2 ^ unitExp F) (unitsOf F (magBits b)) ≤ magBits (cOne : Val F) := by
      refine roundMag_le_of_le (unitsOf_pos hzb) hcOne.le ?_
      rw [unitsOf_cOne, Nat.mul_comm]
      exact Nat.mul_le_mul_left _ (unitsOf_strictMono F h).le
    rw [fdiv_finite ν hfa hfb hzb, isFinite, magBits_pack_roundMag, decide_eq_true_eq]
    exact hround.trans_lt hcOne

/-- Above a value without a sign bit the magnitudes are in the order of the values. -/
theorem magBits_lt_of_fgt (ha : signBit a = false) (h : fgt b a = true) : isNaN b = false ∧ magBits a < magBits b := by
  simp only [fgt, Bool.and_eq_true, Bool.not_eq_true', decide_eq_true_eq] at h
  obtain ⟨⟨hnb, -⟩, hlt⟩ := h
  refine ⟨hnb, (unitsOf_strictMono F).lt_iff_lt.mp ?_⟩
  cases hsb : signBit b <;> simp [intOf, ha, hsb] at hlt <;> omega

/-- At the null vector the limited vector is the null vector, whatever the square root answers: where the length exceeds
`√3/2`, the scale is finite. -/
theorem isNullVector_svmLimit (backend : SqrtBackend) (ν : Nat → Val F) (ovm : Bool) (ha : isZero a = true)
    (hb : isZero b = true) :
    isNullVector (svmLimit backend ν ovm a b).1 (svmLimit backend ν ovm a b).2 = true := by
  obtain ⟨-, -, hfa, -⟩ := isZero_cases ha
  obtain ⟨-, -, hfb, -⟩ := isZero_cases hb
  rw [svmLimit_eq]
  dsimp only
  split
  · next hlim =>
    obtain ⟨-, hgt⟩ := hlim
    obtain ⟨hnan, hlt⟩ := magBits_lt_of_fgt signBit_cSqrt32 hgt
    have hk := isFinite_fdiv_of_magBits_lt (ν 4) hnan hlt
    rw [isNullVector, isZero_fmul _ (.inl ha) hfa hk, isZero_fmul _ (.inl hb) hfb hk, Bool.and_self]
  · rw [isNullVector, ha, hb, Bool.and_self]

/-- R218 (a), which the open sector tests and duty formulas are held to (log entry 8). -/
theorem svmRawDuties_of_isNullVector (v : SvmVariant) {w : Val F × Val F} (h : isNullVector w.1 w.2 = true) :
    svmRawDuties (svmSector v) (svmDuty v) w = (halfF, halfF, halfF) := by
  simp [svmRawDuties, svmSector, svmDuty, h]

theorem svmRun_of_isNullVector (backend : SqrtBackend) {m : SvmRegs F} (ha : isZero m.va = true) (hb : isZero m.vb = true) :
    svmRun backend m = { m with dA := halfF, dB := halfF, dC := halfF } := by
  simp only [svmRun, svmRawDuties_of_isNullVector _ (isNullVector_svmLimit _ _ _ ha hb), clampDuty_halfF]

end NullVector

/-- Settles O51: the limited vector is still the null vector, and `0.5` passes the clamp. -/
theorem nullVectorGivesHalfDuties : Obligations.NullVectorGivesHalfDuties := by
  intro F s i m hm ha hb
  rw [← svmRun_of_isNullVector s.params.sqrt ha hb]
  exact ⟨_, exec_svmRun_some hm, Block.setSvm_svm_self hm _⟩

section RunTwice

variable {F : FloatFormat} {op : Instr} {s t u : Block F} {i : Byte}

/-- What `SVM.RUN` reads of a modulator (R42): its algorithm, its vector and its flag. -/
def SvmRegs.inputs (m : SvmRegs F) : SvmVariant × Val F × Val F × Bool := (m.variant, m.va, m.vb, m.ovm)

theorem SvmRegs.inputs_svmRun (backend : SqrtBackend) (m : SvmRegs F) : (svmRun backend m).inputs = m.inputs := rfl

/-- R42: `SVM.RUN` is a function of these inputs. -/
theorem svmRun_of_inputs_eq (backend : SqrtBackend) {m m' : SvmRegs F} (h : m.inputs = m'.inputs) :
    svmRun backend m = svmRun backend m' := by
  simp only [SvmRegs.inputs, Prod.mk.injEq] at h
  obtain ⟨hv, ha, hb, ho⟩ := h
  exact svmRun_congr backend ha hb ho hv

/-- What `SVM.RUN` reads for instance `i`: the inputs of the modulator, if there is one, and the square root. -/
def Block.svmInputs (s : Block F) (i : Byte) : Option (SvmVariant × Val F × Val F × Bool) × SqrtBackend :=
  ((s.banks.svm[i.toNat]?).map SvmRegs.inputs, s.params.sqrt)

theorem Effect.params_eq (h : Effect op s t) : t.params = s.params := by
  cases h <;> rfl

theorem map_getElem?_set {α β : Type} {view : α → β} {l : List α} {j k : Nat} {c c' : α} (hc : l[j]? = some c)
    (hv : view c' = view c) : ((l.set j c')[k]?).map view = (l[k]?).map view := by
  by_cases hjk : j = k
  · subst hjk
    rw [List.getElem?_set_self (List.getElem?_eq_some_iff.mp hc).1, hc, Option.map_some, Option.map_some, hv]
  · rw [List.getElem?_set_ne hjk]

/-- Only `SETVREF` and `ALLOWOVM` of the instance write what its `SVM.RUN` reads. -/
theorem Effect.svmInputs_eq (h : Effect op s t) (hv : op ≠ .svmSetvref i) (ho : ∀ flag, op ≠ .svmAllowovm i flag) :
    t.svmInputs i = s.svmInputs i := by
  have hinputs : (t.banks.svm[i.toNat]?).map SvmRegs.inputs = (s.banks.svm[i.toNat]?).map SvmRegs.inputs := by
    cases h with
    | svmSetvref _ x =>
      have hx : x.toNat ≠ i.toNat := fun hx => hv (by rw [BitVec.eq_of_toNat_eq hx])
      exact congrArg _ (List.getElem?_set_ne hx)
    | svmAllowovm _ x f =>
      have hx : x.toNat ≠ i.toNat := fun hx => ho f (by rw [BitVec.eq_of_toNat_eq hx])
      exact congrArg _ (List.getElem?_set_ne hx)
    | svmRun _ _ _ hm => exact map_getElem?_set hm rfl
    | _ => rfl
  rw [Block.svmInputs, hinputs, h.params_eq]
  rfl

/-- The same of any operations, one after the other. -/
theorem svmInputs_of_performs {ops : List (Instr × Args F)}
    (hops : ∀ p ∈ ops, p.1 ≠ .svmSetvref i ∧ ∀ flag, p.1 ≠ .svmAllowovm i flag) (h : performs ops t u) :
    u.svmInputs i = t.svmInputs i := by
  induction ops generalizing t with
  | nil => exact congrArg (·.svmInputs i) h
  | cons p ops ih =>
    obtain ⟨m, hm, hrest⟩ := h
    obtain ⟨hv, ho⟩ := hops p List.mem_cons_self
    exact (ih (fun q hq => hops q (List.mem_cons_of_mem p hq)) hrest).trans ((exec_effect hm).svmInputs_eq hv ho)

/-- `SVM.RUN` runs its modulator, or is rejected where the build has none. -/
theorem svmRun_next (h : exec (.svmRun i) ⟨F, s⟩ = .next ⟨F, t⟩) :
    (∃ m, s.banks.svm[i.toNat]? = some m ∧ t = (s.setSvm i (svmRun s.params.sqrt m)).answered []) ∨
      (s.banks.svm[i.toNat]? = none ∧ t = s.refusedWith .badInstance) := by
  obtain ⟨m, hm, h⟩ | ⟨hlen, ht⟩ := withInst_next h
  · exact .inl ⟨m, hm, (next_inj h).symm⟩
  · exact .inr ⟨List.getElem?_eq_none hlen, ht⟩

/-- What `SVM.RUN` leaves in its instance is a function of what it reads. -/
theorem svm_getElem?_of_svmRun (h : exec (.svmRun i) ⟨F, s⟩ = .next ⟨F, t⟩) :
    t.banks.svm[i.toNat]? = (s.banks.svm[i.toNat]?).map (svmRun s.params.sqrt) := by
  obtain ⟨m, hm, rfl⟩ | ⟨hnone, rfl⟩ := svmRun_next h
  · rw [hm]
    exact Block.setSvm_svm_self hm _
  · rw [hnone]
    exact hnone

theorem map_svmRun_of_svmInputs_eq (h : u.svmInputs i = t.svmInputs i) :
    (u.banks.svm[i.toNat]?).map (svmRun u.params.sqrt) = (t.banks.svm[i.toNat]?).map (svmRun t.params.sqrt) := by
  simp only [Block.svmInputs, Prod.mk.injEq] at h
  obtain ⟨hm, hsqrt⟩ := h
  rw [hsqrt]
  cases hu : u.banks.svm[i.toNat]? with
  | none =>
    rw [hu, Option.map_none, eq_comm, Option.map_eq_none_iff] at hm
    rw [hm]
  | some m =>
    rw [hu, Option.map_some, eq_comm, Option.map_eq_some_iff] at hm
    obtain ⟨m', ht, hinputs⟩ := hm
    rw [ht, Option.map_some, Option.map_some, svmRun_of_inputs_eq _ hinputs]

/-- A run that leaves its instance as it was changes no register. -/
theorem banks_eq_of_svmRun (h : exec (.svmRun i) ⟨F, s⟩ = .next ⟨F, t⟩)
    (hsame : t.banks.svm[i.toNat]? = s.banks.svm[i.toNat]?) : t.banks = s.banks := by
  obtain ⟨m, hm, rfl⟩ | ⟨-, rfl⟩ := svmRun_next h
  · have hrun : svmRun s.params.sqrt m = m :=
      Option.some.inj (((Block.setSvm_svm_self hm _).symm.trans hsame).trans hm)
    have hset : s.banks.svm.set i.toNat m = s.banks.svm := by
      obtain ⟨hlt, rfl⟩ := List.getElem?_eq_some_iff.mp hm
      exact List.set_getElem_self hlt
    rw [Block.answered_banks, hrun, Block.setSvm, hset]
  · rfl

end RunTwice

/-- Settles O53: neither the first run nor an operation in between writes what the second run reads. -/
theorem svmRunTwiceStoresTheSameDuties : Obligations.SvmRunTwiceStoresTheSameDuties := by
  intro F s t u v i ops hfirst hops hbetween hsecond
  have hread : u.svmInputs i = s.svmInputs i :=
    (svmInputs_of_performs hops hbetween).trans ((exec_effect hfirst).svmInputs_eq nofun fun _ => nofun)
  have hsame : v.banks.svm[i.toNat]? = t.banks.svm[i.toNat]? := by
    rw [svm_getElem?_of_svmRun hfirst, svm_getElem?_of_svmRun hsecond, map_svmRun_of_svmInputs_eq hread]
  refine ⟨hsame, fun hnil => ?_⟩
  subst hnil
  obtain rfl : u = t := hbetween
  exact banks_eq_of_svmRun hsecond hsame

end Sys2Proof.Machine
